-- ==== Sys2Proof/Word.lean ====
section
/-! DEFINITION. The Word and byte types of the WPK-64 block (00_scope.md R8, R13). -/

namespace Sys2Proof

/-- A Word: an unsigned 64-bit value, bit 63 most significant (00_scope.md R8, R13). -/
abbrev Word := BitVec 64

/-- A byte of the sink or source stream (20_memory.md R200). -/
abbrev Byte := BitVec 8

end Sys2Proof
end

