-- ==== Sys2Proof/Config.lean ====
section
/-! DEFINITION. The fixed parameters of the block (00_scope.md R8), its open parameters and the
values the spec leaves unspecified. An `opaque` constant has no body: nothing can be proved of its
value, so a claim is true whatever it is. -/

namespace Sys2Proof

/-- HOST_BYTE_ORDER: the order in which a Word's bytes cross the ports (00_scope.md R11,
20_memory.md R207): `le` least significant byte first, `be` most significant byte first. -/
inductive ByteOrder where
  | le
  | be
deriving DecidableEq, Repr, Inhabited

namespace Config

/-- OPEN parameter HOST_BYTE_ORDER of the block (00_scope.md R11; notes/assumptions/3.md). -/
opaque hostByteOrder : ByteOrder

/-- OPEN parameter WPK_BASE: the aperture's base address on the host bus (20_memory.md R201).
No rule depends on it (93_implementation_defined.md M2; notes/assumptions/4.md). -/
opaque wpkBase : Word

/-- Unspecified value of the k-th host read of a register other than STATUS while BUSY = 1
(46_control.md R1002, 93_implementation_defined.md U5; notes/assumptions/9.md). -/
opaque busyRead : Nat → Word

/-- Batch length B = W = 64 values (00_scope.md R8, R9). -/
abbrev batchLen : Nat := 64

/-- Header slots of a page (00_scope.md R8; 30_encoding.md R309). -/
abbrev slotCount : Nat := 9

/-- The sentinel slot value 127, "this slot holds no block" (30_encoding.md R310). -/
abbrev sentinel : BitVec 7 := 127

/-- VBUF size (10_state.md R109). -/
abbrev vbufLen : Nat := 128

/-- PBUF size (10_state.md R110). -/
abbrev pbufLen : Nat := 64

/-- PAGEBUF size: nine blocks of 64 Words (00_scope.md R8; 10_state.md R113). -/
abbrev pageBufLen : Nat := 576

end Config

/-- The host bus address of an aperture offset (20_memory.md R201). -/
def busAddress (off : BitVec 12) : Word := Config.wpkBase + off.setWidth 64

end Sys2Proof
end

