-- ==== Sys2Proof/Syntax.lean ====
section
/-! DEFINITION. The commands of the engine, one constructor per row of the opcode map
(30_encoding.md R301). The only immediate operand is SLOT (R316); every other operand is implicit. -/

namespace Sys2Proof

/-- A command. `slot` is the SLOT field, an unsigned header slot index (30_encoding.md R303). -/
inductive Instr where
  | nop
  | xenc
  | xdec
  | minw
  | pack
  | unpack
  | benc
  | bdec
  | hset (slot : Nat)
  | hget (slot : Nat)
  | hfull
  | hpart (slot : Nat)
  | hclass (slot : Nat)
  | winit
  | wbatch
  | wflush
  | rinit
  | rbatch
deriving DecidableEq, Repr

/-- The command's opcode, bits 5:0 of its word (30_encoding.md R301). -/
def Instr.opcode : Instr → Nat
  | .nop => 0x00
  | .xenc => 0x01
  | .xdec => 0x02
  | .minw => 0x03
  | .pack => 0x04
  | .unpack => 0x05
  | .benc => 0x06
  | .bdec => 0x07
  | .hset _ => 0x08
  | .hget _ => 0x09
  | .hfull => 0x0A
  | .hpart _ => 0x0B
  | .hclass _ => 0x0C
  | .winit => 0x10
  | .wbatch => 0x11
  | .wflush => 0x12
  | .rinit => 0x18
  | .rbatch => 0x19

/-- The command's SLOT operand; `none` for a command that does not use SLOT (30_encoding.md R301). -/
def Instr.slot? : Instr → Option Nat
  | .hset s | .hget s | .hpart s | .hclass s => some s
  | .nop | .xenc | .xdec | .minw | .pack | .unpack | .benc | .bdec | .hfull
  | .winit | .wbatch | .wflush | .rinit | .rbatch => none

end Sys2Proof
end

