-- ==== Sys2Proof/Machine/State.lean ====
section
/-! DEFINITION. The state of the block (10_state.md R100), of the agents around it, and its reset
value (70_reset_and_hazards.md R1201). -/

namespace Sys2Proof.Machine

/-- Result codes of STATUS.RESULT (30_encoding.md R304); codes 9..15 are never produced. -/
inductive ResultCode where
  | ok
  | tail
  | endOfData
  | truncated
  | invalidWidth
  | ioError
  | illegalCmd
  | badArg
  | badState
deriving DecidableEq, Repr

/-- W_STATE (10_state.md R111); code 3 is never held. -/
inductive WriterState where
  | filling
  | closed
  | broken
deriving DecidableEq, Repr

/-- R_STATE (10_state.md R117); code 3 is never held. -/
inductive ReaderState where
  | active
  | done
  | failed
deriving DecidableEq, Repr

/-- The Page Writer context (10_state.md R111 to R116). -/
structure Writer where
  /-- W_STATE -/
  state : WriterState
  /-- W_SLOT -/
  slot : BitVec 4
  /-- W_LEN -/
  len : BitVec 10
  /-- PAGEBUF -/
  pageBuf : Vector Word Config.pageBufLen
  /-- W_HDR -/
  hdr : Word
  /-- W_LAST, held zero-extended to 64 bits -/
  last : Word
  /-- W_EW -/
  ew : BitVec 2
deriving DecidableEq, Repr

/-- The Page Reader context (10_state.md R117 to R121). -/
structure Reader where
  /-- R_STATE -/
  state : ReaderState
  /-- R_SLOT -/
  slot : BitVec 4
  /-- R_HDR -/
  hdr : Word
  /-- R_LAST, held zero-extended to 64 bits -/
  last : Word
  /-- R_EW -/
  ew : BitVec 2
  /-- R_SX -/
  sx : Bool
deriving DecidableEq, Repr

/-- A page emission in progress (44_writer.md R803, R804): what remains to be done with the answer. -/
inductive SinkCall where
  /-- WBATCH's full page; `width` is the block's width, written to WIDTH when the sink accepts. -/
  | wbatch (width : Nat)
  /-- WFLUSH's terminal page. -/
  | wflush
deriving DecidableEq, Repr

/-- A source read in progress (45_reader.md R903 to R905): what remains to be done with the answer. -/
inductive SourceCall where
  /-- The header Word, 8 bytes (R903). -/
  | header
  /-- A raw tail of `count` Words (R904). -/
  | tail (count : Nat)
  /-- The block of `width` Words of header slot `slot` (R905). -/
  | block (width slot : Nat)
deriving DecidableEq, Repr

/-- The engine's phase (10_state.md R100; 46_control.md R1000, R1001, R1006). BUSY is 1 in every
phase but `idle`. -/
inductive Phase where
  /-- No command. -/
  | idle
  /-- The command in CMD is accepted and has not run yet. -/
  | accepted
  /-- The page `bytes` is handed to the sink, which has not answered (20_memory.md R213). -/
  | sinkWait (call : SinkCall) (bytes : List Byte)
  /-- The source has not answered a read (20_memory.md R213). -/
  | sourceWait (call : SourceCall)
deriving DecidableEq, Repr

/-- The sink's answer to a SinkWrite (20_memory.md R209): `accepted` is n (a number above the page's
length stands for the whole page), `err` says whether it reported an error, `held` is the length of
the page's prefix that a failed write leaves on the sink, any number (93_implementation_defined.md
U6). See notes/assumptions/7.md. -/
structure SinkReply where
  accepted : Nat
  err : Bool
  held : Nat
deriving DecidableEq, Repr

/-- How the source answers a SrcRead (20_memory.md R210): it delivers from its stream, or it fails
(ERR) having consumed `lost` bytes. See notes/assumptions/8.md. -/
inductive SourceReply where
  | deliver
  | fail (lost : Nat)
deriving DecidableEq, Repr

/-- The byte sink (an external agent, 10_state.md R130): the bytes it holds, and answers it has
ready for the next calls, oldest first. -/
structure Sink where
  accepted : List Byte
  replies : List SinkReply
deriving DecidableEq, Repr

/-- The byte source (an external agent, 10_state.md R130): the bytes it has left, whether it has
answered EOF, and how it answers the next calls, oldest first. -/
structure Source where
  bytes : List Byte
  ended : Bool
  replies : List SourceReply
deriving DecidableEq, Repr

/-- A register of the aperture (20_memory.md R201). -/
inductive Reg where
  | cmd | status | cfg | offset | width | count | hdr | initOffset
  | wstat | wlast | whdr | rstat | rlast | rhdr
  | vbuf (i : Fin Config.vbufLen)
  | pbuf (j : Fin Config.pbufLen)
deriving DecidableEq, Repr

/-- One access on the host bus, at an aperture byte offset (20_memory.md R202). Its data is one value of
`bits` bits, or is presented as byte lanes, first byte first (R206). -/
inductive Access where
  | read (bits : Nat) (off : BitVec 12)
  | write (bits : Nat) (off : BitVec 12) (value : Word)
  /-- A read presented as `n` byte lanes. -/
  | readLanes (n : Nat) (off : BitVec 12)
  /-- A write presented as byte lanes. -/
  | writeLanes (off : BitVec 12) (lanes : List Byte)
deriving DecidableEq, Repr

/-- What the host bus answered to the last admitted access (20_memory.md R202 to R206). -/
inductive BusReply where
  | none
  | written
  | data (value : Word)
  /-- The value read, presented as byte lanes (R206). -/
  | lanes (bytes : List Byte)
deriving DecidableEq, Repr

/-- A bus transaction of a host program (30_encoding.md R317). -/
inductive HostMove where
  /-- `wr REG, v` -/
  | write (r : Reg) (v : Word)
  /-- `rd REG` -/
  | read (r : Reg)
  /-- `wait`: `rd STATUS`, repeated until bit 0 = 0. -/
  | await
  /-- `expect REG, v`: `rd REG`, with the claim that the value read is v. -/
  | expect (r : Reg) (v : Word)
deriving DecidableEq, Repr

/-- The host (an external agent, 00_scope.md R12): the rest of its program, and for every `expect` so far
what the bus answered and the value claimed (30_encoding.md R317; notes/assumptions/6.md). -/
structure HostSide where
  program : List HostMove
  claims : List (BusReply × Word)
deriving DecidableEq, Repr

/-- One move of the run, in the order the moves happen (00_scope.md R12; notes/assumptions/5.md). -/
inductive Event where
  /-- A host access that is no part of the host's program reaches the block. -/
  | access (a : Access)
  /-- The host makes its program's next access (30_encoding.md R317). -/
  | host
  /-- The engine runs the command it has accepted. -/
  | engine
  /-- The sink answers, or has an answer ready for its next call. -/
  | sinkReply (r : SinkReply)
  /-- The source answers, or has an answer ready for its next call. -/
  | sourceReply (r : SourceReply)
  /-- The reset input is asserted and deasserted (70_reset_and_hazards.md R1200); `held` is the length
  of the prefix of an unanswered page that the sink keeps. DESIGN CHOICE: the two edges are one move, so
  no access and no port answer falls between them; the spec does not state what one would do
  (notes/assumptions/10.md). -/
  | reset (held : Nat)
deriving DecidableEq, Repr

/-- The machine: the block's state (10_state.md R100), then the agents' (R130) and the model's own
fields. -/
structure State where
  /-- CMD (10_state.md R101) -/
  cmd : Word
  /-- STATUS.RESULT (R102) -/
  result : ResultCode
  /-- STATUS.OVR (R102) -/
  ovr : Bool
  /-- CFG.EW (R103) -/
  cfgEW : BitVec 2
  /-- CFG.SX (R103) -/
  cfgSX : Bool
  /-- OFFSET (R104) -/
  offset : Word
  /-- WIDTH (R105) -/
  width : Word
  /-- COUNT (R106) -/
  count : Word
  /-- HDR (R107) -/
  hdr : Word
  /-- INIT_OFFSET (R108) -/
  initOffset : Word
  /-- VBUF (R109) -/
  vbuf : Vector Word Config.vbufLen
  /-- PBUF (R110) -/
  pbuf : Vector Word Config.pbufLen
  /-- The Page Writer context (R111 to R116) -/
  writer : Writer
  /-- The Page Reader context (R117 to R121) -/
  reader : Reader
  /-- The engine's phase (R100), from which STATUS.BUSY is read (R102) -/
  phase : Phase
  /-- HOST_BYTE_ORDER of this machine (00_scope.md R11); no step changes it -/
  byteOrder : ByteOrder
  /-- The byte sink (20_memory.md R209) -/
  sink : Sink
  /-- The byte source (20_memory.md R210) -/
  source : Source
  /-- The host (00_scope.md R12) -/
  host : HostSide
  /-- MODEL: the run's moves still to come -/
  schedule : List Event
  /-- MODEL: the host bus's last answer -/
  bus : BusReply
  /-- MODEL: how many unspecified values host reads have returned so far -/
  freeReads : Nat
deriving DecidableEq, Repr

/-- Why the machine stops. -/
inductive Fault where
  /-- BUS_ERROR: the host made an access that is not admitted (20_memory.md R202: "A model treats it
  as a fault of the host's program"). Raised by the host access step. Safe: the hardware answers the
  access with an error and changes no state. -/
  | busError
deriving DecidableEq, Repr

/-- Why the model has no meaning for a command. -/
inductive Refusal where
  /-- The command's row has no meaning in the model yet; raised by `exec` alone. Safe. Every row has
  its meaning, so nothing raises it. -/
  | notModelled (mnemonic : String)
deriving DecidableEq, Repr

/-- The writer context after reset (70_reset_and_hazards.md R1201). PAGEBUF's zeros are the model's
choice (notes/assumptions/2.md). -/
def Writer.reset : Writer where
  state := .filling
  slot := 0
  len := 0
  pageBuf := Vector.replicate Config.pageBufLen 0
  hdr := 0
  last := 0
  ew := 0

/-- The reader context after reset (70_reset_and_hazards.md R1201). -/
def Reader.reset : Reader where
  state := .active
  slot := 9
  hdr := 0
  last := 0
  ew := 0
  sx := false

/-- The machine after reset (70_reset_and_hazards.md R1201), with no page on the sink, nothing in
the source, no host program and no move scheduled. VBUF's and PBUF's zeros are the model's choice
(notes/assumptions/1.md). -/
def State.reset : State where
  cmd := 0
  result := .ok
  ovr := false
  cfgEW := 0
  cfgSX := false
  offset := 0
  width := 0
  count := 0
  hdr := 0
  initOffset := 0
  vbuf := Vector.replicate Config.vbufLen 0
  pbuf := Vector.replicate Config.pbufLen 0
  writer := Writer.reset
  reader := Reader.reset
  phase := .idle
  byteOrder := Config.hostByteOrder
  sink := ⟨[], []⟩
  source := ⟨[], false, []⟩
  host := ⟨[], []⟩
  schedule := []
  bus := .none
  freeReads := 0

/-- The three outcomes of a step of this machine (Host/Core.lean). -/
abbrev Outcome := Host.Outcome State Fault Refusal

end Sys2Proof.Machine
end

