-- ==== Sys2Proof/Machine/Flags.lean ====
section
/-! DEFINITION. The block's only flags, STATUS.BUSY, STATUS.RESULT and STATUS.OVR (10_state.md R102,
R132), and the codes of the context states. No command computes a condition code (R132). -/

namespace Sys2Proof.Machine

/-- The code of a result (30_encoding.md R304). -/
def ResultCode.code : ResultCode → BitVec 4
  | .ok => 0
  | .tail => 1
  | .endOfData => 2
  | .truncated => 3
  | .invalidWidth => 4
  | .ioError => 5
  | .illegalCmd => 6
  | .badArg => 7
  | .badState => 8

/-- The results a command ends with by `finish`: OK, TAIL and END. With every other it ends by `raise`
(00_scope.md R15, 46_control.md R1005). -/
def ResultCode.isFinish : ResultCode → Bool
  | .ok | .tail | .endOfData => true
  | .truncated | .invalidWidth | .ioError | .illegalCmd | .badArg | .badState => false

/-- W_STATE's code (10_state.md R111, 30_encoding.md R306). -/
def WriterState.code : WriterState → BitVec 2
  | .filling => 0
  | .closed => 1
  | .broken => 2

/-- R_STATE's code (10_state.md R117, 30_encoding.md R306). -/
def ReaderState.code : ReaderState → BitVec 2
  | .active => 0
  | .done => 1
  | .failed => 2

/-- STATUS.BUSY: 1 from a command's acceptance until its completion (10_state.md R102). -/
def State.busy (s : State) : Bool := s.phase != .idle

/-- One bit as a number. -/
def bit (b : Bool) : Nat := if b then 1 else 0

/-- STATUS as the host reads it: BUSY in bit 0, RESULT in bits 7:4, OVR in bit 8, reserved fields 0
(10_state.md R102). -/
def statusWord (s : State) : Word :=
  BitVec.ofNat 64 (bit s.busy + s.result.code.toNat <<< 4 + bit s.ovr <<< 8)

/-- A host write of STATUS: bit 8 = 1 clears OVR, nothing else is written (10_state.md R102,
20_memory.md R203, R205). -/
def writeStatus (v : Word) (s : State) : State := if v.getLsbD 8 then { s with ovr := false } else s

/-- A write dropped because BUSY = 1 sets OVR and changes nothing else (46_control.md R1002). -/
def dropWrite (s : State) : State := { s with ovr := true }

end Sys2Proof.Machine
end

