-- ==== Sys2Proof/Machine/Operands.lean ====
section
/-! DEFINITION. Operand forms: element widths, the lanes of VBUF, the Words of PBUF, and the writes
of result lanes (30_encoding.md R305, R316; 10_state.md R109, R110; 00_scope.md R14, R17). -/

namespace Sys2Proof.Machine

/-- `E(code) = 64 >> code` (30_encoding.md R305). -/
def elemBits (ew : BitVec 2) : Nat := 64 >>> ew.toNat

/-- `lo_E(v)` for the element width of the code (00_scope.md R14). -/
def lowElem (ew : BitVec 2) (v : Word) : BitVec (elemBits ew) := v.setWidth (elemBits ew)

/-- `zext_64(v)` (00_scope.md R14). -/
def zext64 {E : Nat} (v : BitVec E) : Word := v.setWidth 64

/-- `sext_64(v)` (00_scope.md R14). -/
def sext64 {E : Nat} (v : BitVec E) : Word := v.signExtend 64

/-- The widening of a decoded element to a VBUF entry: sign-extended when SX = 1, else zero-extended
(10_state.md R103, 40_transform.md R408). -/
def extend64 {E : Nat} (sx : Bool) (v : BitVec E) : Word := if sx then sext64 v else zext64 v

/-- Entries 0..k-1 of a buffer. -/
def firstEntries {n : Nat} (buf : Vector Word n) (k : Nat) : List Word := buf.toList.take k

/-- The buffer with entries start..start+ws.length-1 replaced by `ws`, the others kept. An entry past the
buffer's end is dropped. -/
def overwriteAt {n : Nat} (buf : Vector Word n) (start : Nat) (ws : List Word) : Vector Word n :=
  ⟨((buf.toList.take start ++ ws ++ buf.toList.drop (start + ws.length)).take n).toArray,
    by simp; omega⟩

/-- The buffer with entries 0..vs.length-1 replaced by `vs`, the others kept. -/
def overwrite {n : Nat} (buf : Vector Word n) (vs : List Word) : Vector Word n := overwriteAt buf 0 vs

/-- The 64 lanes of the batch in VBUF (00_scope.md R17; 10_state.md R109). -/
def batchLanes (s : State) : List Word := firstEntries s.vbuf Config.batchLen

/-- The batch's elements, `lo_E(VBUF[i])` for i in 0..63 (10_state.md R109). -/
def batchElems (ew : BitVec 2) (s : State) : List (BitVec (elemBits ew)) :=
  (batchLanes s).map (lowElem ew)

/-- PBUF[0..N-1] (10_state.md R110). -/
def packedWords (s : State) (n : Nat) : List Word := firstEntries s.pbuf n

/-- VBUF[0..vs.length-1] <- vs (host output, 46_control.md R1005). -/
def State.putVbuf (s : State) (vs : List Word) : State := { s with vbuf := overwrite s.vbuf vs }

/-- PBUF[0..ws.length-1] <- ws (host output, 46_control.md R1005). -/
def State.putPbuf (s : State) (ws : List Word) : State := { s with pbuf := overwrite s.pbuf ws }

/-- WIDTH <- v (host output, 46_control.md R1005). -/
def State.putWidth (s : State) (v : Word) : State := { s with width := v }

/-- COUNT <- v (host output, 46_control.md R1005). -/
def State.putCount (s : State) (v : Word) : State := { s with count := v }

/-- HDR <- v (host output, 46_control.md R1005). -/
def State.putHdr (s : State) (v : Word) : State := { s with hdr := v }

/-- A write of the Page Writer context (context write, 46_control.md R1005). -/
def State.putWriter (s : State) (w : Writer) : State := { s with writer := w }

/-- A write of the Page Reader context (context write, 46_control.md R1005). -/
def State.putReader (s : State) (r : Reader) : State := { s with reader := r }

end Sys2Proof.Machine
end

