-- ==== Sys2Proof/Machine/Ops.lean ====
section
/-! DEFINITION. The operations the commands share: ending a command, the Word transfer format, and
the calls of the sink and source ports (00_scope.md R15; 20_memory.md R207 to R213; 46_control.md
R1001, R1005). The block has no data memory (20_memory.md R200) and no trap entry or return
(60_exceptions.md R1103, R1104): an error ends its command by `raise`, and that is all. -/

namespace Sys2Proof.Machine

/-- The command word the engine runs: CMD (46_control.md R1000). There is no fetch (10_state.md R131). -/
def commandWord (s : State) : Word := s.cmd

/-- A command ends: RESULT <- code, BUSY <- 0 (46_control.md R1001). -/
def conclude (r : ResultCode) (s : State) : State := { s with result := r, phase := .idle }

/-- `finish r`: the command ends normally; `s` carries the command's writes (00_scope.md R15). -/
def finish (r : ResultCode) (s : State) : State := conclude r s

/-- `raise r`: the command ends with an error; `s` carries the context writes and port effects made so
far and none of its host outputs (00_scope.md R15, 46_control.md R1005, 60_exceptions.md R1103). -/
def raise (r : ResultCode) (s : State) : State := conclude r s

/-- `ser(w)`: the 8 bytes of a Word in the order they cross a port (20_memory.md R207). -/
def ser (order : ByteOrder) (w : Word) : List Byte :=
  match order with
  | .le => (List.range 8).map fun k => w.extractLsb' (8 * k) 8
  | .be => (List.range 8).map fun k => w.extractLsb' (56 - 8 * k) 8

/-- `deser(b)`: the Word whose `ser` is the 8 bytes `b` (20_memory.md R207). -/
def deser (order : ByteOrder) (b : List Byte) : Word :=
  BitVec.ofNat 64 <|
    match order with
    | .le => b.foldr (fun x acc => acc * 256 + x.toNat) 0
    | .be => b.foldl (fun acc x => acc * 256 + x.toNat) 0

/-- A sequence of Words crosses a port as the concatenation of each one's bytes (20_memory.md R207). -/
def serWords (order : ByteOrder) (ws : List Word) : List Byte := ws.flatMap (ser order)

/-- The `n` Words of a byte string, `deser(b[8j .. 8j+7])` for j in 0..n-1 (45_reader.md R904, R905). -/
def deserWords (order : ByteOrder) (n : Nat) (b : List Byte) : List Word :=
  (List.range n).map fun j => deser order ((b.drop (8 * j)).take 8)

/-- `s` with the sink replaced. -/
def State.putSink (s : State) (k : Sink) : State := { s with sink := k }

/-- `s` with the source replaced. -/
def State.putSource (s : State) (k : Source) : State := { s with source := k }

/-- The engine holds for a port's answer, BUSY stays 1 (20_memory.md R213). -/
def State.hold (s : State) (p : Phase) : State := { s with phase := p }

/-- The sink's call succeeds exactly when it reports no error and has accepted every byte
(20_memory.md R209). -/
def SinkReply.succeeds (r : SinkReply) (bytes : List Byte) : Bool :=
  !r.err && decide (bytes.length ≤ r.accepted)

/-- What the sink holds after its answer: the whole page, or any prefix of it when the call failed
(20_memory.md R209). -/
def Sink.take (k : Sink) (r : SinkReply) (bytes : List Byte) : Sink :=
  { k with accepted := k.accepted ++ (if r.succeeds bytes then bytes else bytes.take r.held) }

/-- The answer to a SrcRead (20_memory.md R210). -/
inductive SourceAnswer where
  | ok (bytes : List Byte)
  | eof (bytes : List Byte)
  | err
deriving DecidableEq, Repr

/-- The source answers SrcRead(n): all n bytes, or fewer with EOF when its stream has ended, or ERR.
The bytes are consumed, and EOF is sticky (20_memory.md R210). -/
def Source.answer (k : Source) (n : Nat) (r : SourceReply) : SourceAnswer × Source :=
  if k.ended then (.eof [], k)
  else
    match r with
    | .deliver =>
      if n ≤ k.bytes.length then (.ok (k.bytes.take n), { k with bytes := k.bytes.drop n })
      else (.eof k.bytes, { k with bytes := [], ended := true })
    | .fail lost => (.err, { k with bytes := k.bytes.drop (min lost n) })

/-- How many bytes a source call requests (45_reader.md R903 to R905). -/
def SourceCall.request : SourceCall → Nat
  | .header => 8
  | .tail count => 8 * count
  | .block width _ => 8 * width

/-- `SinkWrite`: hand the page to the sink and go on with its answer, at once if the sink has one ready,
else after a hold (20_memory.md R209, R213). -/
def sinkWrite (call : SinkCall) (bytes : List Byte) (go : SinkReply → State → State) (s : State) :
    State :=
  match s.sink.replies with
  | [] => s.hold (.sinkWait call bytes)
  | r :: rest => go r (s.putSink { s.sink with replies := rest })

/-- `SrcRead`: request bytes from the source and go on with its answer, at once if the source has one
ready, else after a hold (20_memory.md R210, R213). -/
def srcRead (call : SourceCall) (go : SourceAnswer → State → State) (s : State) : State :=
  match s.source.replies with
  | [] => s.hold (.sourceWait call)
  | r :: rest =>
    let reply := { s.source with replies := rest }.answer call.request r
    go reply.1 (s.putSource reply.2)

end Sys2Proof.Machine
end

