-- ==== Sys2Proof/Machine/Aperture.lean ====
section
/-! DEFINITION. The host register aperture: the map, the register views and the host's accesses
(20_memory.md R200 to R206; 10_state.md R101 to R127; 46_control.md R1000, R1002). -/

namespace Sys2Proof.Machine

/-- The register's byte offset (20_memory.md R201). -/
def Reg.byteOffset : Reg → Nat
  | .cmd => 0x000
  | .status => 0x008
  | .cfg => 0x010
  | .offset => 0x018
  | .width => 0x020
  | .count => 0x028
  | .hdr => 0x030
  | .initOffset => 0x038
  | .wstat => 0x040
  | .wlast => 0x048
  | .whdr => 0x050
  | .rstat => 0x058
  | .rlast => 0x060
  | .rhdr => 0x068
  | .vbuf i => 0x400 + 8 * i.val
  | .pbuf j => 0x800 + 8 * j.val

/-- The registers below 0x400, in the order of the map (20_memory.md R201). -/
def controlRegs : List Reg :=
  [.cmd, .status, .cfg, .offset, .width, .count, .hdr, .initOffset,
    .wstat, .wlast, .whdr, .rstat, .rlast, .rhdr]

/-- The register an offset names; `none` for a misaligned or reserved offset (20_memory.md R201,
R202). -/
def regAt (off : BitVec 12) : Option Reg :=
  let k := off.toNat / 8
  if off.toNat % 8 ≠ 0 then none
  else if k < 0x80 then controlRegs[k]?
  else if h : k - 0x80 < Config.vbufLen then some (.vbuf ⟨k - 0x80, h⟩)
  else if h : k - 0x100 < Config.pbufLen then some (.pbuf ⟨k - 0x100, h⟩)
  else none

/-- The register an access reaches, if the access is admitted: 64 bits wide, which is 8 byte lanes, at a
register's offset (20_memory.md R202, R206). -/
def Access.target : Access → Option Reg
  | .read bits off | .write bits off _ => if bits = 64 then regAt off else none
  | .readLanes n off => if n = 8 then regAt off else none
  | .writeLanes off lanes => if lanes.length = 8 then regAt off else none

/-- CFG as the host reads it, reserved fields 0 (10_state.md R103). -/
def cfgWord (s : State) : Word := BitVec.ofNat 64 (s.cfgEW.toNat + bit s.cfgSX <<< 2)

/-- WSTAT (10_state.md R122). -/
def wstatWord (w : Writer) : Word :=
  BitVec.ofNat 64
    (w.state.code.toNat + w.slot.toNat <<< 4 + w.len.toNat <<< 16 + w.ew.toNat <<< 28)

/-- RSTAT (10_state.md R125). -/
def rstatWord (r : Reader) : Word :=
  BitVec.ofNat 64 (r.state.code.toNat + r.slot.toNat <<< 4 + r.ew.toNat <<< 28 + bit r.sx <<< 30)

/-- What a host read of a register returns while the block is idle (10_state.md R101 to R127). -/
def readReg (s : State) : Reg → Word
  | .cmd => s.cmd
  | .status => statusWord s
  | .cfg => cfgWord s
  | .offset => s.offset
  | .width => s.width
  | .count => s.count
  | .hdr => s.hdr
  | .initOffset => s.initOffset
  | .wstat => wstatWord s.writer
  | .wlast => s.writer.last
  | .whdr => s.writer.hdr
  | .rstat => rstatWord s.reader
  | .rlast => s.reader.last
  | .rhdr => s.reader.hdr
  | .vbuf i => s.vbuf[i]
  | .pbuf j => s.pbuf[j]

/-- Command issue: CMD <- c, BUSY <- 1 (46_control.md R1000). -/
def issue (c : Word) (s : State) : State := { s with cmd := c, phase := .accepted }

/-- The effect of an admitted host write while the block is idle (20_memory.md R203, R205;
10_state.md R101 to R127). A write of a read-only register or a reserved field is ignored. -/
def writeReg (r : Reg) (v : Word) (s : State) : State :=
  match r with
  | .cmd => issue v s
  | .status => writeStatus v s
  | .cfg => { s with cfgEW := v.extractLsb' 0 2, cfgSX := v.getLsbD 2 }
  | .offset => { s with offset := v }
  | .width => s.putWidth v
  | .count => s.putCount v
  | .hdr => s.putHdr v
  | .initOffset => { s with initOffset := v }
  | .vbuf i => { s with vbuf := s.vbuf.set i v }
  | .pbuf j => { s with pbuf := s.pbuf.set j v }
  | .wstat | .wlast | .whdr | .rstat | .rlast | .rhdr => s

/-- An admitted host read: the register's value; while BUSY = 1 a register other than STATUS returns
an unspecified value (20_memory.md R204, R205; 46_control.md R1002). -/
def hostRead (r : Reg) (s : State) : State :=
  if s.busy ∧ r ≠ .status then
    { s with bus := .data (Config.busyRead s.freeReads), freeReads := s.freeReads + 1 }
  else { s with bus := .data (readReg s r) }

/-- An admitted host write: its effect; while BUSY = 1 a write of a register other than STATUS is
dropped and sets OVR (46_control.md R1002). -/
def hostWrite (r : Reg) (v : Word) (s : State) : State :=
  { (if s.busy ∧ r ≠ .status then dropWrite s else writeReg r v s) with bus := .written }

/-- The bus presents the value it returns as byte lanes, in HOST_BYTE_ORDER (20_memory.md R206). -/
def asLanes (s : State) : State :=
  match s.bus with
  | .data w => { s with bus := .lanes (ser s.byteOrder w) }
  | .none | .written | .lanes _ => s

/-- A host access (20_memory.md R202; the priority is 60_exceptions.md R1102). Presented as byte lanes, its
value crosses the bus in HOST_BYTE_ORDER (20_memory.md R206). -/
def hostAccess (a : Access) (s : State) : Outcome :=
  match a.target, a with
  | none, _ => .fault .busError
  | some r, .read _ _ => .next (hostRead r s)
  | some r, .write _ _ v => .next (hostWrite r v s)
  | some r, .readLanes _ _ => .next (asLanes (hostRead r s))
  | some r, .writeLanes _ lanes => .next (hostWrite r (deser s.byteOrder lanes) s)

end Sys2Proof.Machine
end

