-- ==== Sys2Proof/Machine/Packer.lean ====
section
/-! DEFINITION. Bit packer family: PACK and UNPACK (41_packer.md). A bit string is one natural number
with its length known; its first bit, stream position 0, is the most significant (00_scope.md R16). -/

namespace Sys2Proof.Machine

/-- The concatenation of the low `n` bits of each value, value 0 first, each MSB first
(41_packer.md R500). -/
def bitString (n : Nat) (vs : List Word) : Nat :=
  vs.foldl (fun acc v => acc * 2 ^ n + v.toNat % 2 ^ n) 0

/-- The `k` bits at positions `pos .. pos+k-1` of a bit string of `len` bits, first bit most
significant (41_packer.md R500, R501). -/
def chunk (len bits pos k : Nat) : Word := BitVec.ofNat 64 ((bits >>> (len - pos - k)) % 2 ^ k)

/-- `PACK_N(v)` for 64 values: N Words (41_packer.md R500). -/
def packWords (n : Nat) (vs : List Word) : List Word :=
  let bits := bitString n vs
  (List.range n).map fun j => chunk (64 * n) bits (64 * j) 64

/-- `UNPACK_N(w)` of N Words: 64 values below 2^N (41_packer.md R501). -/
def unpackWords (n : Nat) (ws : List Word) : List Word :=
  let bits := bitString 64 ws
  (List.range Config.batchLen).map fun i => chunk (64 * n) bits (i * n) n

/-- PACK (41_packer.md R505). -/
def execPack (s : State) : Outcome :=
  if 64 < s.width.toNat then .next (raise .invalidWidth s)
  else .next (finish .ok (s.putPbuf (packWords s.width.toNat (batchLanes s))))

/-- UNPACK (41_packer.md R506). -/
def execUnpack (s : State) : Outcome :=
  if 64 < s.width.toNat then .next (raise .invalidWidth s)
  else
    let n := s.width.toNat
    .next (finish .ok (s.putVbuf (unpackWords n (packedWords s n))))

end Sys2Proof.Machine
end

