-- ==== Sys2Proof/Machine/Transform.lean ====
section
/-! DEFINITION. Transform family: delta and zig-zag, XENC and XDEC (40_transform.md). -/

namespace Sys2Proof.Machine

/-- `ZZ_E(d)` (40_transform.md R400). -/
def zigzag {E : Nat} (d : BitVec E) : BitVec E :=
  (d <<< 1) ^^^ (if d.msb then BitVec.allOnes E else 0)

/-- `UNZZ_E(z)` (40_transform.md R401). -/
def unzigzag {E : Nat} (z : BitVec E) : BitVec E :=
  (z >>> 1) ^^^ (if z.getLsbD 0 then BitVec.allOnes E else 0)

/-- `ENC_E(v, off)`: zig-zagged deltas, previous minus current, modulo 2^E (40_transform.md R403). -/
def encodeDeltas {E : Nat} (prev : BitVec E) : List (BitVec E) → List (BitVec E)
  | [] => []
  | v :: vs => zigzag (prev - v) :: encodeDeltas v vs

/-- `DEC_E(z, off)` (40_transform.md R404). -/
def decodeDeltas {E : Nat} (prev : BitVec E) : List (BitVec E) → List (BitVec E)
  | [] => []
  | z :: zs =>
    let v := prev - unzigzag z
    v :: decodeDeltas v zs

/-- XENC (40_transform.md R407). -/
def execXenc (s : State) : Outcome :=
  let z := encodeDeltas (lowElem s.cfgEW s.offset) (batchElems s.cfgEW s)
  .next (finish .ok (s.putVbuf (z.map zext64)))

/-- XDEC (40_transform.md R408). -/
def execXdec (s : State) : Outcome :=
  let v := decodeDeltas (lowElem s.cfgEW s.offset) (batchElems s.cfgEW s)
  .next (finish .ok (s.putVbuf (v.map (extend64 s.cfgSX))))

end Sys2Proof.Machine
end

