-- ==== Sys2Proof/Machine/Codec.lean ====
section
/-! DEFINITION. Width selector and batch codec family: MINW, BENC and BDEC (42_width_codec.md). -/

namespace Sys2Proof.Machine

/-- `bitlen(v)`: the index of the highest set bit plus 1, and 0 for 0 (00_scope.md R14). -/
def bitlen (v : Nat) : Nat := if v = 0 then 0 else Nat.log2 v + 1

/-- `MINW_E(z)`: the bit length of the OR of all values (42_width_codec.md R600). -/
def minWidth {E : Nat} (zs : List (BitVec E)) : Nat := bitlen (zs.foldl (· ||| ·) 0).toNat

/-- `BENC_E(v, off)`: the width and that many Words (42_width_codec.md R602). -/
def encodeBatch {E : Nat} (off : BitVec E) (vs : List (BitVec E)) : Nat × List Word :=
  let z := encodeDeltas off vs
  let n := minWidth z
  (n, packWords n (z.map zext64))

/-- `BDEC_E(w, N, off)` for a width N that has been checked (42_width_codec.md R603). -/
def decodeBatch {E : Nat} (off : BitVec E) (n : Nat) (ws : List Word) : List (BitVec E) :=
  decodeDeltas off ((unpackWords n ws).map (·.setWidth E))

/-- MINW (42_width_codec.md R604). -/
def execMinw (s : State) : Outcome :=
  .next (finish .ok (s.putWidth (BitVec.ofNat 64 (minWidth (batchElems s.cfgEW s)))))

/-- BENC (42_width_codec.md R605). -/
def execBenc (s : State) : Outcome :=
  let block := encodeBatch (lowElem s.cfgEW s.offset) (batchElems s.cfgEW s)
  .next (finish .ok ((s.putPbuf block.2).putWidth (BitVec.ofNat 64 block.1)))

/-- BDEC (42_width_codec.md R606). -/
def execBdec (s : State) : Outcome :=
  if elemBits s.cfgEW < s.width.toNat then .next (raise .invalidWidth s)
  else
    let n := s.width.toNat
    let v := decodeBatch (lowElem s.cfgEW s.offset) n (packedWords s n)
    .next (finish .ok (s.putVbuf (v.map (extend64 s.cfgSX))))

end Sys2Proof.Machine
end

