-- ==== Sys2Proof/Machine/Header.lean ====
section
/-! DEFINITION. Page header family: HSET, HGET, HFULL, HPART and HCLASS (43_header.md; the header's
layout is 30_encoding.md R309). -/

namespace Sys2Proof.Machine

/-- `field(h, s)`, bits 7s+6..7s (30_encoding.md R309). -/
def field (h : Word) (s : Nat) : BitVec 7 := h.extractLsb' (7 * s) 7

/-- `setfield(h, s, v)`: h with the 7 bits of slot s replaced by v (30_encoding.md R309). -/
def setField (h : Word) (s : Nat) (v : BitVec 7) : Word :=
  (h &&& ~~~((0x7F : Word) <<< (7 * s))) ||| (v.setWidth 64 <<< (7 * s))

/-- Bit 63, the full-page flag (30_encoding.md R309). -/
def fullFlag : Word := 0x8000000000000000

/-- Bits 63:56, the raw-tail count of a terminal page (30_encoding.md R309). -/
def tailCount (h : Word) : Nat := (h.extractLsb' 56 8).toNat

/-- `h[63:56] <- r` (43_header.md R704). -/
def setTailCount (h : Word) (r : BitVec 8) : Word :=
  (h &&& (0x00FFFFFFFFFFFFFF : Word)) ||| (r.setWidth 64 <<< 56)

/-- `FINISH_PARTIAL(h, k, r)`: slots k..8 get the sentinel, then bits 63:56 the count
(43_header.md R704). -/
def finishPartial (h : Word) (k : Nat) (r : BitVec 8) : Word :=
  setTailCount
    ((List.range Config.slotCount).foldl
      (fun h s => if k ≤ s then setField h s Config.sentinel else h) h) r

/-- What a header slot says (43_header.md R706). -/
inductive SlotClass where
  /-- A block of this width. -/
  | block (width : Nat)
  /-- The page is terminal here, with this raw-tail count. -/
  | terminal (count : Nat)
  /-- No width and no terminal slot. -/
  | invalid
deriving DecidableEq, Repr

/-- `CLASSIFY(h, s)` (43_header.md R706; the terminal test is 30_encoding.md R311). -/
def classify (h : Word) (s : Nat) : SlotClass :=
  if h.getLsbD 63 = false ∧ (s = 8 ∨ field h s = Config.sentinel) then .terminal (tailCount h)
  else if (field h s).toNat ≤ 64 then .block (field h s).toNat
  else .invalid

/-- HSET (43_header.md R701). -/
def execHset (slot : Nat) (s : State) : Outcome :=
  if 8 < slot then .next (raise .badArg s)
  else if 127 < s.width.toNat then .next (raise .badArg s)
  else .next (finish .ok (s.putHdr (setField s.hdr slot (s.width.setWidth 7))))

/-- HGET (43_header.md R702). -/
def execHget (slot : Nat) (s : State) : Outcome :=
  if 8 < slot then .next (raise .badArg s)
  else .next (finish .ok (s.putWidth (zext64 (field s.hdr slot))))

/-- HFULL (43_header.md R703). -/
def execHfull (s : State) : Outcome := .next (finish .ok (s.putHdr (s.hdr ||| fullFlag)))

/-- HPART (43_header.md R705). -/
def execHpart (slot : Nat) (s : State) : Outcome :=
  if 8 < slot then .next (raise .badArg s)
  else if 255 < s.count.toNat then .next (raise .badArg s)
  else .next (finish .ok (s.putHdr (finishPartial s.hdr slot (s.count.setWidth 8))))

/-- HCLASS (43_header.md R707). -/
def execHclass (slot : Nat) (s : State) : Outcome :=
  if 8 < slot then .next (raise .badArg s)
  else
    match classify s.hdr slot with
    | .block f => .next (finish .ok (s.putWidth (BitVec.ofNat 64 f)))
    | .terminal r => .next (finish .tail (s.putCount (BitVec.ofNat 64 r)))
    | .invalid => .next (raise .invalidWidth s)

end Sys2Proof.Machine
end

