-- ==== Sys2Proof/Machine/PageReader.lean ====
section
/-! DEFINITION. Page Reader family: RINIT and RBATCH (45_reader.md). -/

namespace Sys2Proof.Machine

/-- R_STATE <- FAILED, then raise (45_reader.md R902 to R905). -/
def readerFails (r : ResultCode) (s : State) : State :=
  raise r (s.putReader { s.reader with state := .failed })

/-- R_STATE <- DONE, then finish END (45_reader.md R903). -/
def readerEnds (s : State) : State :=
  finish .endOfData (s.putReader { s.reader with state := .done })

/-- A block whose Words are all read: decode it, deliver it to VBUF, COUNT and WIDTH, and move on
(45_reader.md R905). The block's last element is the new R_LAST. -/
def deliverBlock (n slot : Nat) (ws : List Word) (s : State) : State :=
  let ew := s.reader.ew
  let v := decodeBatch (lowElem ew s.reader.last) n ws
  let r :=
    { s.reader with last := zext64 (v.getLastD 0), slot := BitVec.ofNat 4 (slot + 1) }
  finish .ok
    ((((s.putReader r).putVbuf (v.map (extend64 s.reader.sx))).putCount 64).putWidth
      (BitVec.ofNat 64 n))

/-- A raw tail whose Words are all read: deliver it to VBUF and COUNT; the reader is DONE
(45_reader.md R904). -/
def deliverTail (count : Nat) (ws : List Word) (s : State) : State :=
  let v := ws.map fun w => extend64 s.reader.sx (lowElem s.reader.ew w)
  let r := { s.reader with slot := 9, state := .done }
  finish .tail (((s.putReader r).putVbuf v).putCount (BitVec.ofNat 64 count))

/-- The source's answer to the read of a block (45_reader.md R905). -/
def blockAnswer (n slot : Nat) (a : SourceAnswer) (s : State) : State :=
  match a with
  | .err => readerFails .ioError s
  | .eof _ => readerFails .truncated s
  | .ok b => deliverBlock n slot (deserWords s.byteOrder n b) s

/-- The source's answer to the read of a raw tail (45_reader.md R904). -/
def tailAnswer (count : Nat) (a : SourceAnswer) (s : State) : State :=
  match a with
  | .err => readerFails .ioError s
  | .eof _ => readerFails .truncated s
  | .ok b => deliverTail count (deserWords s.byteOrder count b) s

/-- `READ_BLOCK(N, s)` (45_reader.md R905). -/
def readBlock (n slot : Nat) (s : State) : State :=
  if elemBits s.reader.ew < n then readerFails .invalidWidth s
  else if n = 0 then deliverBlock 0 slot [] s
  else srcRead (.block n slot) (blockAnswer n slot) s

/-- `READ_TAIL(r)` (45_reader.md R904). -/
def readTail (count : Nat) (s : State) : State :=
  if count = 0 then deliverTail 0 [] s else srcRead (.tail count) (tailAnswer count) s

/-- RBATCH from the slot on, with a header loaded (45_reader.md R902). -/
def readSlot (s : State) : State :=
  match classify s.reader.hdr s.reader.slot.toNat with
  | .terminal r => readTail r s
  | .block n => readBlock n s.reader.slot.toNat s
  | .invalid => readerFails .invalidWidth s

/-- The source's answer to the header read of `LOAD_HEADER`, and RBATCH from there on
(45_reader.md R902, R903). -/
def headerAnswer (a : SourceAnswer) (s : State) : State :=
  match a with
  | .err => readerFails .ioError s
  | .eof [] => readerEnds s
  | .eof (_ :: _) => readerFails .truncated s
  | .ok b => readSlot (s.putReader { s.reader with hdr := deser s.byteOrder b, slot := 0 })

/-- What RBATCH does with the answer to the read it is waiting for (45_reader.md R903 to R905). -/
def sourceReturn (call : SourceCall) (a : SourceAnswer) (s : State) : State :=
  match call with
  | .header => headerAnswer a s
  | .tail count => tailAnswer count a s
  | .block n slot => blockAnswer n slot a s

/-- RINIT (45_reader.md R901). It does not touch the source. -/
def execRinit (s : State) : Outcome :=
  .next (finish .ok (s.putReader
    { s.reader with
      ew := s.cfgEW
      sx := s.cfgSX
      last := zext64 (lowElem s.cfgEW s.initOffset)
      hdr := 0
      slot := 9
      state := .active }))

/-- RBATCH (45_reader.md R902). -/
def execRbatch (s : State) : Outcome :=
  match s.reader.state with
  | .done => .next (finish .endOfData s)
  | .failed => .next (raise .badState s)
  | .active =>
    if s.reader.slot = 9 then .next (srcRead .header headerAnswer s) else .next (readSlot s)

end Sys2Proof.Machine
end

