-- ==== Sys2Proof/Machine/PageWriter.lean ====
section
/-! DEFINITION. Page Writer family: WINIT, WBATCH and WFLUSH (44_writer.md). -/

namespace Sys2Proof.Machine

/-- PAGEBUF[0 .. W_LEN-1]: the blocks of the current page (10_state.md R113). -/
def Writer.blocks (w : Writer) : List Word := firstEntries w.pageBuf w.len.toNat

/-- The page buffer emptied after an emission (44_writer.md R803, R804). W_LAST and W_EW stay. -/
def Writer.emptied (w : Writer) : Writer := { w with hdr := 0, slot := 0, len := 0 }

/-- The context writes of WBATCH for a block of width `n` before any emission (44_writer.md R802). The
writer invariant keeps the block inside PAGEBUF's 576 entries (notes/assumptions/11.md). -/
def Writer.append (w : Writer) (n : Nat) (ws : List Word) (last : Word) : Writer :=
  { w with
    pageBuf := overwriteAt w.pageBuf w.len.toNat ws
    len := w.len + BitVec.ofNat 10 n
    hdr := setField w.hdr w.slot.toNat (BitVec.ofNat 7 n)
    slot := w.slot + 1
    last := last }

/-- What a page emission does with the sink's answer (44_writer.md R803, R804): on failure the writer
is BROKEN and the command raises IO_ERROR; on success the page is emptied, WBATCH writes WIDTH, WFLUSH
closes the writer. -/
def sinkReturn (call : SinkCall) (bytes : List Byte) (r : SinkReply) (s : State) : State :=
  let s' := s.putSink (s.sink.take r bytes)
  if r.succeeds bytes then
    match call with
    | .wbatch n => finish .ok ((s'.putWriter s.writer.emptied).putWidth (BitVec.ofNat 64 n))
    | .wflush => finish .ok (s'.putWriter { s.writer.emptied with state := .closed })
  else raise .ioError (s'.putWriter { s.writer with state := .broken })

/-- `EMIT_FULL`: set the full flag and hand the header and the blocks to the sink
(44_writer.md R803). -/
def emitFull (n : Nat) (s : State) : State :=
  let w := { s.writer with hdr := s.writer.hdr ||| fullFlag }
  let bytes := serWords s.byteOrder (w.hdr :: w.blocks)
  sinkWrite (.wbatch n) bytes (sinkReturn (.wbatch n) bytes) (s.putWriter w)

/-- The terminal page WFLUSH emits: header, blocks, `r` raw Words (44_writer.md R804; 20_memory.md
R211). -/
def terminalPage (s : State) (r : Nat) : List Word :=
  finishPartial s.writer.hdr s.writer.slot.toNat (BitVec.ofNat 8 r)
    :: (s.writer.blocks
      ++ (firstEntries s.vbuf r).map fun v => zext64 (lowElem s.writer.ew v))

/-- WINIT (44_writer.md R801). -/
def execWinit (s : State) : Outcome :=
  .next (finish .ok (s.putWriter
    { s.writer with
      ew := s.cfgEW
      last := zext64 (lowElem s.cfgEW s.initOffset)
      hdr := 0
      slot := 0
      len := 0
      state := .filling }))

/-- WBATCH (44_writer.md R802). -/
def execWbatch (s : State) : Outcome :=
  if s.writer.state ≠ .filling then .next (raise .badState s)
  else
    let ew := s.writer.ew
    let block := encodeBatch (lowElem ew s.writer.last) (batchElems ew s)
    let w := s.writer.append block.1 block.2 (zext64 (lowElem ew s.vbuf[63]))
    if w.slot = 9 then .next (emitFull block.1 (s.putWriter w))
    else .next (finish .ok ((s.putWriter w).putWidth (BitVec.ofNat 64 block.1)))

/-- WFLUSH (44_writer.md R804). -/
def execWflush (s : State) : Outcome :=
  if s.writer.state ≠ .filling then .next (raise .badState s)
  else if 63 < s.count.toNat then .next (raise .badArg s)
  else if s.writer.slot = 0 ∧ s.count = 0 then
    .next (finish .ok (s.putWriter { s.writer with state := .closed }))
  else
    let bytes := serWords s.byteOrder (terminalPage s s.count.toNat)
    .next (sinkWrite .wflush bytes (sinkReturn .wflush bytes) s)

end Sys2Proof.Machine
end

