-- ==== Sys2Proof/Machine/Agents.lean ====
section
/-! DEFINITION. The moves of the agents around the engine and of the reset input, and which agent
moves next (00_scope.md R12; 20_memory.md R209, R210, R213; 30_encoding.md R317;
70_reset_and_hazards.md R1200). -/

namespace Sys2Proof.Machine

/-- The sink answers: the command that waits for it goes on; with no call outstanding the answer is
ready for the next one (20_memory.md R213). -/
def sinkAnswers (r : SinkReply) (s : State) : State :=
  match s.phase with
  | .sinkWait call bytes => sinkReturn call bytes r s
  | .idle | .accepted | .sourceWait _ =>
    s.putSink { s.sink with replies := s.sink.replies ++ [r] }

/-- The source answers: the command that waits for it goes on; with no call outstanding the answer is
ready for the next one (20_memory.md R213). -/
def sourceAnswers (r : SourceReply) (s : State) : State :=
  match s.phase with
  | .sourceWait call =>
    let reply := s.source.answer call.request r
    sourceReturn call reply.1 (s.putSource reply.2)
  | .idle | .accepted | .sinkWait _ _ =>
    s.putSource { s.source with replies := s.source.replies ++ [r] }

/-- Reset: every piece of the block's state takes its reset value, the command in progress is
abandoned. The sink and the source keep what they hold; of a page not yet answered the sink holds a
prefix (70_reset_and_hazards.md R1200). The host keeps its program. DESIGN CHOICE: assertion and
deassertion are this one move, so nothing happens while reset stays asserted
(notes/assumptions/10.md). -/
def resetBlock (held : Nat) (s : State) : State :=
  let sink :=
    match s.phase with
    | .sinkWait _ bytes => { s.sink with accepted := s.sink.accepted ++ bytes.take held }
    | .idle | .accepted | .sourceWait _ => s.sink
  { State.reset with
    byteOrder := s.byteOrder
    sink := sink
    source := s.source
    host := s.host
    schedule := s.schedule
    freeReads := s.freeReads }

/-- An admitted read of a register (30_encoding.md R317). -/
def readOf (r : Reg) : Access := .read 64 (BitVec.ofNat 12 r.byteOffset)

/-- An admitted write of a register (30_encoding.md R317). -/
def writeOf (r : Reg) (v : Word) : Access := .write 64 (BitVec.ofNat 12 r.byteOffset) v

/-- The access of a program's transaction (30_encoding.md R317). -/
def HostMove.access : HostMove → Access
  | .write r v => writeOf r v
  | .read r | .expect r _ => readOf r
  | .await => readOf .status

/-- The host's program becomes `rest`. -/
def State.putProgram (s : State) (rest : List HostMove) : State :=
  { s with host := { s.host with program := rest } }

/-- The value the bus returned has bit 0 = 0. -/
def BusReply.bit0Clear : BusReply → Bool
  | .data w => !w.getLsbD 0
  | .none | .written | .lanes _ => false

/-- The host goes on once the bus has answered its transaction: a wait is over when the STATUS read found
bit 0 = 0, and is repeated otherwise; a claim is recorded with the answer (30_encoding.md R317). -/
def HostMove.goOn (m : HostMove) (rest : List HostMove) (s : State) : State :=
  match m with
  | .write _ _ | .read _ => s.putProgram rest
  | .await => if s.bus.bit0Clear then s.putProgram rest else s
  | .expect _ v => { s with host := ⟨rest, s.host.claims ++ [(s.bus, v)]⟩ }

/-- The host's turn: it makes its program's next access and goes on with the answer; with its program over
it does nothing (30_encoding.md R317). -/
def hostTurn (s : State) : Outcome :=
  match s.host.program with
  | [] => .next s
  | m :: rest =>
    match hostAccess m.access s with
    | .next t => .next (m.goOn rest t)
    | .fault f => .fault f
    | .refused r => .refused r

/-- What an event does, the event being off the schedule. An engine turn with no command accepted and
waiting to run does nothing. -/
def event (e : Event) (s : State) : Outcome :=
  match e with
  | .access a => hostAccess a s
  | .host => hostTurn s
  | .engine => .next s
  | .sinkReply r => .next (sinkAnswers r s)
  | .sourceReply r => .next (sourceAnswers r s)
  | .reset held => .next (resetBlock held s)

/-- Who moves next. -/
inductive Move where
  /-- The engine runs the accepted command in this state. -/
  | run (s : State)
  /-- Another agent moves, with this outcome. -/
  | other (o : Outcome)

/-- The schedule decides who moves. An accepted command runs at the schedule's next engine turn, or when
the schedule is empty; with nothing scheduled and nothing to run it is the host's turn
(notes/assumptions/5.md). -/
def nextMove (s : State) : Move :=
  match s.schedule with
  | [] => if s.phase = .accepted then .run s else .other (hostTurn s)
  | e :: rest =>
    let s' := { s with schedule := rest }
    if s.phase = .accepted ∧ e = .engine then .run s' else .other (event e s')

/-- The accepted write of the command word `c` to CMD, with the engine's turn next. -/
def acceptWord (c : Word) (s : State) : State :=
  { issue c s with schedule := .engine :: s.schedule }

end Sys2Proof.Machine
end

