-- ==== Sys2Proof/WellFormed.lean ====
section
/-! DEFINITION. Which command terms have an encoding (30_encoding.md R300, R303). -/

namespace Sys2Proof

/-- A command is well-formed when its SLOT operand, if it has one, fits the 4-bit SLOT field: every
value 0..15 is a legal encoding, also 9..15, which the command answers with BAD_ARG (R303). -/
def Instr.wellFormed (i : Instr) : Bool :=
  match i.slot? with
  | some s => decide (s < 16)
  | none => true

end Sys2Proof
end

