-- ==== Sys2Proof/Decode.lean ====
section
/-! DEFINITION. Decoding and encoding of the command word (30_encoding.md R300 to R303). The
command word is the 64-bit value written to CMD; it is not fetched from a memory. -/

namespace Sys2Proof

/-- Why a command word selects no row of the opcode map (30_encoding.md R302). -/
inductive DecodeError where
  /-- A reserved bit (7:6 or 63:12) is 1. -/
  | reservedBits
  /-- The opcode is unassigned. -/
  | unassignedOpcode
  /-- SLOT is nonzero with an opcode that does not use it. -/
  | slotNotUsed
deriving DecidableEq, Repr

/-- OP, bits 5:0 (30_encoding.md R300). -/
def opField (c : Word) : Nat := (c.extractLsb' 0 6).toNat

/-- SLOT, bits 11:8 (30_encoding.md R300). -/
def slotField (c : Word) : Nat := (c.extractLsb' 8 4).toNat

/-- The reserved bits 7:6 and 63:12 are all 0 (30_encoding.md R300). -/
def reservedClear (c : Word) : Bool := c.extractLsb' 6 2 == 0 && c.extractLsb' 12 52 == 0

/-- A row that does not use SLOT: SLOT must be 0 (30_encoding.md R300). -/
def withoutSlot (slot : Nat) (i : Instr) : Except DecodeError Instr :=
  if slot = 0 then .ok i else .error .slotNotUsed

/-- The row of the opcode map with this opcode, given the word's SLOT field (30_encoding.md R301). -/
def decodeRow (op slot : Nat) : Except DecodeError Instr :=
  match op with
  | 0x00 => withoutSlot slot .nop
  | 0x01 => withoutSlot slot .xenc
  | 0x02 => withoutSlot slot .xdec
  | 0x03 => withoutSlot slot .minw
  | 0x04 => withoutSlot slot .pack
  | 0x05 => withoutSlot slot .unpack
  | 0x06 => withoutSlot slot .benc
  | 0x07 => withoutSlot slot .bdec
  | 0x08 => .ok (.hset slot)
  | 0x09 => .ok (.hget slot)
  | 0x0A => withoutSlot slot .hfull
  | 0x0B => .ok (.hpart slot)
  | 0x0C => .ok (.hclass slot)
  | 0x10 => withoutSlot slot .winit
  | 0x11 => withoutSlot slot .wbatch
  | 0x12 => withoutSlot slot .wflush
  | 0x18 => withoutSlot slot .rinit
  | 0x19 => withoutSlot slot .rbatch
  | _ => .error .unassignedOpcode

/-- The command a word selects, or why it is illegal (30_encoding.md R301, R302). -/
def decode (c : Word) : Except DecodeError Instr :=
  if reservedClear c then decodeRow (opField c) (slotField c) else .error .reservedBits

/-- The command word of a command: `OP OR (SLOT << 8)` (30_encoding.md R317, `enc`). -/
def encode (i : Instr) : Word :=
  BitVec.ofNat 64 i.opcode ||| (BitVec.ofNat 64 (i.slot?.getD 0) <<< 8)

/-- The row's `match` value (30_encoding.md R301): its opcode. -/
def Instr.matchWord (i : Instr) : Word := BitVec.ofNat 64 i.opcode

/-- The row's `mask` value (30_encoding.md R301): all ones, or all ones but the SLOT field. -/
def Instr.maskWord (i : Instr) : Word :=
  match i.slot? with
  | some _ => 0xFFFFFFFFFFFFF0FF
  | none => 0xFFFFFFFFFFFFFFFF

/-- The command an opcode-table word of `nbits` bits selects; the bits above `nbits` are 0. -/
def decodeTableWord (nbits w : Nat) : Option Instr :=
  match decode (BitVec.ofNat 64 (w % 2 ^ nbits)) with
  | .ok i => some i
  | .error _ => none

end Sys2Proof
end

