-- ==== Sys2Proof/Machine/Control.lean ====
section
/-! DEFINITION. Command control: NOP and the illegal command (46_control.md). -/

namespace Sys2Proof.Machine

/-- NOP (46_control.md R1003). -/
def execNop (s : State) : Outcome := .next (finish .ok s)

/-- The illegal command: a command word that selects no row (46_control.md R1004). -/
def execIllegal (s : State) : Outcome := .next (raise .illegalCmd s)

end Sys2Proof.Machine
end

