-- ==== Sys2Proof/Machine/Dispatch.lean ====
section
/-! DEFINITION. The meaning of each command (30_encoding.md R301), one arm per constructor. -/

namespace Sys2Proof.Machine

def exec (i : Instr) (s : State) : Host.Outcome State Fault Refusal :=
  match i with
  | .nop => Sys2Proof.Machine.execNop s
  | .xenc => Sys2Proof.Machine.execXenc s
  | .xdec => Sys2Proof.Machine.execXdec s
  | .minw => Sys2Proof.Machine.execMinw s
  | .pack => Sys2Proof.Machine.execPack s
  | .unpack => Sys2Proof.Machine.execUnpack s
  | .benc => Sys2Proof.Machine.execBenc s
  | .bdec => Sys2Proof.Machine.execBdec s
  | .hset slot => Sys2Proof.Machine.execHset slot s
  | .hget slot => Sys2Proof.Machine.execHget slot s
  | .hfull => Sys2Proof.Machine.execHfull s
  | .hpart slot => Sys2Proof.Machine.execHpart slot s
  | .hclass slot => Sys2Proof.Machine.execHclass slot s
  | .winit => Sys2Proof.Machine.execWinit s
  | .wbatch => Sys2Proof.Machine.execWbatch s
  | .wflush => Sys2Proof.Machine.execWflush s
  | .rinit => Sys2Proof.Machine.execRinit s
  | .rbatch => Sys2Proof.Machine.execRbatch s

end Sys2Proof.Machine
end

