-- ==== Sys2Proof/Machine/Step.lean ====
section
/-! DEFINITION. One step of the machine: the next agent's move (00_scope.md R12). -/

namespace Sys2Proof.Machine

/-- The engine runs the command in CMD: the row it selects, or the illegal command
(46_control.md R1000, R1004, R1006). -/
def runCommand (s : State) : Outcome :=
  match decode (commandWord s) with
  | .ok i => exec i s
  | .error _ => execIllegal s

/-- One step. -/
def step (s : State) : Host.Outcome State Fault Refusal :=
  match nextMove s with
  | .run s' => runCommand s'
  | .other o => o

/-- `s` with the command word whose bits are `w` accepted in CMD, so that the next step runs it. The
bits above `nbits` are 0. -/
def State.withFetchWord (s : State) (nbits w : Nat) : State :=
  acceptWord (BitVec.ofNat 64 (w % 2 ^ nbits)) s

end Sys2Proof.Machine
end

