-- ==== Sys2Proof/Machine/HostProgram.lean ====
section
/-! DEFINITION. The host program syntax (30_encoding.md R317): its lines, and the bus transactions each
one expands to. A program is the list of its lines. -/

namespace Sys2Proof.Machine

/-- The mnemonics of the opcode map (30_encoding.md R301). -/
inductive Mnemonic where
  | nop | xenc | xdec | minw | pack | unpack | benc | bdec
  | hset | hget | hfull | hpart | hclass
  | winit | wbatch | wflush | rinit | rbatch
deriving DecidableEq, Repr

/-- `OP(MNEM)` (30_encoding.md R301, R317). -/
def Mnemonic.op : Mnemonic → Word
  | .nop => 0x00
  | .xenc => 0x01
  | .xdec => 0x02
  | .minw => 0x03
  | .pack => 0x04
  | .unpack => 0x05
  | .benc => 0x06
  | .bdec => 0x07
  | .hset => 0x08
  | .hget => 0x09
  | .hfull => 0x0A
  | .hpart => 0x0B
  | .hclass => 0x0C
  | .winit => 0x10
  | .wbatch => 0x11
  | .wflush => 0x12
  | .rinit => 0x18
  | .rbatch => 0x19

/-- `enc(MNEM, s) = OP(MNEM) OR (s << 8)` (30_encoding.md R317), legal or not: `enc(WBATCH, 1)` is an
illegal command word. -/
def enc (m : Mnemonic) (s : Word) : Word := m.op ||| (s <<< 8)

/-- The value of a digit of a number, decimal or hexadecimal. -/
def digitValue (c : Char) : Option Nat :=
  let k := c.toNat
  if 48 ≤ k ∧ k ≤ 57 then some (k - 48)
  else if 65 ≤ k ∧ k ≤ 70 then some (k - 55)
  else if 97 ≤ k ∧ k ≤ 102 then some (k - 87)
  else none

/-- The number the digits spell in a base, after the digits read so far. -/
def readDigits (base : Nat) : List Char → Nat → Option Nat
  | [], acc => some acc
  | c :: cs, acc =>
    match digitValue c with
    | some d => if d < base then readDigits base cs (acc * base + d) else none
    | none => none

/-- A number of a program's text: decimal, or hexadecimal after `0x`, where `_` separates digits
(30_encoding.md R317). -/
def readNumber (text : List Char) : Option Nat :=
  match text with
  | [] => none
  | '0' :: 'x' :: digits =>
    match digits.filter (· ≠ '_') with
    | [] => none
    | ds => readDigits 16 ds 0
  | ds => readDigits 10 ds 0

/-- A line of a host program (30_encoding.md R317). -/
inductive HostOp where
  /-- `wr REG, v` -/
  | wr (r : Reg) (v : Word)
  /-- `rd REG` -/
  | rd (r : Reg)
  /-- `cmd MNEM` (s = 0) or `cmd MNEM s` -/
  | cmd (m : Mnemonic) (s : Word := 0)
  /-- `wait` -/
  | wait
  /-- `ldseq a, d, n` -/
  | ldseq (a d : Word) (n : Nat)
  /-- `ldval i, v0, v1, …` -/
  | ldval (i : Nat) (vs : List Word)
  /-- `expect REG, v` -/
  | expect (r : Reg) (v : Word)
deriving DecidableEq, Repr

/-- `wr VBUF[start + k], vs_k` for k = 0, 1, …. DESIGN CHOICE: VBUF has no entry past 127, and the spec
gives such a line no meaning; the model leaves those writes out (notes/assumptions/19.md). -/
def vbufWrites (start : Nat) (vs : List Word) : List HostMove :=
  (((List.finRange Config.vbufLen).drop start).zip vs).map fun p => .write (.vbuf p.1) p.2

/-- The bus transactions of a program line, in order (30_encoding.md R317). A `ldseq` or `ldval` line that
runs past VBUF[127] is cut there: the model's choice (notes/assumptions/19.md). -/
def HostOp.moves : HostOp → List HostMove
  | .wr r v => [.write r v]
  | .rd r => [.read r]
  | .cmd m s => [.write .cmd (enc m s), .await]
  | .wait => [.await]
  | .ldseq a d n =>
    vbufWrites 0 ((List.range (min n Config.vbufLen)).map fun i => a + BitVec.ofNat 64 i * d)
  | .ldval i vs => vbufWrites i vs
  | .expect r v => [.expect r v]

/-- `s` with a program given to the host, after the rest of the one it has
(notes/assumptions/6.md). -/
def State.withProgram (s : State) (ops : List HostOp) : State :=
  s.putProgram (s.host.program ++ ops.flatMap HostOp.moves)

/-- Every claim the host's program has made so far held (30_encoding.md R317, `expect`). -/
def claimsHold (s : State) : Bool := s.host.claims.all fun c => c.1 == .data c.2

end Sys2Proof.Machine
end

