-- ==== Sys2Proof/Safety.lean ====
section
/-! DEFINITION. The terms claims about the machine are stated in: entries of the buffers and slots of a
header by number, what counts as a safe run, and the invariants of the two contexts and the ports. -/

namespace Sys2Proof.Machine

/-- VBUF[i]; 0 past the buffer's end. -/
def vbufAt (s : State) (i : Nat) : Word := s.vbuf.toList.getD i 0

/-- PBUF[j]; 0 past the buffer's end. -/
def pbufAt (s : State) (j : Nat) : Word := s.pbuf.toList.getD j 0

/-- PAGEBUF[j]; 0 past the buffer's end. -/
def pageAt (w : Writer) (j : Nat) : Word := w.pageBuf.toList.getD j 0

/-- The number in header bits 7k+6..7k (30_encoding.md R309). -/
def slotValue (h : Word) (k : Nat) : Nat := h.toNat / 2 ^ (7 * k) % 128

/-- The sum of the numbers in header slots 0..k-1. -/
def widthSum (h : Word) (k : Nat) : Nat := ((List.range k).map (slotValue h)).sum

/-- The value `lo_E(v)` as a number. -/
def elemValue (ew : BitVec 2) (v : Word) : Nat := v.toNat % 2 ^ elemBits ew

/-- The event is no access, or an admitted one (20_memory.md R202). -/
def Event.admitted : Event → Bool
  | .access a => a.target.isSome
  | .host | .engine | .sinkReply _ | .sourceReply _ | .reset _ => true

/-- The host's program is safe: each of its accesses is admitted, so none gets a BUS_ERROR
(20_memory.md R202). -/
def State.safeSchedule (s : State) : Prop := ∀ e ∈ s.schedule, e.admitted = true

/-- The first k header slots hold widths of at most W_E, and W_LEN is their sum (10_state.md R128). -/
def Writer.holdsBlocks (w : Writer) (k : Nat) : Prop :=
  (∀ j < k, slotValue w.hdr j ≤ elemBits w.ew) ∧ w.len.toNat = widthSum w.hdr k

/-- The page being filled: at most 8 blocks, unused slots and the flag 0 (10_state.md R128). -/
def Writer.pageOpen (w : Writer) : Prop :=
  w.slot.toNat ≤ 8 ∧ w.holdsBlocks w.slot.toNat ∧
    (∀ j < 9, w.slot.toNat ≤ j → slotValue w.hdr j = 0) ∧ w.hdr.getLsbD 63 = false

/-- The full page being emitted: nine blocks and the full flag (44_writer.md R803). -/
def Writer.pageFull (w : Writer) : Prop :=
  w.slot = 9 ∧ w.holdsBlocks 9 ∧ w.hdr.getLsbD 63 = true

/-- The writer invariant (10_state.md R115, R128): W_LAST is an E-bit value; between commands and while the
reader waits, a FILLING writer's page is open; while a page is handed to the sink it is the page the
context describes. -/
def State.writerInv (s : State) : Prop :=
  s.writer.last.toNat < 2 ^ elemBits s.writer.ew ∧
    match s.phase with
    | .idle | .accepted | .sourceWait _ => s.writer.state = .filling → s.writer.pageOpen
    | .sinkWait (.wbatch n) bytes =>
      s.writer.state = .filling ∧ s.writer.pageFull ∧ n = slotValue s.writer.hdr 8 ∧
        bytes = serWords s.byteOrder (s.writer.hdr :: s.writer.blocks)
    | .sinkWait .wflush bytes =>
      s.writer.state = .filling ∧ s.writer.pageOpen ∧ s.count.toNat ≤ 63 ∧
        bytes = serWords s.byteOrder (terminalPage s s.count.toNat)

/-- The reader invariant (10_state.md R118, R120, R129): R_LAST is an E-bit value, R_SLOT is at most 9,
and a read in progress is the one the header and the slot cursor call for. -/
def State.readerInv (s : State) : Prop :=
  s.reader.last.toNat < 2 ^ elemBits s.reader.ew ∧ s.reader.slot.toNat ≤ 9 ∧
    match s.phase with
    | .idle | .accepted | .sinkWait _ _ => True
    | .sourceWait .header => s.reader.state = .active ∧ s.reader.slot = 9
    | .sourceWait (.tail r) =>
      s.reader.state = .active ∧ s.reader.slot.toNat ≤ 8 ∧ 0 < r ∧ r ≤ 127 ∧
        classify s.reader.hdr s.reader.slot.toNat = .terminal r
    | .sourceWait (.block n k) =>
      s.reader.state = .active ∧ s.reader.slot.toNat = k ∧ k ≤ 8 ∧ 0 < n ∧
        n ≤ elemBits s.reader.ew ∧ classify s.reader.hdr k = .block n

/-- The port invariant (20_memory.md R210, R213): the engine waits only for a port with no answer ready,
and a source that has answered EOF has no byte left. -/
def State.portInv (s : State) : Prop :=
  (s.source.ended = true → s.source.bytes = []) ∧
    match s.phase with
    | .idle | .accepted => True
    | .sinkWait _ _ => s.sink.replies = []
    | .sourceWait _ => s.source.replies = []

end Sys2Proof.Machine
end

