-- ==== Sys2Proof/Certificates/Slice0/Obligations.lean ====
section
/-! DEFINITION. The statements about the machine, for the provers. A buffer entry is named by its number
(`vbufAt`, `pbufAt`), a header slot by `slotValue`. An equation `t = { s with … }` is the statement's
frame: every field it does not name is as before. -/

open Sys2Proof Sys2Proof.Machine

/-! ### Encoding -/

/-- Every well-formed command's word decodes to it (30_encoding.md R300, R301). -/
def Obligations.DecodeEncodeRoundTrip : Prop :=
  ∀ i : Instr, i.wellFormed = true → decode (encode i) = .ok i

/-- A word that decodes is the word of the command it decodes to: decoding drops no bit
(30_encoding.md R300, R302). -/
def Obligations.DecodedWordIsItsEncoding : Prop :=
  ∀ (c : Word) (i : Instr), decode c = .ok i → i.wellFormed = true ∧ encode i = c

/-- The mask sentence of 30_encoding.md R301: a word selects a command's row exactly when
`CMD AND mask = match`. -/
def Obligations.RowSelectedByMaskAndMatch : Prop :=
  ∀ (c : Word) (i : Instr), i.wellFormed = true →
    ((∃ j, decode c = .ok j ∧ j.opcode = i.opcode) ↔ c &&& i.maskWord = i.matchWord)

/-- The illegal words are exactly those with an unassigned OP, a nonzero reserved bit, or a nonzero SLOT
with an opcode that does not use it (30_encoding.md R302). -/
def Obligations.IllegalWordsExactly : Prop :=
  ∀ c : Word,
    (∃ e, decode c = .error e) ↔
      (let op := c.toNat % 64
       let slot := c.toNat / 256 % 16
       c.toNat / 64 % 4 ≠ 0 ∨ c.toNat / 4096 ≠ 0
        ∨ (0x0D ≤ op ∧ op ≤ 0x0F) ∨ (0x13 ≤ op ∧ op ≤ 0x17) ∨ 0x1A ≤ op
        ∨ (slot ≠ 0 ∧ op ≠ 0x08 ∧ op ≠ 0x09 ∧ op ≠ 0x0B ∧ op ≠ 0x0C))

/-- Command words of the spec's own examples decode to their commands (95_test_vectors.md V7, V11,
P1 to P6). -/
def Obligations.SpecExampleWordsDecode : Prop :=
  decode 0x0000000000000000 = .ok .nop ∧ decode 0x0000000000000001 = .ok .xenc ∧
    decode 0x0000000000000003 = .ok .minw ∧ decode 0x0000000000000004 = .ok .pack ∧
    decode 0x0000000000000808 = .ok (.hset 8) ∧ decode 0x0000000000000109 = .ok (.hget 1) ∧
    decode 0x000000000000010B = .ok (.hpart 1) ∧ decode 0x0000000000000011 = .ok .wbatch ∧
    decode 0x0000000000000019 = .ok .rbatch

/-! ### Issue, completion and the host's accesses -/

/-- A step runs the decoded command: an accepted command, at the engine's turn, is exec of it (46_control.md
R1000, R1006). That the schedule says whose turn it is, is the model's choice (notes/assumptions/5.md). -/
def Obligations.StepRunsTheAcceptedCommand : Prop :=
  ∀ (s : State) (i : Instr), s.phase = .accepted → decode s.cmd = .ok i →
    (s.schedule = [] → step s = exec i s) ∧
    (∀ rest, s.schedule = .engine :: rest → step s = exec i { s with schedule := rest })

/-- The next step after withFetchWord runs the command whose word was placed. withFetchWord is the model's
(notes/assumptions/6.md). -/
def Obligations.StepRunsTheFetchedWord : Prop :=
  ∀ (s : State) (i : Instr), i.wellFormed = true →
    step (s.withFetchWord 64 (encode i).toNat) = exec i { s with cmd := encode i, phase := .accepted }

/-- The illegal command (46_control.md R1004): a command word c that no row selects, no row having `c AND mask =
match`, completes with RESULT = ILLEGAL_CMD; CMD keeps c and nothing else changes. That the engine's turn comes
from the schedule is the model's choice (notes/assumptions/5.md). -/
def Obligations.IllegalCommandOnlySetsResult : Prop :=
  ∀ s : State, s.phase = .accepted → (∀ i : Instr, s.cmd &&& i.maskWord ≠ i.matchWord) →
    (s.schedule = [] → step s = .next { s with result := .illegalCmd, phase := .idle }) ∧
    (∀ rest, s.schedule = .engine :: rest →
      step s = .next { s with result := .illegalCmd, phase := .idle, schedule := rest })

/-- A host write to CMD while BUSY = 0 issues the command (46_control.md R1000). That the write is an event of
the schedule is the model's choice (notes/assumptions/5.md). -/
def Obligations.CmdWriteIssuesCommand : Prop :=
  ∀ (s : State) (c : Word) (rest : List Event), s.busy = false →
    s.schedule = .access (.write 64 0x000 c) :: rest →
    step s = .next { s with cmd := c, phase := .accepted, schedule := rest, bus := .written }

/-- Host accesses while BUSY = 1, their data one Word or byte lanes (46_control.md R1002; 20_memory.md R206):
a write of a register other than STATUS is dropped and sets OVR, a write of STATUS clears OVR by bit 8, a read
of STATUS returns STATUS, and a read of another register returns the model's free value
(notes/assumptions/9.md) and changes nothing of the block. A host program's wait reads STATUS and is over
only when it finds BUSY = 0 (30_encoding.md R317; notes/assumptions/6.md). -/
def Obligations.AccessesWhileBusy : Prop :=
  (∀ (s : State) (a : Access) (r : Reg) (rest : List Event), s.busy = true → a.target = some r →
    s.schedule = .access a :: rest →
    let wrote := fun v : Word => step s = .next
      { s with
        schedule := rest
        bus := .written
        ovr := if r = .status then s.ovr && !v.getLsbD 8 else true }
    let answered := fun reply : Word → BusReply =>
      (r = .status → step s = .next { s with schedule := rest, bus := reply (statusWord s) }) ∧
      (r ≠ .status → ∃ v, step s =
        .next { s with schedule := rest, bus := reply v, freeReads := s.freeReads + 1 })
    match a with
    | .write _ _ v => wrote v
    | .writeLanes _ b => wrote (deser s.byteOrder b)
    | .read _ _ => answered .data
    | .readLanes _ _ => answered fun v => .lanes (ser s.byteOrder v)) ∧
  ∀ (s : State) (p : List HostMove) (rest : List Event),
    s.host.program = .await :: p → s.schedule = .host :: rest →
    step s = .next
      { s with
        schedule := rest
        bus := .data (statusWord s)
        host := { s.host with program := if s.busy then .await :: p else p } }

/-- An access gets a BUS_ERROR, the fault, exactly when it is not a 64-bit access (8 byte lanes where the bus
presents lanes) at the offset of a register of the map (20_memory.md R202, R206). That it stops the run as a
fault is read from the spec (notes/assumptions/12.md); the schedule is the model's (5.md). -/
def Obligations.BusErrorExactlyWhenNotAdmitted : Prop :=
  ∀ (s : State) (rest : List Event) (n : Nat) (off : BitVec 12),
    let mapped := ∃ r : Reg, off.toNat = r.byteOffset
    (s.schedule = .access (.read n off) :: rest → (step s = .fault .busError ↔ ¬(n = 64 ∧ mapped))) ∧
    (∀ v, s.schedule = .access (.write n off v) :: rest →
      (step s = .fault .busError ↔ ¬(n = 64 ∧ mapped))) ∧
    (s.schedule = .access (.readLanes n off) :: rest →
      (step s = .fault .busError ↔ ¬(n = 8 ∧ mapped))) ∧
    (∀ b, s.schedule = .access (.writeLanes off b) :: rest →
      (step s = .fault .busError ↔ ¬(b.length = 8 ∧ mapped)))

/-- STATUS and CFG as the host reads and writes them (10_state.md R102, R103), with the codes of RESULT and
of the element widths (30_encoding.md R304, R305): STATUS shows BUSY, RESULT and OVR, its other bits read 0
and a write clears OVR by bit 8; CFG stores EW and SX, its other bits read 0. -/
def Obligations.StatusAndCfgRegisterFields : Prop :=
  [ResultCode.ok, .tail, .endOfData, .truncated, .invalidWidth, .ioError, .illegalCmd, .badArg,
      .badState].map ResultCode.code = [0, 1, 2, 3, 4, 5, 6, 7, 8] ∧
  [0, 1, 2, 3].map elemBits = [64, 32, 16, 8] ∧
  ∀ s : State,
    (readReg s .status).getLsbD 0 = s.busy ∧
    (readReg s .status).extractLsb' 4 4 = s.result.code ∧
    (readReg s .status).getLsbD 8 = s.ovr ∧
    (∀ k, (1 ≤ k ∧ k ≤ 3) ∨ 9 ≤ k → (readReg s .status).getLsbD k = false) ∧
    (readReg s .cfg).extractLsb' 0 2 = s.cfgEW ∧ (readReg s .cfg).getLsbD 2 = s.cfgSX ∧
    (∀ k, 3 ≤ k → (readReg s .cfg).getLsbD k = false) ∧
    (∀ v, hostWrite .status v s =
      { s with ovr := s.ovr && !v.getLsbD 8, bus := .written }) ∧
    (∀ v, s.busy = false →
      readReg (hostWrite .cfg v s) .cfg = v &&& (7 : Word) ∧
      hostWrite .cfg v s =
        { s with cfgEW := v.extractLsb' 0 2, cfgSX := v.getLsbD 2, bus := .written })

/-- The read-only context views: their fields, the codes of the context states, their other bits 0, and a
host write of one ignored (10_state.md R122 to R127; 30_encoding.md R306). -/
def Obligations.ContextViewFields : Prop :=
  [WriterState.filling, .closed, .broken].map WriterState.code = [0, 1, 2] ∧
  [ReaderState.active, .done, .failed].map ReaderState.code = [0, 1, 2] ∧
  ∀ s : State,
    (let w := readReg s .wstat
     w.extractLsb' 0 2 = s.writer.state.code ∧ w.extractLsb' 4 4 = s.writer.slot ∧
      w.extractLsb' 16 10 = s.writer.len ∧ w.extractLsb' 28 2 = s.writer.ew ∧
      w &&& ~~~(0x33FF00F3 : Word) = 0) ∧
    readReg s .wlast = s.writer.last ∧ readReg s .whdr = s.writer.hdr ∧
    (let r := readReg s .rstat
     r.extractLsb' 0 2 = s.reader.state.code ∧ r.extractLsb' 4 4 = s.reader.slot ∧
      r.extractLsb' 28 2 = s.reader.ew ∧ r.getLsbD 30 = s.reader.sx ∧
      r &&& ~~~(0x700000F3 : Word) = 0) ∧
    readReg s .rlast = s.reader.last ∧ readReg s .rhdr = s.reader.hdr ∧
    (∀ (q : Reg) (v : Word), q ∈ [Reg.wstat, .wlast, .whdr, .rstat, .rlast, .rhdr] →
      s.busy = false → hostWrite q v s = { s with bus := .written }) ∧
    readReg State.reset .wstat = 0 ∧ readReg State.reset .wlast = 0 ∧
    readReg State.reset .whdr = 0 ∧ readReg State.reset .rstat = 0x90 ∧
    readReg State.reset .rlast = 0 ∧ readReg State.reset .rhdr = 0

/-- The map, and idle writes through it (20_memory.md R201, R204, R205): every register's offset; a write at a
register's offset is the write of that register; one that only stores its value is read back whole, changes
what no other register reads, and nothing else of the block. The schedule and the bus's answer are the
model's own fields (notes/assumptions/5.md). -/
def Obligations.RegisterReadsBackItsWrite : Prop :=
  [Reg.cmd, .status, .cfg, .offset, .width, .count, .hdr, .initOffset, .wstat, .wlast, .whdr, .rstat,
      .rlast, .rhdr].map Reg.byteOffset =
    [0x000, 0x008, 0x010, 0x018, 0x020, 0x028, 0x030, 0x038, 0x040, 0x048, 0x050, 0x058, 0x060, 0x068] ∧
  (∀ i, (Reg.vbuf i).byteOffset = 0x400 + 8 * i.val) ∧
  (∀ j, (Reg.pbuf j).byteOffset = 0x800 + 8 * j.val) ∧
  ∀ (s : State) (r : Reg) (v : Word), s.busy = false →
    (∀ (off : BitVec 12) (rest : List Event), off.toNat = r.byteOffset →
      s.schedule = .access (.write 64 off v) :: rest →
      step s = .next (hostWrite r v { s with schedule := rest })) ∧
    (r ∉ [Reg.cmd, .status, .cfg, .wstat, .wlast, .whdr, .rstat, .rlast, .rhdr] →
      let t := hostWrite r v s
      readReg t r = v ∧ (∀ q, q ≠ r → readReg t q = readReg s q) ∧
      t = { s with
            offset := t.offset, width := t.width, count := t.count, hdr := t.hdr
            initOffset := t.initOffset, vbuf := t.vbuf, pbuf := t.pbuf, bus := .written })

/-- No host read changes a register, a buffer, a context or a port, and an idle read at a register's offset
returns that register (20_memory.md R201, R204, R205; 10_state.md R101, R104 to R110), as one Word or as byte
lanes (20_memory.md R206). The schedule, the bus's answer and the free-value counter are the model's own
fields (notes/assumptions/5.md, 9.md). -/
def Obligations.HostReadHasNoSideEffect : Prop :=
  (∀ (s t : State) (n : Nat) (off : BitVec 12) (rest : List Event),
    s.schedule = .access (.read n off) :: rest ∨ s.schedule = .access (.readLanes n off) :: rest →
    step s = .next t → t = { s with schedule := rest, bus := t.bus, freeReads := t.freeReads }) ∧
  (∀ (s : State) (r : Reg) (off : BitVec 12) (rest : List Event),
    s.busy = false → off.toNat = r.byteOffset →
    (s.schedule = .access (.read 64 off) :: rest →
      step s = .next { s with schedule := rest, bus := .data (readReg s r) }) ∧
    (s.schedule = .access (.readLanes 8 off) :: rest →
      step s = .next { s with schedule := rest, bus := .lanes (ser s.byteOrder (readReg s r)) })) ∧
  ∀ s : State,
    readReg s .cmd = s.cmd ∧ readReg s .offset = s.offset ∧ readReg s .width = s.width ∧
      readReg s .count = s.count ∧ readReg s .hdr = s.hdr ∧ readReg s .initOffset = s.initOffset ∧
      (∀ i, readReg s (.vbuf i) = vbufAt s i.val) ∧ (∀ j, readReg s (.pbuf j) = pbufAt s j.val)

/-! ### Reset -/

/-- The values State.reset holds where 70_reset_and_hazards.md R1201 states one (VBUF, PBUF and PAGEBUF,
which it leaves unspecified, are not claimed), and R1202: the contexts are those a WINIT and a RINIT leave
with CFG = 0 and INIT_OFFSET = 0. -/
def Obligations.ResetStateValues : Prop :=
  let s := State.reset
  s.cmd = 0 ∧ s.busy = false ∧ s.result = .ok ∧ s.ovr = false ∧ s.cfgEW = 0 ∧ s.cfgSX = false ∧
    s.offset = 0 ∧ s.width = 0 ∧ s.count = 0 ∧ s.hdr = 0 ∧ s.initOffset = 0 ∧
    s.writer.state = .filling ∧ s.writer.slot = 0 ∧ s.writer.len = 0 ∧ s.writer.hdr = 0 ∧
    s.writer.last = 0 ∧ s.writer.ew = 0 ∧
    s.reader.state = .active ∧ s.reader.slot = 9 ∧ s.reader.hdr = 0 ∧ s.reader.last = 0 ∧
    s.reader.ew = 0 ∧ s.reader.sx = false ∧
    exec .winit s = .next s ∧ exec .rinit s = .next s

/-- Asserting reset at any time gives every register, buffer and both contexts their reset values in one
step and leaves the block idle; the source keeps its bytes and the sink its own, with at most a prefix of a
page it had not answered (70_reset_and_hazards.md R1200). That VBUF, PBUF and PAGEBUF take the values of
State.reset is the model's choice (notes/assumptions/1.md, 2.md), and so are which fields of the agents and
the model a reset keeps and that assertion and deassertion are one move (10.md). -/
def Obligations.ResetEventResetsTheBlock : Prop :=
  ∀ (s : State) (held : Nat) (rest : List Event), s.schedule = .reset held :: rest →
    ∃ extra : List Byte,
      step s = .next
        { State.reset with
          byteOrder := s.byteOrder
          sink := { s.sink with accepted := s.sink.accepted ++ extra }
          source := s.source
          host := s.host
          schedule := rest
          freeReads := s.freeReads } ∧
      (match s.phase with
        | .sinkWait _ bytes => extra <+: bytes
        | .idle | .accepted | .sourceWait _ => extra = [])

/-! ### Command control and transform -/

/-- NOP (46_control.md R1003) is the word 0, and 0x100 is no NOP but illegal; it writes RESULT = OK and
nothing else, and does not change OVR. -/
def Obligations.NopOnlySetsResult : Prop :=
  encode .nop = 0x0000000000000000 ∧ (∀ i, decode 0x0000000000000100 ≠ .ok i) ∧
  ∀ s : State, exec .nop s = .next { s with result := .ok, phase := .idle }

/-- The zig-zag map (40_transform.md R400): the source's formula with the sign-copying shift, and by
value, non-negative d to 2d, negative d to 2|d| - 1. -/
def Obligations.ZigzagByValue : Prop :=
  ∀ (E : Nat) (d : BitVec E), 0 < E →
    zigzag d = d.sshiftRight (E - 1) ^^^ (d <<< 1) ∧
    (0 ≤ d.toInt → (zigzag d).toNat = 2 * d.toInt.natAbs) ∧
    (d.toInt < 0 → (zigzag d).toNat = 2 * d.toInt.natAbs - 1)

/-- The two zig-zag maps are inverse bijections (40_transform.md R402). -/
def Obligations.ZigzagMapsAreInverse : Prop :=
  ∀ (E : Nat) (x : BitVec E), unzigzag (zigzag x) = x ∧ zigzag (unzigzag x) = x

/-- Decoding undoes encoding for every width, batch and offset, wrapping deltas among them
(40_transform.md R405). -/
def Obligations.DeltaRoundTrip : Prop :=
  ∀ (E : Nat) (off : BitVec E) (v : List (BitVec E)),
    decodeDeltas off (encodeDeltas off v) = v

/-- XENC (40_transform.md R407): every lane becomes the zig-zag value of previous minus current, all
lanes read before any is written, zero-extended; VBUF[64..127] and everything else is kept. -/
def Obligations.XencEncodesTheBatch : Prop :=
  encode .xenc = 0x0000000000000001 ∧
  ∀ s : State, ∃ t, exec .xenc s = .next t ∧
    t = { s with vbuf := t.vbuf, result := .ok, phase := .idle } ∧
    (∀ i < 64, vbufAt t i =
      zext64 (zigzag
        (lowElem s.cfgEW (if i = 0 then s.offset else vbufAt s (i - 1))
          - lowElem s.cfgEW (vbufAt s i)))) ∧
    (∀ i, 64 ≤ i → vbufAt t i = vbufAt s i)

/-- XDEC (40_transform.md R408): every lane becomes the previous result minus the delta its zig-zag value
stands for, extended by SX; VBUF[64..127] and everything else is kept. -/
def Obligations.XdecDecodesTheBatch : Prop :=
  encode .xdec = 0x0000000000000002 ∧
  ∀ s : State, ∃ t, exec .xdec s = .next t ∧
    t = { s with vbuf := t.vbuf, result := .ok, phase := .idle } ∧
    (∀ i < 64, vbufAt t i =
      extend64 s.cfgSX
        (lowElem s.cfgEW (if i = 0 then s.offset else vbufAt t (i - 1))
          - unzigzag (lowElem s.cfgEW (vbufAt s i)))) ∧
    (∀ i, 64 ≤ i → vbufAt t i = vbufAt s i)

/-! ### Bit packer -/

/-- PACK (41_packer.md R505): INVALID_WIDTH and nothing written for WIDTH above 64; else bit b of value i
is stream position p = i·N + (N − 1 − b), bit 63 − (p mod 64) of Word p div 64 (30_encoding.md R307), and
PBUF[N..63] and everything else is kept. -/
def Obligations.PackPlacesEveryBit : Prop :=
  encode .pack = 0x0000000000000004 ∧
  ∀ s : State,
    (64 < s.width.toNat →
      exec .pack s = .next { s with result := .invalidWidth, phase := .idle }) ∧
    (s.width.toNat ≤ 64 → ∃ t, exec .pack s = .next t ∧
      t = { s with pbuf := t.pbuf, result := .ok, phase := .idle } ∧
      (∀ i b, i < 64 → b < s.width.toNat →
        let p := i * s.width.toNat + (s.width.toNat - 1 - b)
        (pbufAt t (p / 64)).getLsbD (63 - p % 64) = (vbufAt s i).getLsbD b) ∧
      (∀ j, s.width.toNat ≤ j → pbufAt t j = pbufAt s j))

/-- UNPACK (41_packer.md R506): INVALID_WIDTH and nothing written for WIDTH above 64; else value i is the N
bits at stream positions i·N .. i·N+N−1 of PBUF[0..N−1], zero-extended, and VBUF[64..127] and everything
else is kept. -/
def Obligations.UnpackReadsEveryBit : Prop :=
  encode .unpack = 0x0000000000000005 ∧
  ∀ s : State,
    (64 < s.width.toNat →
      exec .unpack s = .next { s with result := .invalidWidth, phase := .idle }) ∧
    (s.width.toNat ≤ 64 → ∃ t, exec .unpack s = .next t ∧
      t = { s with vbuf := t.vbuf, result := .ok, phase := .idle } ∧
      (∀ i b, i < 64 → b < s.width.toNat →
        let p := i * s.width.toNat + (s.width.toNat - 1 - b)
        (vbufAt t i).getLsbD b = (pbufAt s (p / 64)).getLsbD (63 - p % 64)) ∧
      (∀ i b, i < 64 → s.width.toNat ≤ b → (vbufAt t i).getLsbD b = false) ∧
      (∀ i, 64 ≤ i → vbufAt t i = vbufAt s i))

/-- The packer's round-trip laws on the machine (41_packer.md R504): UNPACK after PACK gives each value's
low N bits, PACK after UNPACK gives the N Words back. -/
def Obligations.PackUnpackRoundTrips : Prop :=
  ∀ s : State, s.width.toNat ≤ 64 →
    (∃ t u, exec .pack s = .next t ∧ exec .unpack t = .next u ∧
      ∀ i < 64, (vbufAt u i).toNat = (vbufAt s i).toNat % 2 ^ s.width.toNat) ∧
    (∃ t u, exec .unpack s = .next t ∧ exec .pack t = .next u ∧ u.pbuf = s.pbuf)

/-! ### Width selector and batch codec -/

/-- MINW (42_width_codec.md R604): WIDTH is the least width, at most E, in which every element fits;
everything else is kept. -/
def Obligations.MinwSelectsTheLeastWidth : Prop :=
  encode .minw = 0x0000000000000003 ∧
  ∀ s : State, ∃ t, exec .minw s = .next t ∧
    t = { s with width := t.width, result := .ok, phase := .idle } ∧
    t.width.toNat ≤ elemBits s.cfgEW ∧
    (∀ i < 64, elemValue s.cfgEW (vbufAt s i) < 2 ^ t.width.toNat) ∧
    (∀ m, (∀ i < 64, elemValue s.cfgEW (vbufAt s i) < 2 ^ m) → t.width.toNat ≤ m)

/-- BENC is Transform, Width Selector, Pack (42_width_codec.md R602, R605): it leaves the WIDTH and the
PBUF that XENC, MINW and PACK leave one after the other, and keeps VBUF and everything else. -/
def Obligations.BencIsXencMinwPack : Prop :=
  encode .benc = 0x0000000000000006 ∧
  ∀ s : State, ∃ a b c, exec .xenc s = .next a ∧ exec .minw a = .next b ∧ exec .pack b = .next c ∧
    exec .benc s =
      .next { s with width := c.width, pbuf := c.pbuf, result := .ok, phase := .idle }

/-- BDEC (42_width_codec.md R603, R606): INVALID_WIDTH and nothing written for WIDTH above E; else it is
UNPACK followed by XDEC. -/
def Obligations.BdecIsUnpackXdec : Prop :=
  encode .bdec = 0x0000000000000007 ∧
  ∀ s : State,
    (elemBits s.cfgEW < s.width.toNat →
      exec .bdec s = .next { s with result := .invalidWidth, phase := .idle }) ∧
    (s.width.toNat ≤ elemBits s.cfgEW →
      ∃ a b, exec .unpack s = .next a ∧ exec .xdec a = .next b ∧ exec .bdec s = .next b)

/-- The batch codec's round trip (42_width_codec.md R607): BDEC after BENC, whatever VBUF holds in
between, gives every element back, extended by SX, for every element width, batch and offset. -/
def Obligations.BatchCodecRoundTrip : Prop :=
  ∀ s : State, ∃ t, exec .benc s = .next t ∧
    ∀ v, ∃ u, exec .bdec { t with vbuf := v } = .next u ∧ u.result = .ok ∧
      ∀ i < 64, vbufAt u i = extend64 s.cfgSX (lowElem s.cfgEW (vbufAt s i))

/-- The source's own vectors (42_width_codec.md R607), for every element width and offset: a batch of
copies of the offset encodes to no Word, one that counts up from the offset to one Word of ones, one that
counts down to two Words 0xAAAA…. -/
def Obligations.SteadyBatchesEncodeAsStated : Prop :=
  ∀ (s t : State), exec .benc s = .next t →
    ((∀ i < 64, lowElem s.cfgEW (vbufAt s i) = lowElem s.cfgEW s.offset) →
      t.width = 0 ∧ t.pbuf = s.pbuf) ∧
    ((∀ i < 64, lowElem s.cfgEW (vbufAt s i)
        = lowElem s.cfgEW s.offset + BitVec.ofNat (elemBits s.cfgEW) (i + 1)) →
      t.width = 1 ∧ pbufAt t 0 = 0xFFFFFFFFFFFFFFFF) ∧
    ((∀ i < 64, lowElem s.cfgEW (vbufAt s i)
        = lowElem s.cfgEW s.offset - BitVec.ofNat (elemBits s.cfgEW) (i + 1)) →
      t.width = 2 ∧ pbufAt t 0 = 0xAAAAAAAAAAAAAAAA ∧ pbufAt t 1 = 0xAAAAAAAAAAAAAAAA)

/-! ### Page header -/

/-- HSET (43_header.md R700, R701): BAD_ARG for a slot above 8 or WIDTH above 127; else that slot holds
WIDTH and the other slots, bit 63 and everything else are kept. -/
def Obligations.HsetWritesOneSlot : Prop :=
  (∀ slot < 16, encode (.hset slot) = BitVec.ofNat 64 (0x08 + slot * 256)) ∧
  ∀ (s : State) (slot : Nat),
    (8 < slot ∨ 127 < s.width.toNat →
      exec (.hset slot) s = .next { s with result := .badArg, phase := .idle }) ∧
    (slot ≤ 8 → s.width.toNat ≤ 127 → ∃ t, exec (.hset slot) s = .next t ∧
      t = { s with hdr := t.hdr, result := .ok, phase := .idle } ∧
      (∀ k ≤ 8, slotValue t.hdr k = if k = slot then s.width.toNat else slotValue s.hdr k) ∧
      t.hdr.getLsbD 63 = s.hdr.getLsbD 63)

/-- HGET (43_header.md R700, R702): BAD_ARG for a slot above 8; else WIDTH is the slot's 7 bits. -/
def Obligations.HgetReadsOneSlot : Prop :=
  (∀ slot < 16, encode (.hget slot) = BitVec.ofNat 64 (0x09 + slot * 256)) ∧
  ∀ (s : State) (slot : Nat),
    (8 < slot → exec (.hget slot) s = .next { s with result := .badArg, phase := .idle }) ∧
    (slot ≤ 8 → exec (.hget slot) s = .next
      { s with width := BitVec.ofNat 64 (slotValue s.hdr slot), result := .ok, phase := .idle })

/-- HFULL (43_header.md R703): bit 63 of HDR is set, its other bits and everything else are kept. -/
def Obligations.HfullSetsTheFlag : Prop :=
  encode .hfull = 0x000000000000000A ∧
  ∀ s : State, ∃ t, exec .hfull s = .next t ∧
    t = { s with hdr := t.hdr, result := .ok, phase := .idle } ∧
    t.hdr.getLsbD 63 = true ∧ ∀ k < 63, t.hdr.getLsbD k = s.hdr.getLsbD k

/-- HPART (43_header.md R700, R704, R705): BAD_ARG for a slot above 8 or COUNT above 255; else slots below
the given one are kept, those from it to 7 hold the sentinel 127, bits 63:56 hold COUNT, and everything
else is kept. -/
def Obligations.HpartFinishesTheHeader : Prop :=
  (∀ slot < 16, encode (.hpart slot) = BitVec.ofNat 64 (0x0B + slot * 256)) ∧
  ∀ (s : State) (slot : Nat),
    (8 < slot ∨ 255 < s.count.toNat →
      exec (.hpart slot) s = .next { s with result := .badArg, phase := .idle }) ∧
    (slot ≤ 8 → s.count.toNat ≤ 255 → ∃ t, exec (.hpart slot) s = .next t ∧
      t = { s with hdr := t.hdr, result := .ok, phase := .idle } ∧
      (∀ k < slot, k ≤ 7 → slotValue t.hdr k = slotValue s.hdr k) ∧
      (∀ k, slot ≤ k → k ≤ 7 → slotValue t.hdr k = 127) ∧
      t.hdr.toNat / 2 ^ 56 = s.count.toNat)

/-- HCLASS (43_header.md R700, R706, R707): BAD_ARG for a slot above 8; with the flag clear, slot 8 or a
slot holding 127 is terminal (TAIL, COUNT is bits 63:56); else a slot of at most 64 is a block (OK, WIDTH);
else INVALID_WIDTH and nothing written. -/
def Obligations.HclassClassifiesTheSlot : Prop :=
  (∀ slot < 16, encode (.hclass slot) = BitVec.ofNat 64 (0x0C + slot * 256)) ∧
  ∀ (s : State) (slot : Nat),
    exec (.hclass slot) s = .next
      (if 8 < slot then { s with result := .badArg, phase := .idle }
       else if s.hdr.getLsbD 63 = false ∧ (slot = 8 ∨ slotValue s.hdr slot = 127) then
        { s with
          count := BitVec.ofNat 64 (s.hdr.toNat / 2 ^ 56), result := .tail, phase := .idle }
       else if slotValue s.hdr slot ≤ 64 then
        { s with
          width := BitVec.ofNat 64 (slotValue s.hdr slot), result := .ok, phase := .idle }
       else { s with result := .invalidWidth, phase := .idle })

/-! ### Page Writer -/

/-- WINIT (44_writer.md R801): in every writer state, the writer is FILLING with an empty page, its width
and initial offset latched; nothing reaches the sink and nothing else changes. -/
def Obligations.WinitStartsTheWriter : Prop :=
  encode .winit = 0x0000000000000010 ∧
  ∀ s : State, exec .winit s = .next
    { s with
      writer :=
        { state := .filling, slot := 0, len := 0, pageBuf := s.writer.pageBuf, hdr := 0,
          last := BitVec.ofNat 64 (elemValue s.cfgEW s.initOffset), ew := s.cfgEW }
      result := .ok
      phase := .idle }

/-- What WBATCH and WFLUSH refuse, and the flush with nothing to emit (44_writer.md R800, R802, R804):
BAD_STATE in CLOSED and BROKEN, BAD_ARG for COUNT above 63 with no change, and a no-op flush closes the
writer without a page. -/
def Obligations.WriterChecksAndEmptyFlush : Prop :=
  ∀ s : State,
    (s.writer.state ≠ .filling →
      exec .wbatch s = .next { s with result := .badState, phase := .idle } ∧
      exec .wflush s = .next { s with result := .badState, phase := .idle }) ∧
    (s.writer.state = .filling → 63 < s.count.toNat →
      exec .wflush s = .next { s with result := .badArg, phase := .idle }) ∧
    (s.writer.state = .filling → s.count = 0 → s.writer.slot = 0 →
      exec .wflush s = .next
        { s with writer := { s.writer with state := .closed }, result := .ok, phase := .idle })

/-- WBATCH below the ninth slot (44_writer.md R802): the block BENC makes of the batch against W_LAST is
appended to the page, its width recorded in the slot, the cursor advanced, W_LAST is the batch's last
element, WIDTH the width; the sink gets nothing and everything else is kept. -/
def Obligations.WbatchAppendsTheBlock : Prop :=
  ∀ s : State, s.writer.state = .filling → s.writer.slot.toNat < 8 → s.writer.len.toNat ≤ 512 →
    ∃ b t, exec .benc { s with cfgEW := s.writer.ew, offset := s.writer.last } = .next b ∧
      exec .wbatch s = .next t ∧
      t = { s with
            writer :=
              { s.writer with
                slot := t.writer.slot, len := t.writer.len, hdr := t.writer.hdr,
                pageBuf := t.writer.pageBuf, last := t.writer.last }
            width := b.width
            result := .ok
            phase := .idle } ∧
      t.writer.slot.toNat = s.writer.slot.toNat + 1 ∧
      t.writer.len.toNat = s.writer.len.toNat + b.width.toNat ∧
      t.writer.last.toNat = elemValue s.writer.ew (vbufAt s 63) ∧
      (∀ k ≤ 8, slotValue t.writer.hdr k =
        if k = s.writer.slot.toNat then b.width.toNat else slotValue s.writer.hdr k) ∧
      t.writer.hdr.getLsbD 63 = s.writer.hdr.getLsbD 63 ∧
      (∀ j, pageAt t.writer j =
        if s.writer.len.toNat ≤ j ∧ j < s.writer.len.toNat + b.width.toNat
        then pbufAt b (j - s.writer.len.toNat) else pageAt s.writer j)

/-- WBATCH at the ninth slot, the sink accepting (44_writer.md R802, R803): the page the sink gets is the header
with the full flag and the nine widths, then the page's Words, then the new block; the page buffer is emptied,
W_LAST is the batch's last element, WIDTH the width; everything else is kept. That an answer can stand ready at
the sink is the model's choice (notes/assumptions/7.md, 13.md). -/
def Obligations.WbatchEmitsTheFullPage : Prop :=
  ∀ (s : State) (r : SinkReply) (more : List SinkReply),
    s.writer.state = .filling → s.writer.slot = 8 → s.writer.len.toNat ≤ 512 →
    s.sink.replies = r :: more → r.err = false →
    ∃ b, exec .benc { s with cfgEW := s.writer.ew, offset := s.writer.last } = .next b ∧
    (8 * (1 + s.writer.len.toNat + b.width.toNat) ≤ r.accepted →
      ∃ t h, exec .wbatch s = .next t ∧
      t = { s with
            writer :=
              { s.writer with
                slot := 0, len := 0, hdr := 0,
                pageBuf := t.writer.pageBuf, last := t.writer.last }
            width := b.width
            sink :=
              { accepted := s.sink.accepted ++ serWords s.byteOrder
                  (h :: ((List.range s.writer.len.toNat).map (pageAt s.writer)
                    ++ (List.range b.width.toNat).map (pbufAt b)))
                replies := more }
            result := .ok
            phase := .idle } ∧
      t.writer.last.toNat = elemValue s.writer.ew (vbufAt s 63) ∧
      (∀ k < 8, slotValue h k = slotValue s.writer.hdr k) ∧ slotValue h 8 = b.width.toNat ∧
      h.getLsbD 63 = true)

/-- WFLUSH with something to emit, the sink accepting (44_writer.md R804): the page the sink gets is the
finished header, the page's Words, then the COUNT raw elements; the writer is CLOSED with an empty page and
everything else is kept. That an answer can stand ready at the sink is the model's choice
(notes/assumptions/7.md, 13.md). -/
def Obligations.WflushEmitsTheTerminalPage : Prop :=
  ∀ (s : State) (r : SinkReply) (more : List SinkReply),
    s.writer.state = .filling → s.writer.slot.toNat ≤ 8 → s.writer.len.toNat ≤ 512 →
    s.count.toNat ≤ 63 → ¬(s.writer.slot = 0 ∧ s.count = 0) →
    s.sink.replies = r :: more → r.err = false →
    8 * (1 + s.writer.len.toNat + s.count.toNat) ≤ r.accepted →
    ∃ h, exec .wflush s = .next
        { s with
          writer := { s.writer with state := .closed, slot := 0, len := 0, hdr := 0 }
          sink :=
            { accepted := s.sink.accepted ++ serWords s.byteOrder
                (h :: ((List.range s.writer.len.toNat).map (pageAt s.writer)
                  ++ (List.range s.count.toNat).map fun i =>
                    BitVec.ofNat 64 (elemValue s.writer.ew (vbufAt s i))))
              replies := more }
          result := .ok
          phase := .idle } ∧
      (∀ k < s.writer.slot.toNat, k ≤ 7 → slotValue h k = slotValue s.writer.hdr k) ∧
      (∀ k, s.writer.slot.toNat ≤ k → k ≤ 7 → slotValue h k = 127) ∧
      h.toNat / 2 ^ 56 = s.count.toNat

/-- A sink failure (20_memory.md R209; 44_writer.md R803, R804): when the sink answers a handed page with an
error or with fewer bytes, the command ends with IO_ERROR, the writer is BROKEN, the sink holds a prefix of the
page, and every host output is as before. The answer's form and its event are the model's choice
(notes/assumptions/5.md, 7.md). -/
def Obligations.SinkFailureBreaksTheWriter : Prop :=
  ∀ (s : State) (call : SinkCall) (bytes : List Byte) (r : SinkReply) (rest : List Event),
    s.phase = .sinkWait call bytes → s.schedule = .sinkReply r :: rest →
    (r.err = true ∨ r.accepted < bytes.length) →
    ∃ part, part <+: bytes ∧
      step s = .next
        { s with
          writer := { s.writer with state := .broken }
          sink := { s.sink with accepted := s.sink.accepted ++ part }
          result := .ioError
          phase := .idle
          schedule := rest }

/-! ### Page Reader -/

/-- RINIT (45_reader.md R901): in every reader state, the reader is ACTIVE with no header loaded, its width,
extension and initial offset latched; the source and everything else are kept. -/
def Obligations.RinitStartsTheReader : Prop :=
  encode .rinit = 0x0000000000000018 ∧
  ∀ s : State, exec .rinit s = .next
    { s with
      reader :=
        { state := .active, slot := 9, hdr := 0,
          last := BitVec.ofNat 64 (elemValue s.cfgEW s.initOffset), ew := s.cfgEW, sx := s.cfgSX }
      result := .ok
      phase := .idle }

/-- The source's answers (20_memory.md R210): EOF is sticky and gives no byte, a delivery gives all the bytes
asked for or, when the stream is shorter, EOF with the rest, and the bytes given are consumed. The source as
plain data is the model's choice (notes/assumptions/8.md). -/
def Obligations.SourceAnswersAsAgreed : Prop :=
  ∀ (k : Source) (n : Nat) (r : SourceReply),
    (k.ended = true → k.answer n r = (.eof [], k)) ∧
    (k.ended = false → n ≤ k.bytes.length →
      ∃ b left, k.bytes = b ++ left ∧ b.length = n ∧
        k.answer n .deliver = (.ok b, { k with bytes := left })) ∧
    (k.ended = false → k.bytes.length < n →
      k.answer n .deliver = (.eof k.bytes, { k with bytes := [], ended := true })) ∧
    (k.ended = false → ∀ lost, (k.answer n (.fail lost)).1 = .err)

/-- RBATCH with no header loaded (45_reader.md R903): a source error is IO_ERROR and FAILED, no byte (the stream
at its end, or ended before) is END and DONE, 1 to 7 bytes are TRUNCATED and FAILED, and with 8 bytes the
command goes on as with that Word loaded as the header at slot 0. Host outputs are kept in the first three. That
an answer stands ready at the source, and what a failing one consumes, are the model's choice
(notes/assumptions/8.md, 13.md). -/
def Obligations.RbatchLoadsTheHeader : Prop :=
  ∀ (s : State) (r : SourceReply) (more : List SourceReply),
    s.reader.state = .active → s.reader.slot = 9 → s.source.replies = r :: more →
    (s.source.ended = true → exec .rbatch s = .next
      { s with
        reader := { s.reader with state := .done }
        source := { s.source with replies := more }
        result := .endOfData
        phase := .idle }) ∧
    (s.source.ended = false → ∀ lost, r = .fail lost → exec .rbatch s = .next
      { s with
        reader := { s.reader with state := .failed }
        source :=
          { s.source with bytes := s.source.bytes.drop (min lost 8), replies := more }
        result := .ioError
        phase := .idle }) ∧
    (s.source.ended = false → r = .deliver → s.source.bytes = [] → exec .rbatch s = .next
      { s with
        reader := { s.reader with state := .done }
        source := { bytes := [], ended := true, replies := more }
        result := .endOfData
        phase := .idle }) ∧
    (s.source.ended = false → r = .deliver → s.source.bytes ≠ [] → s.source.bytes.length < 8 →
      exec .rbatch s = .next
      { s with
        reader := { s.reader with state := .failed }
        source := { bytes := [], ended := true, replies := more }
        result := .truncated
        phase := .idle }) ∧
    (s.source.ended = false → r = .deliver → 8 ≤ s.source.bytes.length → exec .rbatch s = exec .rbatch
      { s with
        reader :=
          { s.reader with hdr := deser s.byteOrder (s.source.bytes.take 8), slot := 0 }
        source := { s.source with bytes := s.source.bytes.drop 8, replies := more } })

/-- RBATCH at a block slot of a width the reader accepts, the source delivering (45_reader.md R905): the block's
Words are decoded as BDEC decodes them from PBUF against R_LAST; COUNT is 64, WIDTH the width, R_LAST the last
element, the cursor advances; PBUF and everything else is kept. That an answer stands ready at the source is the
model's choice (notes/assumptions/8.md, 13.md). -/
def Obligations.RbatchDeliversTheBlock : Prop :=
  ∀ (s : State) (n : Nat) (ws : List Word) (left : List Byte) (more : List SourceReply),
    s.reader.state = .active → s.reader.slot.toNat ≤ 8 →
    classify s.reader.hdr s.reader.slot.toNat = .block n → n ≤ elemBits s.reader.ew →
    s.source.ended = false → ws.length = n →
    s.source.replies = (if n = 0 then more else .deliver :: more) →
    s.source.bytes = serWords s.byteOrder ws ++ left →
    ∃ d t,
      exec .bdec
        { s with
          cfgEW := s.reader.ew, cfgSX := s.reader.sx, offset := s.reader.last,
          width := BitVec.ofNat 64 n, pbuf := overwrite s.pbuf ws } = .next d ∧
      exec .rbatch s = .next t ∧
      t = { s with
            vbuf := d.vbuf
            count := 64
            width := BitVec.ofNat 64 n
            reader :=
              { s.reader with slot := t.reader.slot, last := t.reader.last }
            source :=
              { s.source with bytes := left, replies := more }
            result := .ok
            phase := .idle } ∧
      t.reader.slot.toNat = s.reader.slot.toNat + 1 ∧
      t.reader.last.toNat = elemValue s.reader.ew (vbufAt d 63)

/-- RBATCH at a terminal slot, the source delivering (45_reader.md R904): VBUF[0..r−1] are the raw Words'
elements extended by R_SX, COUNT is r, the reader is DONE with no header; the other VBUF entries, R_LAST, WIDTH
and everything else are kept. That an answer stands ready at the source is the model's choice
(notes/assumptions/8.md, 13.md). -/
def Obligations.RbatchDeliversTheRawTail : Prop :=
  ∀ (s : State) (r : Nat) (ws : List Word) (left : List Byte) (more : List SourceReply),
    s.reader.state = .active → s.reader.slot.toNat ≤ 8 →
    classify s.reader.hdr s.reader.slot.toNat = .terminal r →
    s.source.ended = false → ws.length = r →
    s.source.replies = (if r = 0 then more else .deliver :: more) →
    s.source.bytes = serWords s.byteOrder ws ++ left →
    ∃ t, exec .rbatch s = .next t ∧
      t = { s with
            vbuf := t.vbuf
            count := BitVec.ofNat 64 r
            reader := { s.reader with slot := 9, state := .done }
            source :=
              { s.source with bytes := left, replies := more }
            result := .tail
            phase := .idle } ∧
      (∀ i < r, vbufAt t i = extend64 s.reader.sx (lowElem s.reader.ew (ws.getD i 0))) ∧
      (∀ i, r ≤ i → vbufAt t i = vbufAt s i)

/-- What RBATCH ends with otherwise (45_reader.md R902, R904, R905; 60_exceptions.md R1100): END when DONE,
BAD_STATE when FAILED, INVALID_WIDTH for an invalid slot or a width above R_E before any Word is read, TRUNCATED
when the declared Words are not all there, IO_ERROR when the source fails; the reader is FAILED in the last
three and host outputs are kept in all. Ready answers, and what a failing one consumes, are the model's choice
(notes/assumptions/8.md, 13.md). -/
def Obligations.RbatchEndsAndErrors : Prop :=
  ∀ s : State,
    (s.reader.state = .done →
      exec .rbatch s = .next { s with result := .endOfData, phase := .idle }) ∧
    (s.reader.state = .failed →
      exec .rbatch s = .next { s with result := .badState, phase := .idle }) ∧
    (s.reader.state = .active → s.reader.slot.toNat ≤ 8 →
      (classify s.reader.hdr s.reader.slot.toNat = .invalid ∨
        ∃ n, classify s.reader.hdr s.reader.slot.toNat = .block n ∧ elemBits s.reader.ew < n) →
      exec .rbatch s = .next
        { s with
          reader := { s.reader with state := .failed }
          result := .invalidWidth
          phase := .idle }) ∧
    (∀ (n : Nat) (r : SourceReply) (more : List SourceReply),
      s.reader.state = .active → s.reader.slot.toNat ≤ 8 → 0 < n →
      (classify s.reader.hdr s.reader.slot.toNat = .terminal n ∨
        (classify s.reader.hdr s.reader.slot.toNat = .block n ∧ n ≤ elemBits s.reader.ew)) →
      s.source.ended = false → s.source.replies = r :: more →
      (r = .deliver → s.source.bytes.length < 8 * n → exec .rbatch s = .next
        { s with
          reader := { s.reader with state := .failed }
          source := { bytes := [], ended := true, replies := more }
          result := .truncated
          phase := .idle }) ∧
      (∀ lost, r = .fail lost → exec .rbatch s = .next
        { s with
          reader := { s.reader with state := .failed }
          source :=
            { s.source with bytes := s.source.bytes.drop (min lost (8 * n)), replies := more }
          result := .ioError
          phase := .idle }))

/-- While the engine waits on a port, only that port's answer or a reset ends the wait: an engine turn, a host
access, the other port's answer and an empty schedule leave it (20_memory.md R213); and an answer that comes
later does what the same answer does when the port has it ready (46_control.md R1006). Ready answers, the
schedule, and that the machine stands still with nothing scheduled and no host program to run, are the model's
(notes/assumptions/5.md, 7.md, 8.md, 13.md). -/
def Obligations.LateAnswerActsAsReadyOne : Prop :=
  (∀ s t : State, step s = .next t → (∀ held, s.schedule.head? ≠ some (.reset held)) →
    (∀ call bytes, s.phase = .sinkWait call bytes →
      (∀ r, s.schedule.head? ≠ some (.sinkReply r)) → t.phase = s.phase) ∧
    (∀ call, s.phase = .sourceWait call →
      (∀ r, s.schedule.head? ≠ some (.sourceReply r)) → t.phase = s.phase)) ∧
  ∀ (s t : State) (i : Instr), exec i s = .next t → t.phase ≠ .idle →
    (t.schedule = [] → t.host.program = [] → t.phase ≠ .accepted → step t = .next t) ∧
    (i = .wbatch ∨ i = .wflush → s.sink.replies = [] → ∀ r,
      exec i { s with sink := { s.sink with replies := [r] } } = .next (sinkAnswers r t)) ∧
    (i = .rbatch → s.source.replies = [] → ∀ r,
      exec i { s with source := { s.source with replies := [r] } } = .next (sourceAnswers r t))

/-! ### Rules about every command -/

/-- The commit rule (46_control.md R1005): a command that ends with an error result writes none of VBUF,
PBUF, WIDTH, COUNT and HDR. -/
def Obligations.ErrorResultsKeepHostOutputs : Prop :=
  ∀ (i : Instr) (s t : State), exec i s = .next t → t.phase = .idle → t.result.isFinish = false →
    t.vbuf = s.vbuf ∧ t.pbuf = s.pbuf ∧ t.width = s.width ∧ t.count = s.count ∧ t.hdr = s.hdr

/-- Independence of the contexts (20_memory.md R216): writer commands keep the reader context and the
source, reader commands the writer context and the sink, and every other command both contexts and both
ports. -/
def Obligations.CommandsKeepTheOtherContext : Prop :=
  ∀ (i : Instr) (s t : State), exec i s = .next t →
    (i ≠ .rinit → i ≠ .rbatch → t.reader = s.reader ∧ t.source = s.source) ∧
    (i ≠ .winit → i ≠ .wbatch → i ≠ .wflush → t.writer = s.writer ∧ t.sink = s.sink)

/-- No command writes CMD, OVR, CFG, OFFSET or INIT_OFFSET, a byte order, the host or the run's other moves
(10_state.md R104, R132; 46_control.md R1002). -/
def Obligations.CommandsKeepHostOnlyRegisters : Prop :=
  ∀ (i : Instr) (s t : State), exec i s = .next t →
    t.cmd = s.cmd ∧ t.ovr = s.ovr ∧ t.cfgEW = s.cfgEW ∧ t.cfgSX = s.cfgSX ∧
      t.offset = s.offset ∧ t.initOffset = s.initOffset ∧ t.byteOrder = s.byteOrder ∧
      t.schedule = s.schedule ∧ t.bus = s.bus ∧ t.host = s.host ∧ t.freeReads = s.freeReads

/-- Every command is accepted and answers a next state, idle unless it waits on a port (46_control.md R1001,
70_reset_and_hazards.md R1210). Ready answers are the model's (notes/assumptions/7.md, 8.md, 13.md). -/
def Obligations.CommandsEndOrWaitOnAPort : Prop :=
  ∀ (i : Instr) (s : State), ∃ t, exec i s = .next t ∧
    (t.phase = .idle ∨
      (i = .rbatch ∧ s.source.replies.length ≤ 1 ∧ ∃ c, t.phase = .sourceWait c) ∨
      ((i = .wbatch ∨ i = .wflush) ∧ s.sink.replies = [] ∧ ∃ c b, t.phase = .sinkWait c b))

/-! ### Word transfer -/

/-- A Word is 8 bytes on a port, least or most significant first by HOST_BYTE_ORDER, and `deser` is the
inverse of `ser` (20_memory.md R207); a host access presented as byte lanes is the 64-bit access whose value
crosses in that order (20_memory.md R206). -/
def Obligations.WordTransferFormat : Prop :=
  (∀ (w : Word),
    (∀ order, (ser order w).length = 8 ∧ deser order (ser order w) = w) ∧
    (∀ order (b : List Byte), b.length = 8 → ser order (deser order b) = b) ∧
    (∀ k < 8, (ser .le w).getD k 0 = w.extractLsb' (8 * k) 8) ∧
    (∀ k < 8, (ser .be w).getD k 0 = w.extractLsb' (56 - 8 * k) 8)) ∧
  ∀ (s : State) (off : BitVec 12) (rest : List Event),
    (∀ b, b.length = 8 →
      step { s with schedule := .access (.writeLanes off b) :: rest } =
        step { s with schedule := .access (.write 64 off (deser s.byteOrder b)) :: rest }) ∧
    (∀ t, step { s with schedule := .access (.read 64 off) :: rest } = .next t →
      ∃ w, t.bus = .data w ∧
        step { s with schedule := .access (.readLanes 8 off) :: rest } =
          .next { t with bus := .lanes (ser s.byteOrder w) })

/-! ### Invariants and runs -/

/-- The three invariants hold at reset. -/
def Obligations.ResetMeetsTheInvariants : Prop :=
  State.reset.writerInv ∧ State.reset.readerInv ∧ State.reset.portInv

/-- Every step keeps the writer invariant (10_state.md R128). -/
def Obligations.StepKeepsTheWriterInvariant : Prop :=
  ∀ s t : State, s.writerInv → step s = .next t → t.writerInv

/-- Every step keeps the reader invariant (10_state.md R118, R129). -/
def Obligations.StepKeepsTheReaderInvariant : Prop :=
  ∀ s t : State, s.readerInv → step s = .next t → t.readerInv

/-- Every step keeps the port invariant (20_memory.md R210, R213). -/
def Obligations.StepKeepsThePortInvariant : Prop :=
  ∀ s t : State, s.portInv → step s = .next t → t.portInv

/-- A run whose host makes only admitted accesses never stops, from any state (20_memory.md R202;
60_exceptions.md R1106). The schedule and the one fault are the model's (notes/assumptions/5.md, 12.md). -/
def Obligations.SafeRunsGoOn : Prop :=
  ∀ (s : State), s.safeSchedule → ∀ k, ∃ t, Sys2Proof.core.run k s = .next t

/-- The stream round trip for one batch and a raw tail (45_reader.md R907): a writer started by WINIT that
carries a batch and r raw values to WFLUSH puts one page on the sink; a reader of the same width, offset and
byte order started by RINIT with that page as its source gives the batch, then the tail, then END, and has
consumed every byte. Ready answers are the model's (notes/assumptions/7.md, 8.md, 13.md). -/
def Obligations.OneBatchStreamRoundTrip : Prop :=
  ∀ (s : State) (batch raw : Vector Word 128) (r : Word) (replies : List SourceReply),
    r.toNat ≤ 63 → s.sink = { accepted := [], replies := [⟨8 * 576, false, 0⟩] } →
    replies = List.replicate 4 .deliver →
    ∃ a b c, exec .winit s = .next a ∧ exec .wbatch { a with vbuf := batch } = .next b ∧
      exec .wflush { b with vbuf := raw, count := r } = .next c ∧ c.result = .ok ∧
      ∃ d e f g, exec .rinit { c with source := ⟨c.sink.accepted, false, replies⟩ } = .next d ∧
        exec .rbatch d = .next e ∧ e.result = .ok ∧
        (∀ i < 64, vbufAt e i = extend64 s.cfgSX (lowElem s.cfgEW (batch.toList.getD i 0))) ∧
        exec .rbatch e = .next f ∧ f.result = .tail ∧ f.count = r ∧
        (∀ i < r.toNat,
          vbufAt f i = extend64 s.cfgSX (lowElem s.cfgEW (raw.toList.getD i 0))) ∧
        exec .rbatch f = .next g ∧ g.result = .endOfData ∧ g.source.bytes = []
end

