-- ==== Sys2Proof/Laws/State.lean ====
section
/-! SUPPORT. What each field of the state is after each named update, so that no proof unfolds a record
update. All true by definition. -/

namespace Sys2Proof.Machine

variable (s : State)

@[simp] theorem finish_eq_conclude (r : ResultCode) : finish r s = conclude r s := rfl
@[simp] theorem raise_eq_conclude (r : ResultCode) : raise r s = conclude r s := rfl

section conclude
variable (r : ResultCode)
@[simp] theorem conclude_cmd : (conclude r s).cmd = s.cmd := rfl
@[simp] theorem conclude_result : (conclude r s).result = r := rfl
@[simp] theorem conclude_ovr : (conclude r s).ovr = s.ovr := rfl
@[simp] theorem conclude_cfgEW : (conclude r s).cfgEW = s.cfgEW := rfl
@[simp] theorem conclude_cfgSX : (conclude r s).cfgSX = s.cfgSX := rfl
@[simp] theorem conclude_offset : (conclude r s).offset = s.offset := rfl
@[simp] theorem conclude_width : (conclude r s).width = s.width := rfl
@[simp] theorem conclude_count : (conclude r s).count = s.count := rfl
@[simp] theorem conclude_hdr : (conclude r s).hdr = s.hdr := rfl
@[simp] theorem conclude_initOffset : (conclude r s).initOffset = s.initOffset := rfl
@[simp] theorem conclude_vbuf : (conclude r s).vbuf = s.vbuf := rfl
@[simp] theorem conclude_pbuf : (conclude r s).pbuf = s.pbuf := rfl
@[simp] theorem conclude_writer : (conclude r s).writer = s.writer := rfl
@[simp] theorem conclude_reader : (conclude r s).reader = s.reader := rfl
@[simp] theorem conclude_phase : (conclude r s).phase = .idle := rfl
@[simp] theorem conclude_byteOrder : (conclude r s).byteOrder = s.byteOrder := rfl
@[simp] theorem conclude_sink : (conclude r s).sink = s.sink := rfl
@[simp] theorem conclude_source : (conclude r s).source = s.source := rfl
@[simp] theorem conclude_schedule : (conclude r s).schedule = s.schedule := rfl
@[simp] theorem conclude_bus : (conclude r s).bus = s.bus := rfl
@[simp] theorem conclude_freeReads : (conclude r s).freeReads = s.freeReads := rfl
@[simp] theorem conclude_host : (conclude r s).host = s.host := rfl
end conclude

section putVbuf
variable (vs : List Word)
@[simp] theorem putVbuf_cmd : (s.putVbuf vs).cmd = s.cmd := rfl
@[simp] theorem putVbuf_result : (s.putVbuf vs).result = s.result := rfl
@[simp] theorem putVbuf_ovr : (s.putVbuf vs).ovr = s.ovr := rfl
@[simp] theorem putVbuf_cfgEW : (s.putVbuf vs).cfgEW = s.cfgEW := rfl
@[simp] theorem putVbuf_cfgSX : (s.putVbuf vs).cfgSX = s.cfgSX := rfl
@[simp] theorem putVbuf_offset : (s.putVbuf vs).offset = s.offset := rfl
@[simp] theorem putVbuf_width : (s.putVbuf vs).width = s.width := rfl
@[simp] theorem putVbuf_count : (s.putVbuf vs).count = s.count := rfl
@[simp] theorem putVbuf_hdr : (s.putVbuf vs).hdr = s.hdr := rfl
@[simp] theorem putVbuf_initOffset : (s.putVbuf vs).initOffset = s.initOffset := rfl
@[simp] theorem putVbuf_vbuf : (s.putVbuf vs).vbuf = overwrite s.vbuf vs := rfl
@[simp] theorem putVbuf_pbuf : (s.putVbuf vs).pbuf = s.pbuf := rfl
@[simp] theorem putVbuf_writer : (s.putVbuf vs).writer = s.writer := rfl
@[simp] theorem putVbuf_reader : (s.putVbuf vs).reader = s.reader := rfl
@[simp] theorem putVbuf_phase : (s.putVbuf vs).phase = s.phase := rfl
@[simp] theorem putVbuf_byteOrder : (s.putVbuf vs).byteOrder = s.byteOrder := rfl
@[simp] theorem putVbuf_sink : (s.putVbuf vs).sink = s.sink := rfl
@[simp] theorem putVbuf_source : (s.putVbuf vs).source = s.source := rfl
@[simp] theorem putVbuf_schedule : (s.putVbuf vs).schedule = s.schedule := rfl
@[simp] theorem putVbuf_bus : (s.putVbuf vs).bus = s.bus := rfl
@[simp] theorem putVbuf_freeReads : (s.putVbuf vs).freeReads = s.freeReads := rfl
@[simp] theorem putVbuf_host : (s.putVbuf vs).host = s.host := rfl
end putVbuf

section putPbuf
variable (ws : List Word)
@[simp] theorem putPbuf_cmd : (s.putPbuf ws).cmd = s.cmd := rfl
@[simp] theorem putPbuf_result : (s.putPbuf ws).result = s.result := rfl
@[simp] theorem putPbuf_ovr : (s.putPbuf ws).ovr = s.ovr := rfl
@[simp] theorem putPbuf_cfgEW : (s.putPbuf ws).cfgEW = s.cfgEW := rfl
@[simp] theorem putPbuf_cfgSX : (s.putPbuf ws).cfgSX = s.cfgSX := rfl
@[simp] theorem putPbuf_offset : (s.putPbuf ws).offset = s.offset := rfl
@[simp] theorem putPbuf_width : (s.putPbuf ws).width = s.width := rfl
@[simp] theorem putPbuf_count : (s.putPbuf ws).count = s.count := rfl
@[simp] theorem putPbuf_hdr : (s.putPbuf ws).hdr = s.hdr := rfl
@[simp] theorem putPbuf_initOffset : (s.putPbuf ws).initOffset = s.initOffset := rfl
@[simp] theorem putPbuf_vbuf : (s.putPbuf ws).vbuf = s.vbuf := rfl
@[simp] theorem putPbuf_pbuf : (s.putPbuf ws).pbuf = overwrite s.pbuf ws := rfl
@[simp] theorem putPbuf_writer : (s.putPbuf ws).writer = s.writer := rfl
@[simp] theorem putPbuf_reader : (s.putPbuf ws).reader = s.reader := rfl
@[simp] theorem putPbuf_phase : (s.putPbuf ws).phase = s.phase := rfl
@[simp] theorem putPbuf_byteOrder : (s.putPbuf ws).byteOrder = s.byteOrder := rfl
@[simp] theorem putPbuf_sink : (s.putPbuf ws).sink = s.sink := rfl
@[simp] theorem putPbuf_source : (s.putPbuf ws).source = s.source := rfl
@[simp] theorem putPbuf_schedule : (s.putPbuf ws).schedule = s.schedule := rfl
@[simp] theorem putPbuf_bus : (s.putPbuf ws).bus = s.bus := rfl
@[simp] theorem putPbuf_freeReads : (s.putPbuf ws).freeReads = s.freeReads := rfl
@[simp] theorem putPbuf_host : (s.putPbuf ws).host = s.host := rfl
end putPbuf

section putWidth
variable (v : Word)
@[simp] theorem putWidth_cmd : (s.putWidth v).cmd = s.cmd := rfl
@[simp] theorem putWidth_result : (s.putWidth v).result = s.result := rfl
@[simp] theorem putWidth_ovr : (s.putWidth v).ovr = s.ovr := rfl
@[simp] theorem putWidth_cfgEW : (s.putWidth v).cfgEW = s.cfgEW := rfl
@[simp] theorem putWidth_cfgSX : (s.putWidth v).cfgSX = s.cfgSX := rfl
@[simp] theorem putWidth_offset : (s.putWidth v).offset = s.offset := rfl
@[simp] theorem putWidth_width : (s.putWidth v).width = v := rfl
@[simp] theorem putWidth_count : (s.putWidth v).count = s.count := rfl
@[simp] theorem putWidth_hdr : (s.putWidth v).hdr = s.hdr := rfl
@[simp] theorem putWidth_initOffset : (s.putWidth v).initOffset = s.initOffset := rfl
@[simp] theorem putWidth_vbuf : (s.putWidth v).vbuf = s.vbuf := rfl
@[simp] theorem putWidth_pbuf : (s.putWidth v).pbuf = s.pbuf := rfl
@[simp] theorem putWidth_writer : (s.putWidth v).writer = s.writer := rfl
@[simp] theorem putWidth_reader : (s.putWidth v).reader = s.reader := rfl
@[simp] theorem putWidth_phase : (s.putWidth v).phase = s.phase := rfl
@[simp] theorem putWidth_byteOrder : (s.putWidth v).byteOrder = s.byteOrder := rfl
@[simp] theorem putWidth_sink : (s.putWidth v).sink = s.sink := rfl
@[simp] theorem putWidth_source : (s.putWidth v).source = s.source := rfl
@[simp] theorem putWidth_schedule : (s.putWidth v).schedule = s.schedule := rfl
@[simp] theorem putWidth_bus : (s.putWidth v).bus = s.bus := rfl
@[simp] theorem putWidth_freeReads : (s.putWidth v).freeReads = s.freeReads := rfl
@[simp] theorem putWidth_host : (s.putWidth v).host = s.host := rfl
end putWidth

section putCount
variable (v : Word)
@[simp] theorem putCount_cmd : (s.putCount v).cmd = s.cmd := rfl
@[simp] theorem putCount_result : (s.putCount v).result = s.result := rfl
@[simp] theorem putCount_ovr : (s.putCount v).ovr = s.ovr := rfl
@[simp] theorem putCount_cfgEW : (s.putCount v).cfgEW = s.cfgEW := rfl
@[simp] theorem putCount_cfgSX : (s.putCount v).cfgSX = s.cfgSX := rfl
@[simp] theorem putCount_offset : (s.putCount v).offset = s.offset := rfl
@[simp] theorem putCount_width : (s.putCount v).width = s.width := rfl
@[simp] theorem putCount_count : (s.putCount v).count = v := rfl
@[simp] theorem putCount_hdr : (s.putCount v).hdr = s.hdr := rfl
@[simp] theorem putCount_initOffset : (s.putCount v).initOffset = s.initOffset := rfl
@[simp] theorem putCount_vbuf : (s.putCount v).vbuf = s.vbuf := rfl
@[simp] theorem putCount_pbuf : (s.putCount v).pbuf = s.pbuf := rfl
@[simp] theorem putCount_writer : (s.putCount v).writer = s.writer := rfl
@[simp] theorem putCount_reader : (s.putCount v).reader = s.reader := rfl
@[simp] theorem putCount_phase : (s.putCount v).phase = s.phase := rfl
@[simp] theorem putCount_byteOrder : (s.putCount v).byteOrder = s.byteOrder := rfl
@[simp] theorem putCount_sink : (s.putCount v).sink = s.sink := rfl
@[simp] theorem putCount_source : (s.putCount v).source = s.source := rfl
@[simp] theorem putCount_schedule : (s.putCount v).schedule = s.schedule := rfl
@[simp] theorem putCount_bus : (s.putCount v).bus = s.bus := rfl
@[simp] theorem putCount_freeReads : (s.putCount v).freeReads = s.freeReads := rfl
@[simp] theorem putCount_host : (s.putCount v).host = s.host := rfl
end putCount

section putHdr
variable (v : Word)
@[simp] theorem putHdr_cmd : (s.putHdr v).cmd = s.cmd := rfl
@[simp] theorem putHdr_result : (s.putHdr v).result = s.result := rfl
@[simp] theorem putHdr_ovr : (s.putHdr v).ovr = s.ovr := rfl
@[simp] theorem putHdr_cfgEW : (s.putHdr v).cfgEW = s.cfgEW := rfl
@[simp] theorem putHdr_cfgSX : (s.putHdr v).cfgSX = s.cfgSX := rfl
@[simp] theorem putHdr_offset : (s.putHdr v).offset = s.offset := rfl
@[simp] theorem putHdr_width : (s.putHdr v).width = s.width := rfl
@[simp] theorem putHdr_count : (s.putHdr v).count = s.count := rfl
@[simp] theorem putHdr_hdr : (s.putHdr v).hdr = v := rfl
@[simp] theorem putHdr_initOffset : (s.putHdr v).initOffset = s.initOffset := rfl
@[simp] theorem putHdr_vbuf : (s.putHdr v).vbuf = s.vbuf := rfl
@[simp] theorem putHdr_pbuf : (s.putHdr v).pbuf = s.pbuf := rfl
@[simp] theorem putHdr_writer : (s.putHdr v).writer = s.writer := rfl
@[simp] theorem putHdr_reader : (s.putHdr v).reader = s.reader := rfl
@[simp] theorem putHdr_phase : (s.putHdr v).phase = s.phase := rfl
@[simp] theorem putHdr_byteOrder : (s.putHdr v).byteOrder = s.byteOrder := rfl
@[simp] theorem putHdr_sink : (s.putHdr v).sink = s.sink := rfl
@[simp] theorem putHdr_source : (s.putHdr v).source = s.source := rfl
@[simp] theorem putHdr_schedule : (s.putHdr v).schedule = s.schedule := rfl
@[simp] theorem putHdr_bus : (s.putHdr v).bus = s.bus := rfl
@[simp] theorem putHdr_freeReads : (s.putHdr v).freeReads = s.freeReads := rfl
@[simp] theorem putHdr_host : (s.putHdr v).host = s.host := rfl
end putHdr

section putWriter
variable (w : Writer)
@[simp] theorem putWriter_cmd : (s.putWriter w).cmd = s.cmd := rfl
@[simp] theorem putWriter_result : (s.putWriter w).result = s.result := rfl
@[simp] theorem putWriter_ovr : (s.putWriter w).ovr = s.ovr := rfl
@[simp] theorem putWriter_cfgEW : (s.putWriter w).cfgEW = s.cfgEW := rfl
@[simp] theorem putWriter_cfgSX : (s.putWriter w).cfgSX = s.cfgSX := rfl
@[simp] theorem putWriter_offset : (s.putWriter w).offset = s.offset := rfl
@[simp] theorem putWriter_width : (s.putWriter w).width = s.width := rfl
@[simp] theorem putWriter_count : (s.putWriter w).count = s.count := rfl
@[simp] theorem putWriter_hdr : (s.putWriter w).hdr = s.hdr := rfl
@[simp] theorem putWriter_initOffset : (s.putWriter w).initOffset = s.initOffset := rfl
@[simp] theorem putWriter_vbuf : (s.putWriter w).vbuf = s.vbuf := rfl
@[simp] theorem putWriter_pbuf : (s.putWriter w).pbuf = s.pbuf := rfl
@[simp] theorem putWriter_writer : (s.putWriter w).writer = w := rfl
@[simp] theorem putWriter_reader : (s.putWriter w).reader = s.reader := rfl
@[simp] theorem putWriter_phase : (s.putWriter w).phase = s.phase := rfl
@[simp] theorem putWriter_byteOrder : (s.putWriter w).byteOrder = s.byteOrder := rfl
@[simp] theorem putWriter_sink : (s.putWriter w).sink = s.sink := rfl
@[simp] theorem putWriter_source : (s.putWriter w).source = s.source := rfl
@[simp] theorem putWriter_schedule : (s.putWriter w).schedule = s.schedule := rfl
@[simp] theorem putWriter_bus : (s.putWriter w).bus = s.bus := rfl
@[simp] theorem putWriter_freeReads : (s.putWriter w).freeReads = s.freeReads := rfl
@[simp] theorem putWriter_host : (s.putWriter w).host = s.host := rfl
end putWriter

section putReader
variable (r : Reader)
@[simp] theorem putReader_cmd : (s.putReader r).cmd = s.cmd := rfl
@[simp] theorem putReader_result : (s.putReader r).result = s.result := rfl
@[simp] theorem putReader_ovr : (s.putReader r).ovr = s.ovr := rfl
@[simp] theorem putReader_cfgEW : (s.putReader r).cfgEW = s.cfgEW := rfl
@[simp] theorem putReader_cfgSX : (s.putReader r).cfgSX = s.cfgSX := rfl
@[simp] theorem putReader_offset : (s.putReader r).offset = s.offset := rfl
@[simp] theorem putReader_width : (s.putReader r).width = s.width := rfl
@[simp] theorem putReader_count : (s.putReader r).count = s.count := rfl
@[simp] theorem putReader_hdr : (s.putReader r).hdr = s.hdr := rfl
@[simp] theorem putReader_initOffset : (s.putReader r).initOffset = s.initOffset := rfl
@[simp] theorem putReader_vbuf : (s.putReader r).vbuf = s.vbuf := rfl
@[simp] theorem putReader_pbuf : (s.putReader r).pbuf = s.pbuf := rfl
@[simp] theorem putReader_writer : (s.putReader r).writer = s.writer := rfl
@[simp] theorem putReader_reader : (s.putReader r).reader = r := rfl
@[simp] theorem putReader_phase : (s.putReader r).phase = s.phase := rfl
@[simp] theorem putReader_byteOrder : (s.putReader r).byteOrder = s.byteOrder := rfl
@[simp] theorem putReader_sink : (s.putReader r).sink = s.sink := rfl
@[simp] theorem putReader_source : (s.putReader r).source = s.source := rfl
@[simp] theorem putReader_schedule : (s.putReader r).schedule = s.schedule := rfl
@[simp] theorem putReader_bus : (s.putReader r).bus = s.bus := rfl
@[simp] theorem putReader_freeReads : (s.putReader r).freeReads = s.freeReads := rfl
@[simp] theorem putReader_host : (s.putReader r).host = s.host := rfl
end putReader

section putSink
variable (k : Sink)
@[simp] theorem putSink_cmd : (s.putSink k).cmd = s.cmd := rfl
@[simp] theorem putSink_result : (s.putSink k).result = s.result := rfl
@[simp] theorem putSink_ovr : (s.putSink k).ovr = s.ovr := rfl
@[simp] theorem putSink_cfgEW : (s.putSink k).cfgEW = s.cfgEW := rfl
@[simp] theorem putSink_cfgSX : (s.putSink k).cfgSX = s.cfgSX := rfl
@[simp] theorem putSink_offset : (s.putSink k).offset = s.offset := rfl
@[simp] theorem putSink_width : (s.putSink k).width = s.width := rfl
@[simp] theorem putSink_count : (s.putSink k).count = s.count := rfl
@[simp] theorem putSink_hdr : (s.putSink k).hdr = s.hdr := rfl
@[simp] theorem putSink_initOffset : (s.putSink k).initOffset = s.initOffset := rfl
@[simp] theorem putSink_vbuf : (s.putSink k).vbuf = s.vbuf := rfl
@[simp] theorem putSink_pbuf : (s.putSink k).pbuf = s.pbuf := rfl
@[simp] theorem putSink_writer : (s.putSink k).writer = s.writer := rfl
@[simp] theorem putSink_reader : (s.putSink k).reader = s.reader := rfl
@[simp] theorem putSink_phase : (s.putSink k).phase = s.phase := rfl
@[simp] theorem putSink_byteOrder : (s.putSink k).byteOrder = s.byteOrder := rfl
@[simp] theorem putSink_sink : (s.putSink k).sink = k := rfl
@[simp] theorem putSink_source : (s.putSink k).source = s.source := rfl
@[simp] theorem putSink_schedule : (s.putSink k).schedule = s.schedule := rfl
@[simp] theorem putSink_bus : (s.putSink k).bus = s.bus := rfl
@[simp] theorem putSink_freeReads : (s.putSink k).freeReads = s.freeReads := rfl
@[simp] theorem putSink_host : (s.putSink k).host = s.host := rfl
end putSink

section putSource
variable (k : Source)
@[simp] theorem putSource_cmd : (s.putSource k).cmd = s.cmd := rfl
@[simp] theorem putSource_result : (s.putSource k).result = s.result := rfl
@[simp] theorem putSource_ovr : (s.putSource k).ovr = s.ovr := rfl
@[simp] theorem putSource_cfgEW : (s.putSource k).cfgEW = s.cfgEW := rfl
@[simp] theorem putSource_cfgSX : (s.putSource k).cfgSX = s.cfgSX := rfl
@[simp] theorem putSource_offset : (s.putSource k).offset = s.offset := rfl
@[simp] theorem putSource_width : (s.putSource k).width = s.width := rfl
@[simp] theorem putSource_count : (s.putSource k).count = s.count := rfl
@[simp] theorem putSource_hdr : (s.putSource k).hdr = s.hdr := rfl
@[simp] theorem putSource_initOffset : (s.putSource k).initOffset = s.initOffset := rfl
@[simp] theorem putSource_vbuf : (s.putSource k).vbuf = s.vbuf := rfl
@[simp] theorem putSource_pbuf : (s.putSource k).pbuf = s.pbuf := rfl
@[simp] theorem putSource_writer : (s.putSource k).writer = s.writer := rfl
@[simp] theorem putSource_reader : (s.putSource k).reader = s.reader := rfl
@[simp] theorem putSource_phase : (s.putSource k).phase = s.phase := rfl
@[simp] theorem putSource_byteOrder : (s.putSource k).byteOrder = s.byteOrder := rfl
@[simp] theorem putSource_sink : (s.putSource k).sink = s.sink := rfl
@[simp] theorem putSource_source : (s.putSource k).source = k := rfl
@[simp] theorem putSource_schedule : (s.putSource k).schedule = s.schedule := rfl
@[simp] theorem putSource_bus : (s.putSource k).bus = s.bus := rfl
@[simp] theorem putSource_freeReads : (s.putSource k).freeReads = s.freeReads := rfl
@[simp] theorem putSource_host : (s.putSource k).host = s.host := rfl
end putSource

section hold
variable (p : Phase)
@[simp] theorem hold_cmd : (s.hold p).cmd = s.cmd := rfl
@[simp] theorem hold_result : (s.hold p).result = s.result := rfl
@[simp] theorem hold_ovr : (s.hold p).ovr = s.ovr := rfl
@[simp] theorem hold_cfgEW : (s.hold p).cfgEW = s.cfgEW := rfl
@[simp] theorem hold_cfgSX : (s.hold p).cfgSX = s.cfgSX := rfl
@[simp] theorem hold_offset : (s.hold p).offset = s.offset := rfl
@[simp] theorem hold_width : (s.hold p).width = s.width := rfl
@[simp] theorem hold_count : (s.hold p).count = s.count := rfl
@[simp] theorem hold_hdr : (s.hold p).hdr = s.hdr := rfl
@[simp] theorem hold_initOffset : (s.hold p).initOffset = s.initOffset := rfl
@[simp] theorem hold_vbuf : (s.hold p).vbuf = s.vbuf := rfl
@[simp] theorem hold_pbuf : (s.hold p).pbuf = s.pbuf := rfl
@[simp] theorem hold_writer : (s.hold p).writer = s.writer := rfl
@[simp] theorem hold_reader : (s.hold p).reader = s.reader := rfl
@[simp] theorem hold_phase : (s.hold p).phase = p := rfl
@[simp] theorem hold_byteOrder : (s.hold p).byteOrder = s.byteOrder := rfl
@[simp] theorem hold_sink : (s.hold p).sink = s.sink := rfl
@[simp] theorem hold_source : (s.hold p).source = s.source := rfl
@[simp] theorem hold_schedule : (s.hold p).schedule = s.schedule := rfl
@[simp] theorem hold_bus : (s.hold p).bus = s.bus := rfl
@[simp] theorem hold_freeReads : (s.hold p).freeReads = s.freeReads := rfl
@[simp] theorem hold_host : (s.hold p).host = s.host := rfl
end hold

section issue
variable (c : Word)
@[simp] theorem issue_cmd : (issue c s).cmd = c := rfl
@[simp] theorem issue_result : (issue c s).result = s.result := rfl
@[simp] theorem issue_ovr : (issue c s).ovr = s.ovr := rfl
@[simp] theorem issue_cfgEW : (issue c s).cfgEW = s.cfgEW := rfl
@[simp] theorem issue_cfgSX : (issue c s).cfgSX = s.cfgSX := rfl
@[simp] theorem issue_offset : (issue c s).offset = s.offset := rfl
@[simp] theorem issue_width : (issue c s).width = s.width := rfl
@[simp] theorem issue_count : (issue c s).count = s.count := rfl
@[simp] theorem issue_hdr : (issue c s).hdr = s.hdr := rfl
@[simp] theorem issue_initOffset : (issue c s).initOffset = s.initOffset := rfl
@[simp] theorem issue_vbuf : (issue c s).vbuf = s.vbuf := rfl
@[simp] theorem issue_pbuf : (issue c s).pbuf = s.pbuf := rfl
@[simp] theorem issue_writer : (issue c s).writer = s.writer := rfl
@[simp] theorem issue_reader : (issue c s).reader = s.reader := rfl
@[simp] theorem issue_phase : (issue c s).phase = .accepted := rfl
@[simp] theorem issue_byteOrder : (issue c s).byteOrder = s.byteOrder := rfl
@[simp] theorem issue_sink : (issue c s).sink = s.sink := rfl
@[simp] theorem issue_source : (issue c s).source = s.source := rfl
@[simp] theorem issue_schedule : (issue c s).schedule = s.schedule := rfl
@[simp] theorem issue_bus : (issue c s).bus = s.bus := rfl
@[simp] theorem issue_freeReads : (issue c s).freeReads = s.freeReads := rfl
@[simp] theorem issue_host : (issue c s).host = s.host := rfl
end issue

section writerUpdates
variable (w : Writer) (n : Nat) (ws : List Word) (v : Word)
@[simp] theorem emptied_state : w.emptied.state = w.state := rfl
@[simp] theorem emptied_slot : w.emptied.slot = 0 := rfl
@[simp] theorem emptied_len : w.emptied.len = 0 := rfl
@[simp] theorem emptied_pageBuf : w.emptied.pageBuf = w.pageBuf := rfl
@[simp] theorem emptied_hdr : w.emptied.hdr = 0 := rfl
@[simp] theorem emptied_last : w.emptied.last = w.last := rfl
@[simp] theorem emptied_ew : w.emptied.ew = w.ew := rfl
@[simp] theorem append_state : (w.append n ws v).state = w.state := rfl
@[simp] theorem append_slot : (w.append n ws v).slot = w.slot + 1 := rfl
@[simp] theorem append_len : (w.append n ws v).len = w.len + BitVec.ofNat 10 n := rfl
@[simp] theorem append_pageBuf : (w.append n ws v).pageBuf = overwriteAt w.pageBuf w.len.toNat ws := rfl
@[simp] theorem append_hdr : (w.append n ws v).hdr = setField w.hdr w.slot.toNat (BitVec.ofNat 7 n) := rfl
@[simp] theorem append_last : (w.append n ws v).last = v := rfl
@[simp] theorem append_ew : (w.append n ws v).ew = w.ew := rfl
end writerUpdates

end Sys2Proof.Machine
end

