-- ==== Sys2Proof/Laws/Buffers.lean ====
section
/-! SUPPORT. What the buffer operations do, entry by entry (10_state.md R109, R110, R113). -/

namespace Sys2Proof.Machine

theorem overwriteAt_toList {n : Nat} (buf : Vector Word n) (start : Nat) (ws : List Word) :
    (overwriteAt buf start ws).toList =
      (buf.toList.take start ++ ws ++ buf.toList.drop (start + ws.length)).take n := by
  simp [overwriteAt, Vector.toList]

/-- Reading after a write: the written Words in their range, every other entry as before. -/
theorem overwriteAt_getD {n : Nat} (buf : Vector Word n) (start : Nat) (ws : List Word) (i : Nat)
    (fits : start + ws.length ≤ n) :
    (overwriteAt buf start ws).toList.getD i 0 =
      if start ≤ i ∧ i < start + ws.length then ws.getD (i - start) 0
      else buf.toList.getD i 0 := by
  have hl : buf.toList.length = n := by simp
  simp only [overwriteAt_toList, List.getD_eq_getElem?_getD]
  rw [List.getElem?_take, List.getElem?_append, List.getElem?_append, List.getElem?_take,
    List.getElem?_drop]
  simp only [List.length_append, List.length_take, hl]
  have hm : min start n = start := by omega
  rw [hm]
  by_cases h1 : i < start
  · have : ¬ (start ≤ i ∧ i < start + ws.length) := by omega
    have h2 : i < start + ws.length := by omega
    have h3 : i < n := by omega
    simp [h1, h2, h3]
  · by_cases h2 : i < start + ws.length
    · have h3 : start ≤ i ∧ i < start + ws.length := by omega
      have h4 : i < n := by omega
      simp [h1, h2, h3, h4]
    · have h3 : ¬ (start ≤ i ∧ i < start + ws.length) := by omega
      have h4 : start + ws.length + (i - (start + ws.length)) = i := by omega
      by_cases h5 : i < n
      · simp [h2, h4, h5]
      · simp [h3, h5]

theorem vbufAt_putVbuf (s : State) (vs : List Word) (i : Nat) (fits : vs.length ≤ 128) :
    vbufAt (s.putVbuf vs) i = if i < vs.length then vs.getD i 0 else vbufAt s i := by
  simpa [vbufAt, overwrite] using overwriteAt_getD s.vbuf 0 vs i (by simpa using fits)

theorem pbufAt_putPbuf (s : State) (ws : List Word) (j : Nat) (fits : ws.length ≤ 64) :
    pbufAt (s.putPbuf ws) j = if j < ws.length then ws.getD j 0 else pbufAt s j := by
  simpa [pbufAt, overwrite] using overwriteAt_getD s.pbuf 0 ws j (by simpa using fits)

theorem firstEntries_length {n : Nat} (buf : Vector Word n) (k : Nat) (h : k ≤ n) :
    (firstEntries buf k).length = k := by
  simp [firstEntries, h]

theorem firstEntries_getD {n : Nat} (buf : Vector Word n) (k i : Nat) (h : i < k) :
    (firstEntries buf k).getD i 0 = buf.toList.getD i 0 := by
  simp only [firstEntries, List.getD_eq_getElem?_getD]
  rw [List.getElem?_take_of_lt h]

@[simp] theorem batchLanes_length (s : State) : (batchLanes s).length = 64 :=
  firstEntries_length s.vbuf 64 (by decide)

@[simp] theorem batchElems_length (ew : BitVec 2) (s : State) : (batchElems ew s).length = 64 := by
  simp [batchElems]

theorem packedWords_length (s : State) (n : Nat) (h : n ≤ 64) : (packedWords s n).length = n :=
  firstEntries_length s.pbuf n h

/-- A vector is determined by its entries. -/
theorem vector_ext_getD {n : Nat} (a b : Vector Word n)
    (h : ∀ i < n, a.toList.getD i 0 = b.toList.getD i 0) : a = b := by
  apply Vector.ext
  intro i hi
  have := h i hi
  simpa [List.getD_eq_getElem?_getD, hi] using this

theorem batchLanes_getD (s : State) (i : Nat) (h : i < 64) :
    (batchLanes s).getD i 0 = vbufAt s i :=
  firstEntries_getD s.vbuf 64 i h

theorem packedWords_getD (s : State) (n i : Nat) (h : i < n) :
    (packedWords s n).getD i 0 = pbufAt s i :=
  firstEntries_getD s.pbuf n i h

/-- Lane i of the batch is the element in VBUF[i]. -/
theorem batchElems_getElem (ew : BitVec 2) (s : State) (i : Nat) (h : i < 64) :
    (batchElems ew s)[i]'(by simpa using h) = lowElem ew (vbufAt s i) := by
  have := batchLanes_getD s i h
  rw [List.getD_eq_getElem?_getD, List.getElem?_eq_getElem (by simpa using h)] at this
  simp only [batchElems, List.getElem_map]
  exact congrArg _ this

theorem getD_map_lt {α : Type} (l : List α) (f : α → Word) (i : Nat) (h : i < l.length) :
    (l.map f).getD i 0 = f l[i] := by
  simp [List.getD_eq_getElem?_getD, h]

end Sys2Proof.Machine
end

