-- ==== Sys2Proof/Laws/Codec.lean ====
section
/-! SUPPORT. What the transform, the packer and the width selector do, lane by lane and bit by bit
(40_transform.md, 41_packer.md, 42_width_codec.md). -/

namespace Sys2Proof.Machine

/-! ### Transform -/

@[simp] theorem encodeDeltas_length {E : Nat} (off : BitVec E) (vs : List (BitVec E)) :
    (encodeDeltas off vs).length = vs.length := by
  induction vs generalizing off with
  | nil => rfl
  | cons v vs ih => simp [encodeDeltas, ih]

@[simp] theorem decodeDeltas_length {E : Nat} (off : BitVec E) (zs : List (BitVec E)) :
    (decodeDeltas off zs).length = zs.length := by
  induction zs generalizing off with
  | nil => rfl
  | cons z zs ih => simp [decodeDeltas, ih]

/-- Lane i of an encoded batch is the zig-zag value of previous minus current. -/
theorem encodeDeltas_getElem {E : Nat} (off : BitVec E) (vs : List (BitVec E)) (i : Nat)
    (h : i < vs.length) :
    (encodeDeltas off vs)[i]'(by simpa using h) =
      zigzag ((if i = 0 then off else vs[i - 1]'(by omega)) - vs[i]) := by
  induction vs generalizing off i with
  | nil => simp at h
  | cons v vs ih =>
    cases i with
    | zero => simp [encodeDeltas]
    | succ i =>
      have := ih v i (by simpa using h)
      simp only [encodeDeltas, List.getElem_cons_succ]
      rw [this]
      cases i <;> simp

/-- Lane i of a decoded batch is the previous result minus the lane's delta. -/
theorem decodeDeltas_getElem {E : Nat} (off : BitVec E) (zs : List (BitVec E)) (i : Nat)
    (h : i < zs.length) :
    (decodeDeltas off zs)[i]'(by simpa using h) =
      (if i = 0 then off else (decodeDeltas off zs)[i - 1]'(by simp; omega)) - unzigzag zs[i] := by
  induction zs generalizing off i with
  | nil => simp at h
  | cons z zs ih =>
    cases i with
    | zero => simp [decodeDeltas]
    | succ i =>
      have := ih (off - unzigzag z) i (by simpa using h)
      simp only [decodeDeltas, List.getElem_cons_succ]
      rw [this]
      cases i <;> simp

/-! ### Bit packer -/

theorem bitString_step (n acc : Nat) (vs : List Word) :
    vs.foldl (fun acc v => acc * 2 ^ n + v.toNat % 2 ^ n) acc =
      acc * 2 ^ (n * vs.length) + bitString n vs := by
  induction vs generalizing acc with
  | nil => simp [bitString]
  | cons v vs ih =>
    simp only [List.foldl_cons, bitString]
    rw [ih, ih (0 * 2 ^ n + v.toNat % 2 ^ n)]
    simp only [List.length_cons, Nat.mul_add, pow_add, Nat.mul_one, Nat.zero_mul, Nat.zero_add]
    ring

theorem bitString_cons (n : Nat) (v : Word) (vs : List Word) :
    bitString n (v :: vs) = v.toNat % 2 ^ n * 2 ^ (n * vs.length) + bitString n vs := by
  have := bitString_step n (0 * 2 ^ n + v.toNat % 2 ^ n) vs
  simpa [bitString] using this

theorem bitString_lt (n : Nat) (vs : List Word) : bitString n vs < 2 ^ (n * vs.length) := by
  induction vs with
  | nil => simp [bitString]
  | cons v vs ih =>
    rw [bitString_cons]
    have h1 : v.toNat % 2 ^ n < 2 ^ n := Nat.mod_lt _ (by positivity)
    have h2 : 2 ^ (n * (v :: vs).length) = 2 ^ n * 2 ^ (n * vs.length) := by
      rw [List.length_cons, Nat.mul_succ, pow_add]; ring
    rw [h2]
    nlinarith [Nat.mul_le_mul_right (2 ^ (n * vs.length)) (Nat.succ_le_of_lt h1)]

/-- The bit string's bits: bit b of value i, counted from the string's last bit. -/
theorem bitString_testBit (n : Nat) (vs : List Word) (i b : Nat) (hi : i < vs.length) (hb : b < n) :
    (bitString n vs).testBit (n * (vs.length - 1 - i) + b) = (vs[i]).getLsbD b := by
  induction vs generalizing i with
  | nil => simp at hi
  | cons v vs ih =>
    rw [bitString_cons, Nat.mul_comm (v.toNat % 2 ^ n)]
    rw [Nat.testBit_two_pow_mul_add _ (bitString_lt n vs)]
    cases i with
    | zero =>
      have : n * ((v :: vs).length - 1 - 0) + b = n * vs.length + b := by simp
      rw [this]
      simp [hb, BitVec.testBit_toNat, Nat.testBit_mod_two_pow]
    | succ i =>
      have hi' : i < vs.length := by simpa using hi
      have h1 : (v :: vs).length - 1 - (i + 1) = vs.length - 1 - i := by simp; omega
      have h2 : n * (vs.length - 1 - i) + b < n * vs.length := by
        have : vs.length - 1 - i + 1 ≤ vs.length := by omega
        calc n * (vs.length - 1 - i) + b < n * (vs.length - 1 - i) + n := by omega
          _ = n * (vs.length - 1 - i + 1) := by ring
          _ ≤ n * vs.length := Nat.mul_le_mul_left n this
      rw [h1, if_pos h2, ih i hi']
      simp

theorem chunk_getLsbD (len bits pos k b : Nat) :
    (chunk len bits pos k).getLsbD b =
      (decide (b < 64) && decide (b < k) && bits.testBit (len - pos - k + b)) := by
  simp only [chunk, BitVec.getLsbD_ofNat, Nat.testBit_mod_two_pow, Nat.testBit_shiftRight]
  cases decide (b < 64) <;> simp

@[simp] theorem packWords_length (n : Nat) (vs : List Word) : (packWords n vs).length = n := by
  simp [packWords]

@[simp] theorem unpackWords_length (n : Nat) (ws : List Word) : (unpackWords n ws).length = 64 := by
  simp [unpackWords]

/-- Bit b of value i is at stream position i·N + (N − 1 − b) (30_encoding.md R307). -/
theorem packWords_bit (n : Nat) (vs : List Word) (i b : Nat) (hl : vs.length = 64) (hi : i < 64)
    (hb : b < n) :
    ((packWords n vs).getD ((i * n + (n - 1 - b)) / 64) 0).getLsbD
        (63 - (i * n + (n - 1 - b)) % 64) = (vs.getD i 0).getLsbD b := by
  have hp : i * n + (n - 1 - b) < 64 * n := by
    have : i * n ≤ 63 * n := Nat.mul_le_mul_right n (by omega)
    omega
  generalize hpd : i * n + (n - 1 - b) = p at *
  have hj : p / 64 < n := by omega
  have hpos : 64 * n - 64 * (p / 64) - 64 + (63 - p % 64) = n * (64 - 1 - i) + b := by
    have h1 : 64 * n - 64 * (p / 64) - 64 + (63 - p % 64) = 64 * n - 1 - p := by omega
    rw [h1, ← hpd]
    have h2 : n * (64 - 1 - i) + n * i = 63 * n := by
      rw [← Nat.mul_add, Nat.mul_comm]; congr 1; omega
    have h3 : i * n = n * i := Nat.mul_comm _ _
    omega
  have hbit := bitString_testBit n vs i b (by omega) hb
  simp only [hl] at hbit
  simp only [packWords, List.getD_eq_getElem?_getD, List.getElem?_map, List.getElem?_range hj,
    Option.map_some, Option.getD_some, chunk_getLsbD, hpos, hbit]
  rw [List.getElem?_eq_getElem (by omega : i < vs.length)]
  have : 63 - p % 64 < 64 := by omega
  simp [this]

/-- Bit b of an unpacked value is its bit of the block; bits from N up are 0 (41_packer.md R501). -/
theorem unpackWords_bit (n : Nat) (ws : List Word) (i b : Nat) (hn : n ≤ 64) (hl : ws.length = n)
    (hi : i < 64) :
    ((unpackWords n ws).getD i 0).getLsbD b =
      if b < n then
        (ws.getD ((i * n + (n - 1 - b)) / 64) 0).getLsbD (63 - (i * n + (n - 1 - b)) % 64)
      else false := by
  simp only [unpackWords, List.getD_eq_getElem?_getD, List.getElem?_map, List.getElem?_range hi,
    Option.map_some, Option.getD_some, chunk_getLsbD]
  by_cases hb : b < n
  · have hb' : b < 64 := by omega
    have hp : i * n + (n - 1 - b) < 64 * n := by
      have : i * n ≤ 63 * n := Nat.mul_le_mul_right n (by omega)
      omega
    have hin : i * n + n ≤ 64 * n := by
      have : (i + 1) * n ≤ 64 * n := Nat.mul_le_mul_right n (by omega)
      rw [Nat.add_mul, Nat.one_mul] at this
      exact this
    have hq : 64 * n - i * n - n + b = 64 * n - 1 - (i * n + (n - 1 - b)) := by omega
    generalize i * n + (n - 1 - b) = p at *
    have hj : p / 64 < ws.length := by omega
    have hpos : 64 * n - 1 - p = 64 * (ws.length - 1 - p / 64) + (63 - p % 64) := by omega
    have hbit := bitString_testBit 64 ws (p / 64) (63 - p % 64) hj (by omega)
    rw [hq, hpos, hbit, List.getElem?_eq_getElem hj]
    simp [hb, hb']
  · simp [hb]

/-! ### Width selector -/

/-- `bitlen` is the least number of bits that hold a value (00_scope.md R14). -/
theorem bitlen_le (v m : Nat) : bitlen v ≤ m ↔ v < 2 ^ m := by
  unfold bitlen
  split
  · rename_i h
    subst h
    simp
  · rename_i h
    rw [Nat.succ_le_iff, Nat.log2_lt h]

theorem orFold_lt {E : Nat} (zs : List (BitVec E)) (acc : BitVec E) (m : Nat) :
    (zs.foldl (· ||| ·) acc).toNat < 2 ^ m ↔ acc.toNat < 2 ^ m ∧ ∀ z ∈ zs, z.toNat < 2 ^ m := by
  induction zs generalizing acc with
  | nil => simp
  | cons z zs ih =>
    simp only [List.foldl_cons, ih, List.mem_cons, forall_eq_or_imp, BitVec.toNat_or]
    constructor
    · rintro ⟨h, hr⟩
      have h1 : acc.toNat ≤ acc.toNat ||| z.toNat := Nat.left_le_or
      have h2 : z.toNat ≤ acc.toNat ||| z.toNat := Nat.right_le_or
      exact ⟨by omega, by omega, hr⟩
    · rintro ⟨h1, h2, hr⟩
      exact ⟨Nat.or_lt_two_pow h1 h2, hr⟩

/-- The selected width is the least one in which every value fits (42_width_codec.md R600). -/
theorem minWidth_le {E : Nat} (zs : List (BitVec E)) (m : Nat) :
    minWidth zs ≤ m ↔ ∀ z ∈ zs, z.toNat < 2 ^ m := by
  simp [minWidth, bitlen_le, orFold_lt]

theorem minWidth_le_elem {E : Nat} (zs : List (BitVec E)) : minWidth zs ≤ E :=
  (minWidth_le zs E).2 fun z _ => z.isLt

theorem elemBits_le (ew : BitVec 2) : elemBits ew ≤ 64 := by
  simp only [elemBits, Nat.shiftRight_eq_div_pow]
  exact Nat.div_le_self _ _

theorem elemBits_ge (ew : BitVec 2) : 8 ≤ elemBits ew := by
  revert ew; decide

/-- Extending an element keeps its low bits (00_scope.md R14). -/
theorem lowElem_extend64 (ew : BitVec 2) (sx : Bool) (v : BitVec (elemBits ew)) :
    lowElem ew (extend64 sx v) = v := by
  have he := elemBits_le ew
  apply BitVec.eq_of_getLsbD_eq
  intro i hi
  have h64 : i < 64 := by omega
  cases sx <;>
    simp [lowElem, extend64, sext64, zext64, BitVec.getElem_signExtend, BitVec.getElem_setWidth, hi, h64]

theorem lowElem_toNat (ew : BitVec 2) (v : Word) : (lowElem ew v).toNat = elemValue ew v := by
  simp [lowElem, elemValue, BitVec.toNat_setWidth]

/-- An element's zero extension has the element's value. -/
theorem zext64_toNat (ew : BitVec 2) (v : BitVec (elemBits ew)) : (zext64 v).toNat = v.toNat := by
  have he := elemBits_le ew
  have : v.toNat < 2 ^ 64 := Nat.lt_of_lt_of_le v.isLt (Nat.pow_le_pow_right (by decide) he)
  simp only [zext64, BitVec.toNat_setWidth]
  exact Nat.mod_eq_of_lt this

@[simp] theorem encodeBatch_length {E : Nat} (off : BitVec E) (vs : List (BitVec E)) :
    (encodeBatch off vs).2.length = (encodeBatch off vs).1 := by
  simp [encodeBatch]

theorem encodeBatch_width_le {E : Nat} (off : BitVec E) (vs : List (BitVec E)) :
    (encodeBatch off vs).1 ≤ E :=
  minWidth_le_elem _

@[simp] theorem decodeBatch_length {E : Nat} (off : BitVec E) (n : Nat) (ws : List Word) :
    (decodeBatch off n ws).length = 64 := by
  simp [decodeBatch]

end Sys2Proof.Machine
end

