-- ==== Sys2Proof/Laws/Header.lean ====
section
/-! SUPPORT. The header's slots as numbers, and what the header operations do to them (30_encoding.md
R309, 43_header.md R704, R706). -/

namespace Sys2Proof.Machine

theorem slotValue_testBit (h : Word) (k b : Nat) :
    (slotValue h k).testBit b = (decide (b < 7) && h.getLsbD (7 * k + b)) := by
  simp only [slotValue, show (128 : Nat) = 2 ^ 7 from rfl, Nat.testBit_mod_two_pow,
    Nat.testBit_div_two_pow, BitVec.testBit_toNat]
  rw [Nat.add_comm]

theorem slotValue_lt (h : Word) (k : Nat) : slotValue h k < 128 := Nat.mod_lt _ (by decide)

/-- The model's 7-bit field is the header's slot value. -/
theorem field_toNat (h : Word) (k : Nat) : (field h k).toNat = slotValue h k := by
  simp [field, slotValue, BitVec.extractLsb'_toNat, Nat.shiftRight_eq_div_pow]

/-- Slot k of two headers agree when their bits 7k..7k+6 do. -/
theorem slotValue_congr (h h' : Word) (k : Nat)
    (same : ∀ b < 7, h.getLsbD (7 * k + b) = h'.getLsbD (7 * k + b)) :
    slotValue h k = slotValue h' k := by
  apply Nat.eq_of_testBit_eq
  intro b
  simp only [slotValue_testBit]
  by_cases hb : b < 7
  · simp [hb, same b hb]
  · simp [hb]

theorem slotMask_getLsbD (b : Nat) : (0x7F : Word).getLsbD b = decide (b < 7) := by
  by_cases hb : b < 64
  · revert hb; revert b; decide
  · rw [BitVec.getLsbD_of_ge _ _ (by omega)]
    simp; omega

/-- `setfield` bit by bit: bits 7k..7k+6 are the value's, the others are kept. -/
theorem setField_getLsbD (h : Word) (k : Nat) (v : BitVec 7) (i : Nat) (hi : i < 64) :
    (setField h k v).getLsbD i =
      if 7 * k ≤ i ∧ i < 7 * k + 7 then v.getLsbD (i - 7 * k) else h.getLsbD i := by
  simp only [setField, BitVec.getLsbD_or, BitVec.getLsbD_and, BitVec.getLsbD_not,
    BitVec.getLsbD_shiftLeft, BitVec.getLsbD_setWidth, slotMask_getLsbD, hi, decide_true,
    Bool.true_and]
  by_cases h1 : i < 7 * k
  · have : ¬(7 * k ≤ i ∧ i < 7 * k + 7) := by omega
    simp [h1, this]
  · have h3 : i - 7 * k < 64 := by omega
    by_cases h2 : i < 7 * k + 7
    · have h4 : 7 * k ≤ i ∧ i < 7 * k + 7 := by omega
      have h5 : i - 7 * k < 7 := by omega
      simp [h1, h3, h4, h5]
    · have h4 : ¬(7 * k ≤ i ∧ i < 7 * k + 7) := by omega
      have h5 : ¬ i - 7 * k < 7 := by omega
      have h6 : v.getLsbD (i - 7 * k) = false := BitVec.getLsbD_of_ge _ _ (by omega)
      simp [h1, h2, h5, h6]

/-- Slots after `setfield`: the slot holds the value, the others are kept. -/
theorem setField_slotValue (h : Word) (k j : Nat) (v : BitVec 7) (hk : k ≤ 8) (hj : j ≤ 8) :
    slotValue (setField h k v) j = if j = k then v.toNat else slotValue h j := by
  by_cases hjk : j = k
  · subst hjk
    simp only [if_true]
    apply Nat.eq_of_testBit_eq
    intro b
    rw [slotValue_testBit]
    by_cases hb : b < 7
    · rw [setField_getLsbD _ _ _ _ (by omega)]
      have h4 : 7 * j ≤ 7 * j + b ∧ 7 * j + b < 7 * j + 7 := by omega
      simp [hb, BitVec.testBit_toNat]
    · have : v.getLsbD b = false := BitVec.getLsbD_of_ge _ _ (by omega)
      simp [hb, BitVec.testBit_toNat, this]
  · simp only [hjk, if_false]
    apply slotValue_congr
    intro b hb
    rw [setField_getLsbD _ _ _ _ (by omega), if_neg (by omega)]

theorem setField_flag (h : Word) (k : Nat) (v : BitVec 7) (hk : k ≤ 8) :
    (setField h k v).getLsbD 63 = h.getLsbD 63 := by
  rw [setField_getLsbD _ _ _ _ (by omega), if_neg (by omega)]

theorem fullFlag_getLsbD (i : Nat) : fullFlag.getLsbD i = decide (i = 63) := by
  by_cases hb : i < 64
  · revert hb; revert i; decide
  · rw [BitVec.getLsbD_of_ge _ _ (by omega)]
    simp; omega

theorem fullFlag_slotValue (h : Word) (j : Nat) (hj : j ≤ 8) :
    slotValue (h ||| fullFlag) j = slotValue h j := by
  apply slotValue_congr
  intro b hb
  rw [BitVec.getLsbD_or, fullFlag_getLsbD]
  have : ¬ 7 * j + b = 63 := by omega
  simp [this]

theorem lowMask_getLsbD (i : Nat) : (0x00FFFFFFFFFFFFFF : Word).getLsbD i = decide (i < 56) := by
  by_cases hb : i < 64
  · revert hb; revert i; decide
  · rw [BitVec.getLsbD_of_ge _ _ (by omega)]
    simp; omega

theorem setTailCount_getLsbD (h : Word) (r : BitVec 8) (i : Nat) (hi : i < 64) :
    (setTailCount h r).getLsbD i = if i < 56 then h.getLsbD i else r.getLsbD (i - 56) := by
  rw [setTailCount, BitVec.getLsbD_or, BitVec.getLsbD_and, lowMask_getLsbD,
    BitVec.getLsbD_shiftLeft, BitVec.getLsbD_setWidth]
  by_cases h1 : i < 56
  · simp [h1]
  · have : i - 56 < 64 := by omega
    simp [h1, hi, this]

theorem setTailCount_slotValue (h : Word) (r : BitVec 8) (j : Nat) (hj : j ≤ 7) :
    slotValue (setTailCount h r) j = slotValue h j := by
  apply slotValue_congr
  intro b hb
  rw [setTailCount_getLsbD _ _ _ (by omega), if_pos (by omega)]

theorem tailCount_eq (h : Word) : tailCount h = h.toNat / 2 ^ 56 := by
  have : h.toNat < 2 ^ 64 := h.isLt
  simp only [tailCount, BitVec.extractLsb'_toNat, Nat.shiftRight_eq_div_pow]
  omega

theorem tailCount_setTailCount (h : Word) (r : BitVec 8) :
    tailCount (setTailCount h r) = r.toNat := by
  have : (setTailCount h r).extractLsb' 56 8 = r := by
    apply BitVec.eq_of_getLsbD_eq
    intro i hi
    rw [BitVec.getLsbD_extractLsb', setTailCount_getLsbD _ _ _ (by omega), if_neg (by omega)]
    simp [hi]
  rw [tailCount, this]

/-- The sentinel fill of `FINISH_PARTIAL` over slots 0..m-1. -/
theorem sentinelFill_slotValue (h : Word) (k m j : Nat) (hm : m ≤ 9) (hj : j ≤ 8) :
    slotValue
      ((List.range m).foldl (fun h s => if k ≤ s then setField h s Config.sentinel else h) h) j =
      if k ≤ j ∧ j < m then 127 else slotValue h j := by
  induction m with
  | zero => simp
  | succ m ih =>
    rw [List.range_succ, List.foldl_append]
    simp only [List.foldl_cons, List.foldl_nil]
    have ih' := ih (by omega)
    by_cases hk : k ≤ m
    · rw [if_pos hk, setField_slotValue _ _ _ _ (by omega) hj, ih']
      by_cases hjm : j = m
      · have : k ≤ j ∧ j < m + 1 := by omega
        simp only [hjm, if_true]
        rw [if_pos (by omega)]
        rfl
      · by_cases h2 : k ≤ j ∧ j < m
        · simp only [hjm, if_false]
          rw [if_pos h2, if_pos (by omega)]
        · simp only [hjm, if_false]
          rw [if_neg h2, if_neg (by omega)]
    · rw [if_neg hk, ih']
      by_cases h2 : k ≤ j ∧ j < m
      · rw [if_pos h2, if_pos (by omega)]
      · rw [if_neg h2, if_neg (by omega)]

/-- `FINISH_PARTIAL`: slots below k kept, k..7 the sentinel (43_header.md R704). -/
theorem finishPartial_slotValue (h : Word) (k : Nat) (r : BitVec 8) (j : Nat) (hj : j ≤ 7) :
    slotValue (finishPartial h k r) j = if k ≤ j then 127 else slotValue h j := by
  rw [finishPartial, setTailCount_slotValue _ _ _ hj,
    sentinelFill_slotValue _ _ _ _ (by decide) (by omega)]
  by_cases hk : k ≤ j
  · rw [if_pos hk, if_pos ⟨hk, by show j < 9; omega⟩]
  · rw [if_neg hk, if_neg (by omega)]

theorem finishPartial_tailCount (h : Word) (k : Nat) (r : BitVec 8) :
    tailCount (finishPartial h k r) = r.toNat := tailCount_setTailCount _ _

theorem finishPartial_flag (h : Word) (k : Nat) (r : BitVec 8) :
    (finishPartial h k r).getLsbD 63 = r.getLsbD 7 := by
  rw [finishPartial, setTailCount_getLsbD _ _ _ (by omega), if_neg (by omega)]

theorem field_eq_sentinel (h : Word) (k : Nat) : field h k = Config.sentinel ↔ slotValue h k = 127 := by
  rw [← field_toNat]
  constructor
  · intro e; rw [e]; rfl
  · intro e; exact BitVec.eq_of_toNat_eq (by rw [e]; rfl)

/-- `CLASSIFY` in slot values (43_header.md R706). -/
theorem classify_eq (h : Word) (k : Nat) :
    classify h k =
      if h.getLsbD 63 = false ∧ (k = 8 ∨ slotValue h k = 127) then .terminal (h.toNat / 2 ^ 56)
      else if slotValue h k ≤ 64 then .block (slotValue h k)
      else .invalid := by
  simp only [classify, field_eq_sentinel, field_toNat, tailCount_eq]

/-- A terminal slot's count is at most 127 (30_encoding.md R312). -/
theorem classify_terminal_le (h : Word) (k r : Nat) (hc : classify h k = .terminal r) : r ≤ 127 := by
  rw [classify_eq] at hc
  split at hc
  · rename_i hf
    cases hc
    have h1 : h.toNat < 2 ^ 64 := h.isLt
    have h2 : h.toNat.testBit 63 = false := by rw [BitVec.testBit_toNat]; exact hf.1
    have h3 : h.toNat / 2 ^ 63 % 2 = 0 := by
      have := Nat.testBit_eq_decide_div_mod_eq (x := h.toNat) (i := 63)
      rw [h2] at this
      have h4 := of_decide_eq_false this.symm
      omega
    omega
  · split at hc <;> cases hc

theorem classify_block_le (h : Word) (k n : Nat) (hc : classify h k = .block n) :
    n ≤ 64 ∧ n = slotValue h k := by
  rw [classify_eq] at hc
  split at hc
  · cases hc
  · split at hc
    · cases hc
      exact ⟨by assumption, rfl⟩
    · cases hc

theorem widthSum_succ (h : Word) (k : Nat) : widthSum h (k + 1) = widthSum h k + slotValue h k := by
  simp [widthSum, List.range_succ]

theorem widthSum_congr (h h' : Word) (k : Nat) (same : ∀ j < k, slotValue h j = slotValue h' j) :
    widthSum h k = widthSum h' k := by
  induction k with
  | zero => rfl
  | succ k ih =>
    rw [widthSum_succ, widthSum_succ, ih fun j hj => same j (by omega), same k (by omega)]

theorem widthSum_le (h : Word) (k m : Nat) (le : ∀ j < k, slotValue h j ≤ m) :
    widthSum h k ≤ k * m := by
  induction k with
  | zero => simp [widthSum]
  | succ k ih =>
    rw [widthSum_succ, Nat.succ_mul]
    have := ih fun j hj => le j (by omega)
    have := le k (by omega)
    omega

end Sys2Proof.Machine
end

