-- ==== Sys2Proof/Laws/Ports.lean ====
section
/-! SUPPORT. What the shared operations on the ports, the aperture and the schedule can do, said once. -/

namespace Sys2Proof.Machine

/-! ### Ports -/

/-- A page handed to the sink: the engine holds when no answer is ready, else it goes on with the first. -/
theorem sinkWrite_cases (call : SinkCall) (bytes : List Byte) (go : SinkReply → State → State)
    (s : State) :
    (s.sink.replies = [] ∧ sinkWrite call bytes go s = s.hold (.sinkWait call bytes)) ∨
      ∃ r rest, s.sink.replies = r :: rest ∧
        sinkWrite call bytes go s = go r (s.putSink { s.sink with replies := rest }) := by
  cases h : s.sink.replies with
  | nil => exact .inl ⟨rfl, by simp [sinkWrite, h]⟩
  | cons r rest => exact .inr ⟨r, rest, rfl, by simp [sinkWrite, h]⟩

/-- A read of the source: the engine holds when no answer is ready, else it goes on with the first. -/
theorem srcRead_cases (call : SourceCall) (go : SourceAnswer → State → State) (s : State) :
    (s.source.replies = [] ∧ srcRead call go s = s.hold (.sourceWait call)) ∨
      ∃ r rest, s.source.replies = r :: rest ∧
        srcRead call go s =
          go ({ s.source with replies := rest }.answer call.request r).1
            (s.putSource ({ s.source with replies := rest }.answer call.request r).2) := by
  cases h : s.source.replies with
  | nil => exact .inl ⟨rfl, by simp [srcRead, h]⟩
  | cons r rest => exact .inr ⟨r, rest, rfl, by simp [srcRead, h]⟩

/-- The source's answer keeps the answers it has ready, and a source that has ended has no byte left. -/
theorem answer_keeps (k : Source) (n : Nat) (r : SourceReply) :
    (k.answer n r).2.replies = k.replies ∧
      ((k.ended = true → k.bytes = []) →
        (k.answer n r).2.ended = true → (k.answer n r).2.bytes = []) := by
  unfold Source.answer
  split
  · exact ⟨rfl, fun h => h⟩
  · rename_i he
    cases r with
    | deliver =>
      simp only
      split
      · exact ⟨rfl, fun _ h => absurd h he⟩
      · exact ⟨rfl, fun _ _ => rfl⟩
    | fail lost => exact ⟨rfl, fun _ h => absurd h he⟩

/-- A page's answer ends its command: the writer keeps its width and last value, and nothing changes but
the writer, the sink, WIDTH, RESULT and BUSY. -/
theorem sinkReturn_frame (call : SinkCall) (bytes : List Byte) (r : SinkReply) (s : State) :
    ∃ w k v c, sinkReturn call bytes r s =
      { s with writer := w, sink := k, width := v, result := c, phase := .idle } ∧
      k.replies = s.sink.replies ∧ w.last = s.writer.last ∧ w.ew = s.writer.ew := by
  unfold sinkReturn
  cases r.succeeds bytes <;> cases call <;> exact ⟨_, _, _, _, rfl, rfl, rfl, rfl⟩

/-! ### Aperture -/

theorem regAt_byteOffset (r : Reg) : regAt (BitVec.ofNat 12 r.byteOffset) = some r := by
  cases r with
  | vbuf i => revert i; decide
  | pbuf j => revert j; decide
  | _ => decide

/-- A register lies at each offset the map names (20_memory.md R201). -/
theorem byteOffset_of_regAt (off : BitVec 12) (r : Reg) (h : regAt off = some r) :
    off.toNat = r.byteOffset := by
  have hv : Config.vbufLen = 128 := rfl
  unfold regAt at h
  simp only at h
  split at h
  · cases h
  · rename_i hm
    split at h
    · rename_i hk
      have hlist : ∀ k, ∀ q, controlRegs[k]? = some q → q.byteOffset = 8 * k := by
        intro k q hq
        have hlt : k < 14 := by
          by_contra hc
          rw [List.getElem?_eq_none (by simp [controlRegs]; omega)] at hq
          cases hq
        revert hq; revert q; revert hlt; revert k
        decide
      have := hlist _ _ h
      omega
    · split at h
      · cases h
        simp only [Reg.byteOffset]
        omega
      · split at h
        · cases h
          simp only [Reg.byteOffset]
          omega
        · cases h

theorem byteOffset_lt (r : Reg) : r.byteOffset < 4096 := by
  cases r with
  | vbuf i => have := i.isLt; simp only [Reg.byteOffset]; simp only [Config.vbufLen] at this; omega
  | pbuf j => have := j.isLt; simp only [Reg.byteOffset]; simp only [Config.pbufLen] at this; omega
  | _ => decide

/-- An offset names a register exactly when it is that register's offset (20_memory.md R201, R202). -/
theorem regAt_eq_some (off : BitVec 12) (r : Reg) : regAt off = some r ↔ off.toNat = r.byteOffset := by
  constructor
  · exact byteOffset_of_regAt off r
  · intro h
    have : off = BitVec.ofNat 12 r.byteOffset := by
      apply BitVec.eq_of_toNat_eq
      rw [h, BitVec.toNat_ofNat, Nat.mod_eq_of_lt (byteOffset_lt r)]
    rw [this]
    exact regAt_byteOffset r

/-- STATUS's bit 0 is BUSY (10_state.md R102). -/
theorem statusWord_bit0 (s : State) : (statusWord s).getLsbD 0 = s.busy := by
  have h : ∀ b o : Bool, ∀ c : BitVec 4,
      (BitVec.ofNat 64 (bit b + c.toNat <<< 4 + bit o <<< 8)).getLsbD 0 = b := by decide
  exact h _ _ _

/-- A read puts a value on the bus; only the free-value counter may change beside it. -/
theorem hostRead_bus (r : Reg) (s : State) :
    ∃ w f, hostRead r s = { s with bus := .data w, freeReads := f } := by
  unfold hostRead
  split
  · exact ⟨_, _, rfl⟩
  · exact ⟨_, s.freeReads, rfl⟩

/-- A read of STATUS returns it, BUSY or not (46_control.md R1002). -/
theorem hostRead_status (s : State) : hostRead .status s = { s with bus := .data (statusWord s) } := by
  simp [hostRead, readReg]

/-- A host access faults when it is not admitted; else it is the read or the write of the register it
reaches, its value presented as asked for (20_memory.md R202, R206). -/
theorem hostAccess_cases (a : Access) (s : State) :
    (a.target = none ∧ hostAccess a s = .fault .busError) ∨
      ∃ r, a.target = some r ∧
        ((∃ bits off, a = .read bits off ∧ hostAccess a s = .next (hostRead r s)) ∨
          (∃ n off w, a = .readLanes n off ∧ (hostRead r s).bus = .data w ∧
            hostAccess a s = .next { hostRead r s with bus := .lanes (ser s.byteOrder w) }) ∨
          ∃ v, ((∃ bits off, a = .write bits off v) ∨
              ∃ off b, a = .writeLanes off b ∧ v = deser s.byteOrder b) ∧
            hostAccess a s = .next (hostWrite r v s)) := by
  cases h : a.target with
  | none => exact .inl ⟨rfl, by simp [hostAccess, h]⟩
  | some r =>
    refine .inr ⟨r, rfl, ?_⟩
    cases a with
    | read bits off => exact .inl ⟨bits, off, rfl, by simp [hostAccess, h]⟩
    | write bits off v => exact .inr (.inr ⟨v, .inl ⟨bits, off, rfl⟩, by simp [hostAccess, h]⟩)
    | readLanes n off =>
      obtain ⟨w, f, hr⟩ := hostRead_bus r s
      exact .inr (.inl ⟨n, off, w, rfl, by rw [hr], by simp [hostAccess, h, asLanes, hr]⟩)
    | writeLanes off b =>
      exact .inr (.inr ⟨_, .inr ⟨off, b, rfl, rfl⟩, by simp [hostAccess, h]⟩)

@[simp] theorem readOf_target (r : Reg) : (readOf r).target = some r := by
  simp [readOf, Access.target, regAt_byteOffset]

@[simp] theorem writeOf_target (r : Reg) (v : Word) : (writeOf r v).target = some r := by
  simp [writeOf, Access.target, regAt_byteOffset]

@[simp] theorem hostAccess_readOf (r : Reg) (s : State) :
    hostAccess (readOf r) s = .next (hostRead r s) := by
  unfold hostAccess; rw [readOf_target]; rfl

@[simp] theorem hostAccess_writeOf (r : Reg) (v : Word) (s : State) :
    hostAccess (writeOf r v) s = .next (hostWrite r v s) := by
  unfold hostAccess; rw [writeOf_target]; rfl

/-! ### The host's program -/

/-- A command's word is `enc` of its mnemonic and its SLOT operand, 0 when it has none
(30_encoding.md R317). -/
theorem encode_eq_enc (i : Instr) : ∃ m, encode i = enc m (BitVec.ofNat 64 (i.slot?.getD 0)) := by
  cases i
  case nop => exact ⟨.nop, rfl⟩
  case xenc => exact ⟨.xenc, rfl⟩
  case xdec => exact ⟨.xdec, rfl⟩
  case minw => exact ⟨.minw, rfl⟩
  case pack => exact ⟨.pack, rfl⟩
  case unpack => exact ⟨.unpack, rfl⟩
  case benc => exact ⟨.benc, rfl⟩
  case bdec => exact ⟨.bdec, rfl⟩
  case hset => exact ⟨.hset, rfl⟩
  case hget => exact ⟨.hget, rfl⟩
  case hfull => exact ⟨.hfull, rfl⟩
  case hpart => exact ⟨.hpart, rfl⟩
  case hclass => exact ⟨.hclass, rfl⟩
  case winit => exact ⟨.winit, rfl⟩
  case wbatch => exact ⟨.wbatch, rfl⟩
  case wflush => exact ⟨.wflush, rfl⟩
  case rinit => exact ⟨.rinit, rfl⟩
  case rbatch => exact ⟨.rbatch, rfl⟩

/-- Everything a host's turn can do (30_encoding.md R317): a wait goes on only when BUSY = 0. -/
theorem hostTurn_cases (s : State) :
    (s.host.program = [] ∧ hostTurn s = .next s) ∨
      ∃ m rest, s.host.program = m :: rest ∧
        ((∃ r v, m = .write r v ∧ hostTurn s = .next ((hostWrite r v s).putProgram rest)) ∨
          (∃ r, m = .read r ∧ hostTurn s = .next ((hostRead r s).putProgram rest)) ∨
          (m = .await ∧ hostTurn s =
            .next (if s.busy then hostRead .status s else (hostRead .status s).putProgram rest)) ∨
          ∃ r v, m = .expect r v ∧ hostTurn s =
            .next { hostRead r s with
              host := ⟨rest, (hostRead r s).host.claims ++ [((hostRead r s).bus, v)]⟩ }) := by
  cases h : s.host.program with
  | nil => exact .inl ⟨rfl, by simp [hostTurn, h]⟩
  | cons m rest =>
    refine .inr ⟨m, rest, rfl, ?_⟩
    cases m with
    | write r v =>
      exact .inl ⟨r, v, rfl, by simp [hostTurn, h, HostMove.access, HostMove.goOn]⟩
    | read r => exact .inr (.inl ⟨r, rfl, by simp [hostTurn, h, HostMove.access, HostMove.goOn]⟩)
    | await =>
      refine .inr (.inr (.inl ⟨rfl, ?_⟩))
      simp only [hostTurn, h, HostMove.access, HostMove.goOn, hostAccess_readOf, hostRead_status,
        BusReply.bit0Clear, statusWord_bit0]
      cases s.busy <;> rfl
    | expect r v =>
      exact .inr (.inr (.inr ⟨r, v, rfl, by simp [hostTurn, h, HostMove.access, HostMove.goOn]⟩))

/-- Whatever the host does, in its program or beside it, is a write of a register, or changes only the bus's
answer, the free-value counter and the host's own state. -/
theorem hostMove_frame (s t : State) (h : (∃ a, hostAccess a s = .next t) ∨ hostTurn s = .next t) :
    (∃ b f p, t = { s with bus := b, freeReads := f, host := p }) ∨
      ∃ r v p, t = { hostWrite r v s with host := p } := by
  rcases h with ⟨a, h⟩ | h
  · rcases hostAccess_cases a s with
      ⟨-, e⟩ | ⟨r, -, ⟨_, _, -, e⟩ | ⟨_, _, w, -, -, e⟩ | ⟨v, -, e⟩⟩ <;> rw [e] at h <;> cases h
    · obtain ⟨w, f, hr⟩ := hostRead_bus r s
      exact .inl ⟨_, f, s.host, hr⟩
    · obtain ⟨_, f, hr⟩ := hostRead_bus r s
      exact .inl ⟨_, f, s.host, by rw [hr]⟩
    · exact .inr ⟨r, v, _, rfl⟩
  · rcases hostTurn_cases s with
      ⟨-, e⟩ | ⟨m, rest, -, ⟨r, v, -, e⟩ | ⟨r, -, e⟩ | ⟨-, e⟩ | ⟨r, v, -, e⟩⟩ <;> rw [e] at h <;> cases h
    · exact .inl ⟨s.bus, s.freeReads, s.host, rfl⟩
    · exact .inr ⟨r, v, _, rfl⟩
    · obtain ⟨w, f, hr⟩ := hostRead_bus r s
      exact .inl ⟨_, f, _, by rw [hr]; rfl⟩
    · refine .inl ⟨.data (statusWord s), s.freeReads, ?_⟩
      rw [hostRead_status]
      cases s.busy
      · exact ⟨_, rfl⟩
      · exact ⟨s.host, rfl⟩
    · obtain ⟨w, f, hr⟩ := hostRead_bus r s
      exact .inl ⟨_, f, _, by rw [hr]⟩

/-- The host's turn never faults: its program makes admitted accesses only. -/
theorem hostTurn_next (s : State) : ∃ t, hostTurn s = .next t := by
  rcases hostTurn_cases s with
    ⟨-, e⟩ | ⟨m, rest, -, ⟨r, v, -, e⟩ | ⟨r, -, e⟩ | ⟨-, e⟩ | ⟨r, v, -, e⟩⟩ <;> exact ⟨_, e⟩

/-! ### Schedule -/

/-- Everything one step can do: run the accepted command, give the host its turn, or let the first event
happen. -/
theorem step_cases (s : State) :
    (s.phase = .accepted ∧ s.schedule = [] ∧ step s = runCommand s) ∨
      (s.phase = .accepted ∧ ∃ rest, s.schedule = .engine :: rest ∧
        step s = runCommand { s with schedule := rest }) ∨
      (s.phase ≠ .accepted ∧ s.schedule = [] ∧ step s = hostTurn s) ∨
      (∃ e rest, s.schedule = e :: rest ∧ ¬(s.phase = .accepted ∧ e = .engine) ∧
        step s = event e { s with schedule := rest }) := by
  cases hs : s.schedule with
  | nil =>
    by_cases hp : s.phase = .accepted
    · exact .inl ⟨hp, rfl, by simp [step, nextMove, hs, hp]⟩
    · exact .inr (.inr (.inl ⟨hp, rfl, by simp [step, nextMove, hs, hp]⟩))
  | cons e rest =>
    by_cases he : s.phase = .accepted ∧ e = .engine
    · exact .inr (.inl ⟨he.1, rest, by rw [he.2], by simp [step, nextMove, hs, he.1, he.2]⟩)
    · exact .inr (.inr (.inr ⟨e, rest, rfl, he, by
        simp only [step, nextMove, hs, if_neg he]⟩))

/-- The first event happens, unless it is the engine's turn to run an accepted command. -/
theorem step_event (s : State) (e : Event) (rest : List Event) (h : s.schedule = e :: rest)
    (he : e ≠ .engine ∨ s.phase ≠ .accepted) : step s = event e { s with schedule := rest } := by
  have : ¬(s.phase = .accepted ∧ e = .engine) := by
    rcases he with he | he <;> simp [he]
  simp only [step, nextMove, h, if_neg this]

/-- The engine's command is exec of what CMD decodes to, or the illegal command. -/
theorem runCommand_cases (s : State) :
    (∃ i, decode s.cmd = .ok i ∧ runCommand s = exec i s) ∨
      ∃ e, decode s.cmd = .error e ∧
        runCommand s = .next { s with result := .illegalCmd, phase := .idle } := by
  cases h : decode s.cmd with
  | ok i => exact .inl ⟨i, rfl, by simp [runCommand, commandWord, h]⟩
  | error e => exact .inr ⟨e, rfl, by simp [runCommand, commandWord, h]; rfl⟩

end Sys2Proof.Machine
end

