-- ==== Sys2Proof/Laws/Commands.lean ====
section
/-! SUPPORT. The commands' meanings as equations, and what the operations the page commands and the host's
accesses share can do, so that no proof unfolds a meaning. -/

namespace Sys2Proof.Machine

variable (s : State)

/-! ### Transform, packer, codec -/

theorem exec_xenc : exec .xenc s = .next (conclude .ok (s.putVbuf
    ((encodeDeltas (lowElem s.cfgEW s.offset) (batchElems s.cfgEW s)).map zext64))) := rfl

theorem exec_xdec : exec .xdec s = .next (conclude .ok (s.putVbuf
    ((decodeDeltas (lowElem s.cfgEW s.offset) (batchElems s.cfgEW s)).map
      (extend64 s.cfgSX)))) := rfl

theorem exec_minw : exec .minw s = .next (conclude .ok (s.putWidth
    (BitVec.ofNat 64 (minWidth (batchElems s.cfgEW s))))) := rfl

theorem exec_benc : exec .benc s = .next (conclude .ok
    ((s.putPbuf (encodeBatch (lowElem s.cfgEW s.offset) (batchElems s.cfgEW s)).2).putWidth
      (BitVec.ofNat 64 (encodeBatch (lowElem s.cfgEW s.offset) (batchElems s.cfgEW s)).1))) := rfl

theorem exec_bdec : exec .bdec s =
    if elemBits s.cfgEW < s.width.toNat then .next (conclude .invalidWidth s)
    else .next (conclude .ok (s.putVbuf
      ((decodeBatch (lowElem s.cfgEW s.offset) s.width.toNat
        (packedWords s s.width.toNat)).map (extend64 s.cfgSX)))) := rfl

theorem exec_pack (h : s.width.toNat ≤ 64) : exec .pack s =
    .next (conclude .ok (s.putPbuf (packWords s.width.toNat (batchLanes s)))) := by
  show execPack s = _
  rw [execPack, if_neg (by omega), finish_eq_conclude]

theorem exec_unpack (h : s.width.toNat ≤ 64) : exec .unpack s =
    .next (conclude .ok (s.putVbuf
      (unpackWords s.width.toNat (packedWords s s.width.toNat)))) := by
  show execUnpack s = _
  simp only [execUnpack, if_neg (show ¬64 < s.width.toNat by omega), finish_eq_conclude]

/-! ### Page reader -/

/-- A delivered block, field by field (45_reader.md R905). -/
theorem deliverBlock_eq (n slot : Nat) (ws : List Word) : deliverBlock n slot ws s =
    { s with
      vbuf := overwrite s.vbuf
        ((decodeBatch (lowElem s.reader.ew s.reader.last) n ws).map (extend64 s.reader.sx))
      count := 64
      width := BitVec.ofNat 64 n
      reader :=
        { s.reader with
          last := zext64 ((decodeBatch (lowElem s.reader.ew s.reader.last) n ws).getLastD 0)
          slot := BitVec.ofNat 4 (slot + 1) }
      result := .ok
      phase := .idle } := by
  simp only [deliverBlock]
  simp only [finish, conclude, State.putWidth, State.putCount, State.putVbuf, State.putReader]

/-- A delivered raw tail, field by field (45_reader.md R904). -/
theorem deliverTail_eq (count : Nat) (ws : List Word) : deliverTail count ws s =
    { s with
      vbuf := overwrite s.vbuf (ws.map fun w => extend64 s.reader.sx (lowElem s.reader.ew w))
      count := BitVec.ofNat 64 count
      reader := { s.reader with slot := 9, state := .done }
      result := .tail
      phase := .idle } := rfl

/-- RBATCH from the slot on changes the reader, the source, VBUF, COUNT, WIDTH and RESULT at most, and
ends unless the source has no answer ready. -/
theorem readSlot_frame : ∃ r src vb c w rs p,
    readSlot s =
      { s with reader := r, source := src, vbuf := vb, count := c, width := w, result := rs,
               phase := p } ∧
      (p = .idle ∨ (s.source.replies = [] ∧ ∃ q, p = .sourceWait q)) := by
  unfold readSlot
  split
  · rename_i r hc
    unfold readTail
    split
    · exact ⟨_, s.source, _, _, s.width, _, _, deliverTail_eq _ _ _, .inl rfl⟩
    · rcases srcRead_cases (.tail r) (tailAnswer r) s with ⟨h, e⟩ | ⟨q, rest, h, e⟩
      · exact ⟨s.reader, s.source, s.vbuf, s.count, s.width, s.result, _, e, .inr ⟨h, _, rfl⟩⟩
      · rw [e]
        unfold tailAnswer
        split
        · exact ⟨_, _, s.vbuf, s.count, s.width, _, _, rfl, .inl rfl⟩
        · exact ⟨_, _, s.vbuf, s.count, s.width, _, _, rfl, .inl rfl⟩
        · exact ⟨_, _, _, _, s.width, _, _, deliverTail_eq _ _ _, .inl rfl⟩
  · rename_i n hc
    unfold readBlock
    split
    · exact ⟨_, s.source, s.vbuf, s.count, s.width, _, _, rfl, .inl rfl⟩
    · split
      · exact ⟨_, s.source, _, _, _, _, _, deliverBlock_eq _ _ _ _, .inl rfl⟩
      · rcases srcRead_cases (.block n s.reader.slot.toNat) (blockAnswer n s.reader.slot.toNat) s with
          ⟨h, e⟩ | ⟨q, rest, h, e⟩
        · exact ⟨s.reader, s.source, s.vbuf, s.count, s.width, s.result, _, e, .inr ⟨h, _, rfl⟩⟩
        · rw [e]
          unfold blockAnswer
          split
          · exact ⟨_, _, s.vbuf, s.count, s.width, _, _, rfl, .inl rfl⟩
          · exact ⟨_, _, s.vbuf, s.count, s.width, _, _, rfl, .inl rfl⟩
          · exact ⟨_, _, _, _, _, _, _, deliverBlock_eq _ _ _ _, .inl rfl⟩
  · exact ⟨_, s.source, s.vbuf, s.count, s.width, _, _, rfl, .inl rfl⟩

/-- An answer of the source changes the same fields at most. -/
theorem sourceReturn_frame (call : SourceCall) (a : SourceAnswer) : ∃ r src vb c w rs p,
    sourceReturn call a s =
      { s with reader := r, source := src, vbuf := vb, count := c, width := w, result := rs,
               phase := p } ∧
      (p = .idle ∨ (s.source.replies = [] ∧ ∃ q, p = .sourceWait q)) := by
  cases call with
  | header =>
    cases a with
    | ok b =>
      obtain ⟨r, src, vb, c, w, rs, p, e, hp⟩ :=
        readSlot_frame (s.putReader { s.reader with hdr := deser s.byteOrder b, slot := 0 })
      exact ⟨r, src, vb, c, w, rs, p, e, hp⟩
    | eof b =>
      cases b <;> exact ⟨_, s.source, s.vbuf, s.count, s.width, _, _, rfl, .inl rfl⟩
    | err => exact ⟨_, s.source, s.vbuf, s.count, s.width, _, _, rfl, .inl rfl⟩
  | tail n =>
    cases a with
    | ok b => exact ⟨_, s.source, _, _, s.width, _, _, deliverTail_eq _ _ _, .inl rfl⟩
    | eof b => exact ⟨_, s.source, s.vbuf, s.count, s.width, _, _, rfl, .inl rfl⟩
    | err => exact ⟨_, s.source, s.vbuf, s.count, s.width, _, _, rfl, .inl rfl⟩
  | block n k =>
    cases a with
    | ok b => exact ⟨_, s.source, _, _, _, _, _, deliverBlock_eq _ _ _ _, .inl rfl⟩
    | eof b => exact ⟨_, s.source, s.vbuf, s.count, s.width, _, _, rfl, .inl rfl⟩
    | err => exact ⟨_, s.source, s.vbuf, s.count, s.width, _, _, rfl, .inl rfl⟩

/-! ### Page writer -/

/-- A page handed to the sink changes the writer, the sink, WIDTH and RESULT at most, and its command
ends unless the sink has no answer ready. -/
theorem sinkWrite_frame (call : SinkCall) (bytes : List Byte) : ∃ w k v c p,
    sinkWrite call bytes (sinkReturn call bytes) s =
      { s with writer := w, sink := k, width := v, result := c, phase := p } ∧
      (p = .idle ∨ (s.sink.replies = [] ∧ p = .sinkWait call bytes)) := by
  rcases sinkWrite_cases call bytes (sinkReturn call bytes) s with ⟨h, e⟩ | ⟨r, rest, h, e⟩
  · exact ⟨s.writer, s.sink, s.width, s.result, _, e, .inr ⟨h, rfl⟩⟩
  · obtain ⟨w, k, v, c, e2, -⟩ :=
      sinkReturn_frame call bytes r (s.putSink { s.sink with replies := rest })
    exact ⟨w, k, v, c, .idle, by rw [e, e2]; rfl, .inl rfl⟩

/-! ### Host accesses -/

/-- A host write changes no context, port or schedule; it can only take the block from idle to a command
accepted; and while a command is in progress it changes OVR at most. -/
theorem hostWrite_frame (r : Reg) (v : Word) :
    (hostWrite r v s).writer = s.writer ∧ (hostWrite r v s).reader = s.reader ∧
      (hostWrite r v s).byteOrder = s.byteOrder ∧ (hostWrite r v s).sink = s.sink ∧
      (hostWrite r v s).source = s.source ∧ (hostWrite r v s).schedule = s.schedule ∧
      ((hostWrite r v s).phase = s.phase ∨
        (s.phase = .idle ∧ (hostWrite r v s).phase = .accepted)) ∧
      (s.phase ≠ .idle → ∃ o, hostWrite r v s = { s with ovr := o, bus := .written }) := by
  unfold hostWrite
  split
  · exact ⟨rfl, rfl, rfl, rfl, rfl, rfl, .inl rfl, fun _ => ⟨_, rfl⟩⟩
  · rename_i hb
    by_cases hp : s.phase = .idle
    · cases r <;> simp only [writeReg, writeStatus, issue] <;> (try split) <;>
        simp [hp, State.putWidth, State.putCount, State.putHdr]
    · have hr : r = .status := by
        by_contra hr
        exact hb ⟨by simp [State.busy, hp], hr⟩
      subst hr
      simp only [writeReg, writeStatus]
      split
      · exact ⟨rfl, rfl, rfl, rfl, rfl, rfl, .inl rfl, fun _ => ⟨false, rfl⟩⟩
      · exact ⟨rfl, rfl, rfl, rfl, rfl, rfl, .inl rfl, fun _ => ⟨s.ovr, rfl⟩⟩

@[simp] theorem hostWrite_host (r : Reg) (v : Word) : (hostWrite r v s).host = s.host := by
  unfold hostWrite
  split
  · rfl
  · cases r <;> simp only [writeReg, writeStatus] <;> (try split) <;> rfl

/-! ### The Word transfer format -/

theorem ser_length (o : ByteOrder) (w : Word) : (ser o w).length = 8 := by
  cases o <;> simp [ser]

theorem serWords_length (o : ByteOrder) (ws : List Word) :
    (serWords o ws).length = 8 * ws.length := by
  induction ws with
  | nil => rfl
  | cons w ws ih =>
    simp only [serWords, List.flatMap_cons, List.length_append, ser_length, List.length_cons] at *
    omega

end Sys2Proof.Machine
end

