-- ==== Sys2Proof/Laws/Encoding.lean ====
section
/-! SUPPORT. The fields of a command word as numbers (30_encoding.md R300, R301). -/

namespace Sys2Proof

theorem opField_eq (c : Word) : opField c = c.toNat % 64 := by
  simp [opField, BitVec.extractLsb'_toNat]

theorem slotField_eq (c : Word) : slotField c = c.toNat / 256 % 16 := by
  simp [slotField, BitVec.extractLsb'_toNat, Nat.shiftRight_eq_div_pow]

theorem reservedClear_iff (c : Word) :
    reservedClear c = true ↔ c.toNat / 64 % 4 = 0 ∧ c.toNat / 4096 = 0 := by
  have : c.toNat < 2 ^ 64 := c.isLt
  simp [reservedClear, BitVec.toNat_eq, BitVec.extractLsb'_toNat, Nat.shiftRight_eq_div_pow]
  omega

theorem opcode_lt (i : Instr) : i.opcode < 64 := by
  cases i <;> simp [Instr.opcode]

theorem slot_lt (i : Instr) (h : i.wellFormed = true) : i.slot?.getD 0 < 16 := by
  revert h
  unfold Instr.wellFormed
  cases i.slot? <;> simp

/-- The word of a well-formed command as a number: `OP + 256 · SLOT` (30_encoding.md R317). -/
theorem encode_toNat (i : Instr) (h : i.wellFormed = true) :
    (encode i).toNat = i.opcode + 256 * (i.slot?.getD 0) := by
  have h1 := slot_lt i h
  have h2 := opcode_lt i
  simp only [encode, BitVec.toNat_or, BitVec.toNat_shiftLeft, BitVec.toNat_ofNat]
  generalize i.opcode = a at *
  generalize i.slot?.getD 0 = b at *
  rw [Nat.mod_eq_of_lt (by omega), Nat.mod_eq_of_lt (by omega : b < 2 ^ 64), Nat.shiftLeft_eq,
    Nat.mod_eq_of_lt (by omega), Nat.or_comm, Nat.mul_comm,
    ← Nat.two_pow_add_eq_or_of_lt (i := 8) (by omega)]
  omega

/-- A row found by its opcode has that opcode and that SLOT. -/
theorem decodeRow_ok (op slot : Nat) (i : Instr) (h : decodeRow op slot = .ok i) :
    i.opcode = op ∧ i.slot?.getD 0 = slot := by
  unfold decodeRow at h
  split at h <;> first
    | (simp only [withoutSlot] at h
       split at h <;> first | (cases h; subst_vars; exact ⟨rfl, rfl⟩) | cases h)
    | (cases h; exact ⟨rfl, rfl⟩)
    | cases h

end Sys2Proof
end

