-- ==== Sys2Proof/Laws/PerInstr.lean ====
section
/-! SUPPORT. A law of every command, said once per constructor: where its operands stand in its word. -/

namespace Sys2Proof.Laws.OpcodeField

/-- The word of a well-formed command has its opcode in OP, its operand in SLOT (0 when it has none), and
its reserved bits clear (30_encoding.md R300, R301). -/
def Statement (i : Instr) : Prop :=
  i.wellFormed = true →
    opField (encode i) = i.opcode ∧ slotField (encode i) = i.slot?.getD 0 ∧
      reservedClear (encode i) = true

/-- The same, for any command. -/
theorem holds (i : Instr) : Statement i := by
  intro h
  have h1 := slot_lt i h
  have h2 := opcode_lt i
  have he := encode_toNat i h
  refine ⟨?_, ?_, ?_⟩
  · rw [opField_eq, he]; omega
  · rw [slotField_eq, he]; omega
  · rw [reservedClear_iff, he]; omega

theorem nop : Statement .nop := holds _
theorem xenc : Statement .xenc := holds _
theorem xdec : Statement .xdec := holds _
theorem minw : Statement .minw := holds _
theorem pack : Statement .pack := holds _
theorem unpack : Statement .unpack := holds _
theorem benc : Statement .benc := holds _
theorem bdec : Statement .bdec := holds _
theorem hset (slot : Nat) : Statement (.hset slot) := holds _
theorem hget (slot : Nat) : Statement (.hget slot) := holds _
theorem hfull : Statement .hfull := holds _
theorem hpart (slot : Nat) : Statement (.hpart slot) := holds _
theorem hclass (slot : Nat) : Statement (.hclass slot) := holds _
theorem winit : Statement .winit := holds _
theorem wbatch : Statement .wbatch := holds _
theorem wflush : Statement .wflush := holds _
theorem rinit : Statement .rinit := holds _
theorem rbatch : Statement .rbatch := holds _

end Sys2Proof.Laws.OpcodeField
end

