-- ==== Sys2Proof/Tests/Slice0.lean ====
section
/-! SUPPORT. The model's own tests. Expected values are those of spec/95_test_vectors.md, named by vector,
or the encodings of 30_encoding.md written out bit by bit; a `witness_` theorem shows a state and operands
that meet all hypotheses of the obligation it names. -/

namespace Sys2Proof.Tests

open Sys2Proof.Machine

set_option Elab.async false

/-! ### Small states -/

/-- The reset state of a machine whose HOST_BYTE_ORDER is LE. -/
def idle : State := { State.reset with byteOrder := .le }

/-- VBUF with entry i holding `f i`. -/
def lanes (f : Nat → Nat) : Vector Word 128 :=
  ⟨((List.range 128).map fun i => BitVec.ofNat 64 (f i)).toArray, by simp⟩

/-- PBUF with entry j holding `f j`. -/
def packed (f : Nat → Nat) : Vector Word 64 :=
  ⟨((List.range 64).map fun j => BitVec.ofNat 64 (f j)).toArray, by simp⟩

/-- The state an outcome goes on with. -/
def after (o : Outcome) : State :=
  match o with
  | .next s => s
  | .fault _ | .refused _ => idle

/-- The state after the step that runs the command word `w`. -/
def run (w : Nat) (s : State) : State := after (step (s.withFetchWord 64 w))

def vhead (n : Nat) (s : State) : List Nat := (s.vbuf.toList.take n).map BitVec.toNat
def phead (n : Nat) (s : State) : List Nat := (s.pbuf.toList.take n).map BitVec.toNat

/-- The engine with this command word accepted. -/
def accepted (w : Word) : State := { idle with cmd := w, phase := .accepted }

/-- A writer with one block of width 1 on its page. -/
def openWriter : Writer :=
  { Writer.reset with slot := 1, len := 1, hdr := 1, last := 64 }

/-- A reader with this header loaded, at this slot. -/
def reading (hdr : Word) (slot : BitVec 4) : Reader := { Reader.reset with hdr := hdr, slot := slot }

/-! ### Well-formedness: a SLOT operand that does not fit 4 bits (30_encoding.md R300, R303) -/

theorem test_slot_15_is_well_formed : (Instr.hset 15).wellFormed = true := by decide
theorem test_hset_16_is_ill_formed : (Instr.hset 16).wellFormed = false := by decide
theorem test_hget_16_is_ill_formed : (Instr.hget 16).wellFormed = false := by decide
theorem test_hpart_16_is_ill_formed : (Instr.hpart 16).wellFormed = false := by decide
theorem test_hclass_16_is_ill_formed : (Instr.hclass 16).wellFormed = false := by decide

/-! ### Decoding: words written out as SLOT, the reserved bits 7:6, OP (30_encoding.md R300, R301) -/

theorem test_decode_nop : decode 0b0000_00_000000 = .ok .nop := by decide
theorem test_decode_xenc : decode 0b0000_00_000001 = .ok .xenc := by decide
theorem test_decode_xdec : decode 0b0000_00_000010 = .ok .xdec := by decide
theorem test_decode_minw : decode 0b0000_00_000011 = .ok .minw := by decide
theorem test_decode_pack : decode 0b0000_00_000100 = .ok .pack := by decide
theorem test_decode_unpack : decode 0b0000_00_000101 = .ok .unpack := by decide
theorem test_decode_benc : decode 0b0000_00_000110 = .ok .benc := by decide
theorem test_decode_bdec : decode 0b0000_00_000111 = .ok .bdec := by decide
theorem test_decode_hset : decode 0b1000_00_001000 = .ok (.hset 8) := by decide
theorem test_decode_hget : decode 0b0001_00_001001 = .ok (.hget 1) := by decide
theorem test_decode_hfull : decode 0b0000_00_001010 = .ok .hfull := by decide
theorem test_decode_hpart : decode 0b0101_00_001011 = .ok (.hpart 5) := by decide
theorem test_decode_hclass : decode 0b1111_00_001100 = .ok (.hclass 15) := by decide
theorem test_decode_winit : decode 0b0000_00_010000 = .ok .winit := by decide
theorem test_decode_wbatch : decode 0b0000_00_010001 = .ok .wbatch := by decide
theorem test_decode_wflush : decode 0b0000_00_010010 = .ok .wflush := by decide
theorem test_decode_rinit : decode 0b0000_00_011000 = .ok .rinit := by decide
theorem test_decode_rbatch : decode 0b0000_00_011001 = .ok .rbatch := by decide

/-- Words no row selects (30_encoding.md R302). -/
theorem test_illegal_words :
    decode 0x0D = .error .unassignedOpcode ∧ decode 0x3F = .error .unassignedOpcode ∧
      decode 0x101 = .error .slotNotUsed ∧ decode 0x10A = .error .slotNotUsed ∧
      decode 0x40 = .error .reservedBits ∧ decode 0x1008 = .error .reservedBits ∧
      decode 0x8000000000000000 = .error .reservedBits := by decide

/-- The host's reading of table words. -/
theorem test_decode_table_word :
    decodeTableWord 64 0x0808 = some (.hset 8) ∧ decodeTableWord 8 0x119 = some .rbatch ∧
      decodeTableWord 64 0x0D = none := by decide

/-! ### One step of each command -/

/-- NOP leaves OVR as it is (46_control.md R1003). -/
theorem test_nop : (run 0x00 { idle with ovr := true, result := .badArg }).result = .ok ∧
    (run 0x00 { idle with ovr := true }).ovr = true := by decide +kernel

/-- V2.5: E = 8, wrapping deltas. -/
theorem test_xenc :
    vhead 5 (run 0x01 { idle with cfgEW := 3, vbuf := lanes fun i => [0x7F, 0x80, 0].getD i 0xFF }) =
      [0xFD, 0x01, 0xFF, 0x02, 0x00] := by decide +kernel

/-- V3.1: E = 8, SX = 1. -/
theorem test_xdec_sign_extends :
    vhead 4 (run 0x02
      { idle with cfgEW := 3, cfgSX := true, vbuf := lanes fun i => [0xFD, 1, 0xFF, 2].getD i 0 }) =
      [0x7F, 0xFFFFFFFFFFFFFF80, 0, 0xFFFFFFFFFFFFFFFF] := by decide +kernel

/-- V3.2: E = 8, SX = 0. -/
theorem test_xdec_zero_extends :
    vhead 4 (run 0x02 { idle with cfgEW := 3, vbuf := lanes fun i => [0xFD, 1, 0xFF, 2].getD i 0 }) =
      [0x7F, 0x80, 0, 0xFF] := by decide +kernel

/-- V5.1. -/
theorem test_minw :
    (run 0x03 { idle with vbuf := lanes fun i => if i = 0 then 5 else if i = 7 then 0x12 else 0 }).width
      = 5 := by decide +kernel

/-- V5.4: bit 8 is ignored with E = 8. -/
theorem test_minw_ignores_high_bits :
    (run 0x03 { idle with cfgEW := 3, width := 7, vbuf := lanes fun i => if i = 0 then 0x100 else 0 }).width
      = 0 := by decide +kernel

/-- V4.5. -/
theorem test_pack :
    phead 4 (run 0x04 { idle with width := 3, vbuf := lanes (· % 8), pbuf := packed fun _ => 9 }) =
      [0x0539770539770539, 0x7705397705397705, 0x3977053977053977, 9] := by decide +kernel

/-- V4.16: all 64 bits of WIDTH are compared. -/
theorem test_pack_width_above_64 :
    (run 0x04 { idle with width := 0x100000002 }).result = .invalidWidth := by decide +kernel

/-- V4.10 read right to left: lane 12 straddles Words 0 and 1; lane 64 is kept. -/
theorem test_unpack :
    let s := run 0x05
      { idle with width := 5, vbuf := lanes fun _ => 7, pbuf := packed fun j => [0xF, 2 ^ 63].getD j 0 }
    (vhead 65 s).drop 11 = [0, 0x1F, 0] ++ List.replicate 50 0 ++ [7] := by decide +kernel

/-- V6.5: E = 16. -/
theorem test_benc :
    let s := run 0x06 { idle with cfgEW := 2, vbuf := lanes (3 * ·) }
    s.width = 3 ∧
      phead 3 s = [0x16DB6DB6DB6DB6DB, 0x6DB6DB6DB6DB6DB6, 0xDB6DB6DB6DB6DB6D] := by
  decide +kernel

/-- V6.4: the width 64. -/
theorem test_benc_width_64 :
    let s := run 0x06 { idle with vbuf := lanes fun _ => 2 ^ 63 }
    s.width = 64 ∧ phead 2 s = [0xFFFFFFFFFFFFFFFF, 0] := by decide +kernel

/-- V6.9. -/
theorem test_bdec :
    vhead 3 (run 0x07
      { idle with
        cfgEW := 3, cfgSX := true, offset := 0x7E, width := 1
        pbuf := packed fun _ => 0xFFFFFFFFFFFFFFFF }) =
      [0x7F, 0xFFFFFFFFFFFFFF80, 0xFFFFFFFFFFFFFF81] := by decide +kernel

/-- V6.8: WIDTH above E. -/
theorem test_bdec_width_above_elem :
    (run 0x07 { idle with cfgEW := 3, width := 9 }).result = .invalidWidth := by decide +kernel

/-- V7.3. -/
theorem test_hset :
    (run 0x308 { idle with hdr := 0xFFFFFFFFFFFFFFFF }).hdr = 0xFFFFFFFFF01FFFFF := by
  decide +kernel

/-- V7.4. -/
theorem test_hset_bad_width : (run 0x008 { idle with width := 128 }).result = .badArg := by
  decide +kernel

/-- V7.6. -/
theorem test_hget : (run 0x109 { idle with hdr := 0x03FFFFFFFFFFFF81 }).width = 127 := by
  decide +kernel

/-- V7.8. -/
theorem test_hfull : (run 0x00A idle).hdr = 0x8000000000000000 := by decide +kernel

/-- V7.13. -/
theorem test_hpart :
    (run 0x80B { idle with hdr := 0x00101C305080C101, count := 5 }).hdr = 0x05101C305080C101 := by
  decide +kernel

/-- V7.14. -/
theorem test_hpart_count_200 :
    (run 0x00B { idle with count := 200 }).hdr = 0xC8FFFFFFFFFFFFFF := by decide +kernel

/-- V8.2. -/
theorem test_hclass_tail :
    let s := run 0x10C { idle with hdr := 0x03FFFFFFFFFFFF81 }
    s.result = .tail ∧ s.count = 3 := by decide +kernel

/-- V8.5: 127 on a full page. -/
theorem test_hclass_invalid :
    (run 0x00C { idle with hdr := 0x800000000000007F }).result = .invalidWidth := by decide +kernel

/-- WINIT latches the element width and the initial offset's low bits (44_writer.md R801). -/
theorem test_winit :
    let w := (run 0x10 { idle with cfgEW := 3, initOffset := 0x1FF, writer := openWriter }).writer
    w.last = 0xFF ∧ w.ew = 3 ∧ w.slot = 0 ∧ w.len = 0 ∧ w.hdr = 0 := by decide +kernel

/-- P2: the batch 1..64 against W_LAST 0. -/
theorem test_wbatch :
    let s := run 0x11 { idle with vbuf := lanes (· + 1) }
    s.width = 1 ∧ readReg s .wstat = 0x10010 ∧ s.writer.last = 64 ∧ s.writer.hdr = 1 := by
  decide +kernel

/-- V9.6: the ninth block emits the full page. -/
theorem test_wbatch_emits :
    let s := run 0x11
      { idle with writer := { Writer.reset with slot := 8 }, sink := ⟨[], [⟨8, false, 0⟩]⟩ }
    s.sink.accepted = [0, 0, 0, 0, 0, 0, 0, 0x80] ∧ readReg s .wstat = 0 := by decide +kernel

/-- V9.7: E = 8, one raw value. -/
theorem test_wflush :
    let s := run 0x12
      { idle with
        writer := { Writer.reset with ew := 3 }, count := 1, vbuf := lanes fun _ => 0x1FF
        sink := ⟨[], [⟨16, false, 0⟩]⟩ }
    s.sink.accepted =
        [0xFF, 0xFF, 0xFF, 0xFF, 0xFF, 0xFF, 0xFF, 1, 0xFF, 0, 0, 0, 0, 0, 0, 0] ∧
      s.writer.state = .closed := by decide +kernel

/-- V9.8: the sink accepts 8 of 16 bytes. -/
theorem test_wflush_sink_fails :
    let s := run 0x12 { idle with count := 1, sink := ⟨[], [⟨8, false, 8⟩]⟩ }
    readReg s .status = 0x50 ∧ readReg s .wstat = 2 := by decide +kernel

/-- RINIT from FAILED (45_reader.md R901; P6). -/
theorem test_rinit :
    readReg (run 0x18 { idle with reader := { Reader.reset with state := .failed, slot := 3 } }) .rstat
      = 0x90 := by decide +kernel

/-- V10.11: a raw tail of one Word, E = 8, SX = 1. -/
theorem test_rbatch_tail :
    let s := run 0x19
      { idle with
        reader := { Reader.reset with ew := 3, sx := true }
        source := ⟨serWords .le [0x01FFFFFFFFFFFFFF, 0x1FF], false, [.deliver, .deliver]⟩ }
    s.result = .tail ∧ vhead 1 s = [0xFFFFFFFFFFFFFFFF] ∧ readReg s .rstat = 0x70000091 := by
  decide +kernel

/-- V10.7: the first block, from P3's page. -/
theorem test_rbatch_block :
    let s := run 0x19
      { idle with
        source :=
          ⟨serWords .le [0x03FFFFFFFFFFFF81, 0xFFFFFFFFFFFFFFFF], false, [.deliver, .deliver]⟩ }
    s.result = .ok ∧ vhead 3 s = [1, 2, 3] ∧ s.count = 64 ∧ readReg s .rstat = 0x10 := by
  decide +kernel

/-- An unassigned opcode completes with ILLEGAL_CMD (46_control.md R1004; P6). -/
theorem test_illegal_command : (run 0x0D idle).result = .illegalCmd := by decide +kernel

/-! ### Hypotheses that hold: encoding, issue and the aperture -/

theorem witness_DecodeEncodeRoundTrip :
    (Instr.hset 0).wellFormed = true ∧ (Instr.hclass 15).wellFormed = true ∧
      Instr.rbatch.wellFormed = true := by decide

theorem witness_DecodedWordIsItsEncoding : decode 0x0F0C = .ok (.hclass 15) := by decide

theorem witness_RowSelectedByMaskAndMatch :
    (Instr.hset 15).wellFormed = true ∧
      (0x0008 : Word) &&& (Instr.hset 15).maskWord = (Instr.hset 15).matchWord := by decide

theorem witness_StepRunsTheAcceptedCommand :
    ((accepted 0x808).phase = .accepted ∧ decode (accepted 0x808).cmd = .ok (.hset 8) ∧
        (accepted 0x808).schedule = []) ∧
      { accepted 0x808 with schedule := [.engine, .reset 0] }.schedule = .engine :: [.reset 0] := by
  decide

theorem witness_StepRunsTheFetchedWord : (Instr.hpart 15).wellFormed = true := by decide

theorem witness_IllegalCommandOnlySetsResult :
    (accepted 0x0D).phase = .accepted ∧
      (∀ i : Instr, (accepted 0x0D).cmd &&& i.maskWord ≠ i.matchWord) ∧
      (accepted 0x0D).schedule = [] ∧
      { accepted 0x0D with schedule := [.engine] }.schedule = .engine :: [] := by
  refine ⟨rfl, fun i => ?_, rfl, rfl⟩
  cases i <;> simp only [Instr.maskWord, Instr.slot?, Instr.matchWord, Instr.opcode, accepted] <;> decide

theorem witness_CmdWriteIssuesCommand :
    idle.busy = false ∧
      { idle with schedule := [.access (.write 64 0 0x11)] }.schedule =
        .access (.write 64 0x000 0x11) :: [] := by decide

/-- STATUS and another register, read and written, as one Word and as lanes; and a wait. -/
theorem witness_AccessesWhileBusy :
    (accepted 0).busy = true ∧
      (Access.read 64 0x008).target = some .status ∧
      (Access.read 64 0x7F8).target = some (.vbuf 127) ∧
      (Access.write 64 0x008 0x100).target = some .status ∧
      (Access.write 64 0x9F8 1).target = some (.pbuf 63) ∧
      (Access.readLanes 8 0x008).target = some .status ∧
      (Access.writeLanes 0x800 [1, 2, 3, 4, 5, 6, 7, 8]).target = some (.pbuf 0) ∧
      { accepted 0 with host := ⟨[.await, .read .cmd], []⟩, schedule := [.host] }.host.program =
        .await :: [.read .cmd] := by decide

/-- The admitted and refused offsets on each side of the map's edges (20_memory.md R201). -/
theorem witness_BusErrorExactlyWhenNotAdmitted :
    (Access.read 64 0x068).target = some .rhdr ∧ (Access.read 64 0x070).target = none ∧
      (Access.read 64 0x3F8).target = none ∧ (Access.read 64 0x400).target = some (.vbuf 0) ∧
      (Access.write 64 0x7F8 0).target = some (.vbuf 127) ∧
      (Access.write 64 0x800 0).target = some (.pbuf 0) ∧
      (Access.write 64 0xA00 0).target = none ∧ (Access.write 64 0x00C 0).target = none ∧
      (Access.read 32 0x008).target = none ∧ (Access.readLanes 8 0x800).target = some (.pbuf 0) ∧
      (Access.readLanes 4 0x800).target = none ∧
      (Access.writeLanes 0x068 [0, 0, 0, 0, 0, 0, 0]).target = none := by decide

theorem witness_BusErrorExactlyWhenNotAdmitted_stops :
    step { idle with schedule := [.access (.read 64 0x070)] } = .fault .busError := rfl

theorem witness_StatusAndCfgRegisterFields :
    idle.busy = false ∧ readReg (hostWrite .cfg 0xFF idle) .cfg = 7 := by decide

theorem witness_ContextViewFields :
    idle.busy = false ∧ Reg.rhdr ∈ [Reg.wstat, .wlast, .whdr, .rstat, .rlast, .rhdr] := by decide

theorem witness_RegisterReadsBackItsWrite :
    idle.busy = false ∧
      Reg.vbuf 127 ∉ [Reg.cmd, .status, .cfg, .wstat, .wlast, .whdr, .rstat, .rlast, .rhdr] ∧
      Reg.pbuf 63 ≠ Reg.vbuf 127 ∧
      (0x7F8 : BitVec 12).toNat = (Reg.vbuf 127).byteOffset := by decide

theorem witness_HostReadHasNoSideEffect :
    (∃ t, step { idle with schedule := [.access (.read 64 0x060)] } = .next t) ∧
      (∃ t, step { idle with schedule := [.access (.readLanes 8 0x060)] } = .next t) ∧
      idle.busy = false ∧ (0x018 : BitVec 12).toNat = Reg.offset.byteOffset :=
  ⟨⟨_, rfl⟩, ⟨_, rfl⟩, rfl, rfl⟩

/-- A refused read has no next state, so no clause of the statement is about it. -/
theorem witness_WordTransferFormat :
    ([1, 2, 3, 4, 5, 6, 7, 8] : List Byte).length = 8 ∧
      ∃ t, step { idle with schedule := [.access (.read 64 0x9F8)] } = .next t := ⟨rfl, _, rfl⟩

/-- Little-endian lanes: the first byte is the least significant (20_memory.md R206, R207). -/
theorem test_write_lanes :
    (after (step { idle with
      schedule := [.access (.writeLanes 0x018 [0x39, 5, 0, 0, 0, 0, 0, 0x80])] })).offset =
        0x8000000000000539 := by decide

/-- A wait stays while BUSY = 1, whatever it has read before, and is over when the read finds 0
(30_encoding.md R317). -/
theorem test_wait_repeats :
    (after (step { accepted 0 with host := ⟨[.await], []⟩, schedule := [.host] })).host.program =
        [.await] ∧
      (after (step { idle with host := ⟨[.await], []⟩ })).host.program = [] := by decide

/-- Numbers as the programs of 95_test_vectors.md write them (30_encoding.md R317). -/
theorem test_read_number :
    readNumber ['1', '0', '1'] = some 101 ∧
      readNumber ['0', 'x', '0', '3', 'F', 'F', '_', 'f', 'f', '8', '1'] = some 0x3FFFF81 ∧
      readNumber ['1', '_', '0'] = none ∧ readNumber ['0', 'x'] = none := by decide

/-- V11's illegal word, as a `cmd` line's command word. -/
theorem test_enc : enc .wbatch 1 = 0x111 ∧ enc .hpart 1 = 0x10B := by decide

/-- A reset while a page is not answered, and one while idle. -/
theorem witness_ResetEventResetsTheBlock :
    { idle with phase := .sinkWait .wflush [1, 2], schedule := [.reset 1] }.schedule =
        .reset 1 :: [] ∧
      { idle with schedule := [.reset 0] }.schedule = .reset 0 :: [] := by decide

/-! ### Hypotheses that hold: transform, packer, codec -/

/-- The largest element, zero, -1 and the most negative element of 8 bits. -/
theorem witness_ZigzagByValue :
    0 < 8 ∧ 0 ≤ (0x7F : BitVec 8).toInt ∧ 0 ≤ (0 : BitVec 8).toInt ∧ (0xFF : BitVec 8).toInt < 0 ∧
      (0x80 : BitVec 8).toInt < 0 := by decide

theorem witness_PackPlacesEveryBit :
    64 < { idle with width := 65 }.width.toNat ∧ { idle with width := 64 }.width.toNat ≤ 64 := by
  decide

theorem witness_UnpackReadsEveryBit :
    64 < { idle with width := 65 }.width.toNat ∧ { idle with width := 0 }.width.toNat ≤ 64 := by
  decide

theorem witness_PackUnpackRoundTrips : { idle with width := 64 }.width.toNat ≤ 64 := by decide

theorem witness_MinwSelectsTheLeastWidth :
    ∀ i < 64, elemValue idle.cfgEW (vbufAt { idle with vbuf := lanes id } i) < 2 ^ 6 := by
  decide +kernel

theorem witness_BdecIsUnpackXdec :
    elemBits { idle with cfgEW := 3, width := 9 }.cfgEW <
        { idle with cfgEW := 3, width := 9 }.width.toNat ∧
      { idle with cfgEW := 3, width := 8 }.width.toNat ≤
        elemBits { idle with cfgEW := 3, width := 8 }.cfgEW := by decide

/-- The three batches, each with an encoding (S6, S7, S8 of 95_test_vectors.md). -/
theorem witness_SteadyBatchesEncodeAsStated :
    let s := { idle with offset := 7, vbuf := lanes fun _ => 7 }
    let u := { idle with offset := 100, vbuf := lanes (101 + ·) }
    let d := { idle with offset := 100, vbuf := lanes fun i => 2 ^ 64 + 99 - i }
    (∃ t, exec .benc s = .next t) ∧ (∃ t, exec .benc u = .next t) ∧ (∃ t, exec .benc d = .next t) ∧
      (∀ i < 64, lowElem s.cfgEW (vbufAt s i) = lowElem s.cfgEW s.offset) ∧
      (∀ i < 64, lowElem u.cfgEW (vbufAt u i)
        = lowElem u.cfgEW u.offset + BitVec.ofNat (elemBits u.cfgEW) (i + 1)) ∧
      (∀ i < 64, lowElem d.cfgEW (vbufAt d i)
        = lowElem d.cfgEW d.offset - BitVec.ofNat (elemBits d.cfgEW) (i + 1)) := by
  refine ⟨⟨_, rfl⟩, ⟨_, rfl⟩, ⟨_, rfl⟩, ?_, ?_, ?_⟩ <;> decide +kernel

/-! ### Hypotheses that hold: header -/

theorem witness_HsetWritesOneSlot :
    (8 < 9 ∨ 127 < idle.width.toNat) ∧ (8 < 0 ∨ 127 < { idle with width := 128 }.width.toNat) ∧
      8 ≤ 8 ∧ { idle with width := 127 }.width.toNat ≤ 127 := by decide

theorem witness_HgetReadsOneSlot : 8 < 15 ∧ 8 ≤ 8 := by decide

theorem witness_HpartFinishesTheHeader :
    (8 < 9 ∨ 255 < idle.count.toNat) ∧ (8 < 0 ∨ 255 < { idle with count := 256 }.count.toNat) ∧
      8 ≤ 8 ∧ { idle with count := 255 }.count.toNat ≤ 255 := by decide

/-- The four branches are all reached (V8.11, V8.10, V8.7, V8.6). -/
theorem witness_HclassClassifiesTheSlot :
    8 < 9 ∧ (idle.hdr.getLsbD 63 = false ∧ (8 = 8 ∨ slotValue idle.hdr 8 = 127)) ∧
      slotValue 0x0500000000000040 0 ≤ 64 ∧ slotValue 0x0500000000000040 0 ≠ 127 ∧
      ¬slotValue 0x41 0 ≤ 64 ∧ slotValue 0x41 0 ≠ 127 := by decide

/-! ### Hypotheses that hold: writer -/

theorem witness_WriterChecksAndEmptyFlush :
    ({ idle with writer := { Writer.reset with state := .closed } }.writer.state ≠ .filling ∧
        { idle with writer := { Writer.reset with state := .broken } }.writer.state ≠ .filling) ∧
      (idle.writer.state = .filling ∧ 63 < { idle with count := 64 }.count.toNat) ∧
      (idle.writer.state = .filling ∧ idle.count = 0 ∧ idle.writer.slot = 0) := by decide

/-- At the last slot before an emission, with as many Words as eight blocks can hold. -/
theorem witness_WbatchAppendsTheBlock :
    let s := { idle with writer := { Writer.reset with slot := 7, len := 512 } }
    s.writer.state = .filling ∧ s.writer.slot.toNat < 8 ∧ s.writer.len.toNat ≤ 512 := by decide

/-- A page of 577 Words, the largest, that the sink accepts to the last byte. -/
theorem witness_WbatchEmitsTheFullPage :
    let s :=
      { idle with
        vbuf := lanes fun _ => 2 ^ 63
        writer := { Writer.reset with slot := 8, len := 512 }
        sink := ⟨[], [⟨4616, false, 0⟩]⟩ }
    let b := after (exec .benc { s with cfgEW := s.writer.ew, offset := s.writer.last })
    s.writer.state = .filling ∧ s.writer.slot = 8 ∧ s.writer.len.toNat ≤ 512 ∧
      s.sink.replies = ⟨4616, false, 0⟩ :: [] ∧
      8 * (1 + s.writer.len.toNat + b.width.toNat) ≤ 4616 ∧ b.width = 64 := by decide +kernel

/-- A terminal page of 576 Words, the largest with eight blocks, and one of a header alone. -/
theorem witness_WflushEmitsTheTerminalPage :
    (let s :=
      { idle with
        writer := { Writer.reset with slot := 8, len := 512 }, count := 63
        sink := ⟨[], [⟨4608, false, 0⟩]⟩ }
     s.writer.state = .filling ∧ s.writer.slot.toNat ≤ 8 ∧ s.writer.len.toNat ≤ 512 ∧
      s.count.toNat ≤ 63 ∧ ¬(s.writer.slot = 0 ∧ s.count = 0) ∧
      s.sink.replies = ⟨4608, false, 0⟩ :: [] ∧
      8 * (1 + s.writer.len.toNat + s.count.toNat) ≤ 4608) ∧
    ¬({ idle with count := 1 }.writer.slot = 0 ∧ { idle with count := 1 }.count = 0) := by
  decide +kernel

/-- An error, and one byte too few. -/
theorem witness_SinkFailureBreaksTheWriter :
    let s r := { idle with phase := .sinkWait .wflush [1, 2], schedule := [.sinkReply r] }
    ((s ⟨2, true, 1⟩).phase = .sinkWait .wflush [1, 2] ∧
        (s ⟨2, true, 1⟩).schedule = .sinkReply ⟨2, true, 1⟩ :: [] ∧ (true = true ∨ 2 < 2)) ∧
      (s ⟨1, false, 0⟩).schedule = .sinkReply ⟨1, false, 0⟩ :: [] ∧
      (false = true ∨ 1 < [1, 2].length) := by decide

/-! ### Hypotheses that hold: reader -/

/-- Ended; exactly enough bytes; one byte too few. -/
theorem witness_SourceAnswersAsAgreed :
    (Source.mk [] true []).ended = true ∧
      ((Source.mk [1, 2] false []).ended = false ∧ 2 ≤ (Source.mk [1, 2] false []).bytes.length) ∧
      (Source.mk [1] false []).bytes.length < 2 := by decide

/-- No byte, 7 bytes, 8 bytes, a source that fails, and one that has ended before. -/
theorem witness_RbatchLoadsTheHeader :
    let s bytes r := { idle with source := ⟨bytes, false, [r]⟩ }
    ((s [] .deliver).reader.state = .active ∧ (s [] .deliver).reader.slot = 9 ∧
        (s [] .deliver).source.replies = .deliver :: [] ∧ (s [] .deliver).source.ended = false ∧
        (s [] .deliver).source.bytes = []) ∧
      ((s (List.replicate 7 1) .deliver).source.bytes ≠ [] ∧
        (s (List.replicate 7 1) .deliver).source.bytes.length < 8) ∧
      8 ≤ (s (List.replicate 8 1) .deliver).source.bytes.length ∧
      (s [] (.fail 3)).source.replies = .fail 3 :: [] ∧
      { idle with source := ⟨[], true, [.deliver]⟩ }.source.ended = true := by decide

/-- A block of 64 Words at slot 8 of a full page, and a block of no Word. -/
theorem witness_RbatchDeliversTheBlock :
    let ws : List Word := List.replicate 64 5
    let s :=
      { idle with
        reader := reading 0xC000000000000000 8
        source := ⟨serWords .le ws ++ [1, 2], false, [.deliver, .deliver]⟩ }
    (s.reader.state = .active ∧ s.reader.slot.toNat ≤ 8 ∧
        classify s.reader.hdr s.reader.slot.toNat = .block 64 ∧ 64 ≤ elemBits s.reader.ew ∧
        s.source.ended = false ∧ ws.length = 64 ∧
        s.source.replies = (if 64 = 0 then [.deliver] else .deliver :: [.deliver]) ∧
        s.source.bytes = serWords s.byteOrder ws ++ [1, 2]) ∧
      classify (reading 0 0).hdr (reading 0 0).slot.toNat = .block 0 := by decide +kernel

/-- A tail of 127 Words, the largest, and a tail of none. -/
theorem witness_RbatchDeliversTheRawTail :
    let ws : List Word := List.replicate 127 5
    let s :=
      { idle with
        reader := reading 0x7F00000000000000 8
        source := ⟨serWords .le ws ++ [1, 2], false, [.deliver]⟩ }
    (s.reader.state = .active ∧ s.reader.slot.toNat ≤ 8 ∧
        classify s.reader.hdr s.reader.slot.toNat = .terminal 127 ∧ s.source.ended = false ∧
        ws.length = 127 ∧ s.source.replies = (if 127 = 0 then [] else .deliver :: []) ∧
        s.source.bytes = serWords s.byteOrder ws ++ [1, 2]) ∧
      classify (reading 0 8).hdr (reading 0 8).slot.toNat = .terminal 0 := by decide +kernel

/-- DONE, FAILED, an invalid slot, a width above R_E, and a Word whose last byte is missing. -/
theorem witness_RbatchEndsAndErrors :
    { idle with reader := { Reader.reset with state := .done } }.reader.state = .done ∧
      { idle with reader := { Reader.reset with state := .failed } }.reader.state = .failed ∧
      ((reading 0x41 0).state = .active ∧ (reading 0x41 0).slot.toNat ≤ 8 ∧
        classify (reading 0x41 0).hdr (reading 0x41 0).slot.toNat = .invalid) ∧
      (classify (reading 9 0).hdr (reading 9 0).slot.toNat = .block 9 ∧
        elemBits { reading 9 0 with ew := 3 }.ew < 9) ∧
      (let s :=
        { idle with
          reader := reading 0x0100000000000000 8
          source := ⟨List.replicate 7 1, false, [.deliver]⟩ }
       s.reader.state = .active ∧ s.reader.slot.toNat ≤ 8 ∧ 0 < 1 ∧
        classify s.reader.hdr s.reader.slot.toNat = .terminal 1 ∧ s.source.ended = false ∧
        s.source.replies = .deliver :: [] ∧ s.source.bytes.length < 8 * 1) ∧
      (classify (reading 0x40 0).hdr (reading 0x40 0).slot.toNat = .block 64 ∧
        64 ≤ elemBits (reading 0x40 0).ew ∧
        { idle with source := ⟨[], false, [.fail 9]⟩ }.source.replies = .fail 9 :: []) := by
  decide +kernel

/-- A wait on the sink at the source's answer, and one on the source at the engine's turn, a host access
and the sink's answer. -/
theorem witness_LateAnswerActsAsReadyOne_waits :
    (∃ t, step { idle with phase := .sinkWait .wflush [1], schedule := [.sourceReply .deliver] } =
        .next t) ∧
      ∀ e ∈ [Event.engine, .access (.write 64 0 1), .sinkReply ⟨8, false, 0⟩],
        (∃ t, step { idle with phase := .sourceWait .header, schedule := [e] } = .next t) ∧
          (∀ held, some e ≠ some (Event.reset held)) ∧ ∀ r, some e ≠ some (Event.sourceReply r) := by
  refine ⟨⟨_, rfl⟩, fun e he => ?_⟩
  simp only [List.mem_cons, List.not_mem_nil, or_false] at he
  rcases he with rfl | rfl | rfl <;> exact ⟨⟨_, rfl⟩, by simp, by simp⟩

/-- WBATCH, WFLUSH and RBATCH each wait when the port has no answer ready. -/
theorem witness_LateAnswerActsAsReadyOne :
    (∃ t, exec .rbatch idle = .next t ∧ t.phase ≠ .idle ∧ t.schedule = [] ∧ t.phase ≠ .accepted ∧
        t.host.program = [] ∧ idle.source.replies = []) ∧
      (∃ t, exec .wflush { idle with count := 1 } = .next t ∧ t.phase ≠ .idle ∧
        { idle with count := 1 }.sink.replies = []) ∧
      ∃ t, exec .wbatch { idle with writer := { Writer.reset with slot := 8 } } = .next t ∧
        t.phase ≠ .idle :=
  ⟨⟨_, rfl, by decide +kernel⟩, ⟨_, rfl, by decide +kernel⟩, ⟨_, rfl, by decide +kernel⟩⟩

/-! ### Hypotheses that hold: rules about every command, invariants, runs -/

theorem witness_ErrorResultsKeepHostOutputs :
    ∃ t, exec (.hset 9) idle = .next t ∧ t.phase = .idle ∧ t.result.isFinish = false :=
  ⟨_, rfl, rfl, rfl⟩

theorem witness_CommandsKeepTheOtherContext :
    (∃ t, exec .rinit idle = .next t ∧ Instr.rinit ≠ .winit ∧ Instr.rinit ≠ .wbatch ∧
        Instr.rinit ≠ .wflush) ∧
      ∃ t, exec .winit idle = .next t ∧ Instr.winit ≠ .rinit ∧ Instr.winit ≠ .rbatch :=
  ⟨⟨_, rfl, by decide⟩, ⟨_, rfl, by decide⟩⟩

theorem witness_CommandsKeepHostOnlyRegisters : ∃ t, exec .winit idle = .next t := ⟨_, rfl⟩

/-- A state in the middle of a page, one step of it. -/
theorem witness_StepKeepsTheWriterInvariant :
    ∃ t, { accepted 0x12 with writer := openWriter, count := 3 }.writerInv ∧
      step { accepted 0x12 with writer := openWriter, count := 3 } = .next t := by
  refine ⟨_, ⟨by decide, fun _ => ⟨by decide, ⟨by decide, by decide⟩, by decide, by decide⟩⟩, rfl⟩

/-- A state that waits for the sink to answer a terminal page. -/
theorem witness_StepKeepsTheWriterInvariant_waiting :
    (after (step { accepted 0x12 with writer := openWriter, count := 3 })).writerInv :=
  ⟨by decide +kernel, by decide +kernel, ⟨by decide +kernel, ⟨by decide +kernel, by decide +kernel⟩,
    by decide +kernel, by decide +kernel⟩, by decide +kernel, by decide +kernel⟩

/-- A state that waits for the source's answer to a tail of three Words. -/
theorem witness_StepKeepsTheReaderInvariant :
    ∃ t, { idle with
            reader := reading 0x0300000000000000 8, phase := .sourceWait (.tail 3)
            schedule := [.sourceReply .deliver] }.readerInv ∧
      step { idle with
            reader := reading 0x0300000000000000 8, phase := .sourceWait (.tail 3)
            schedule := [.sourceReply .deliver] } = .next t :=
  ⟨_, ⟨by decide, by decide, by decide⟩, rfl⟩

theorem witness_StepKeepsThePortInvariant :
    ∃ t, { idle with
            phase := .sourceWait .header, source := ⟨[], true, []⟩
            schedule := [.sourceReply .deliver] }.portInv ∧
      step { idle with
            phase := .sourceWait .header, source := ⟨[], true, []⟩
            schedule := [.sourceReply .deliver] } = .next t :=
  ⟨_, ⟨by decide, rfl⟩, rfl⟩

/-- P6's first lines as the host's program, beside an admitted access of the schedule. -/
theorem witness_SafeRunsGoOn :
    ({ idle with schedule := [.access (.read 64 0x9F8)] }.withProgram
      [.wr .cmd 0x0D, .wait, .expect .status 0x60]).safeSchedule := by
  unfold State.safeSchedule
  decide

/-- The longest tail, and a sink and source as the statement needs them. -/
theorem witness_OneBatchStreamRoundTrip :
    (63 : Word).toNat ≤ 63 ∧
      { idle with sink := ⟨[], [⟨8 * 576, false, 0⟩]⟩ }.sink =
        { accepted := [], replies := [⟨8 * 576, false, 0⟩] } := by decide

end Sys2Proof.Tests
end

section
/-! The transform family (40_transform.md): the zig-zag map bit by bit and by value, the delta round trip,
and what XENC and XDEC leave in every lane. -/

namespace Sys2Proof.Machine

/-! ### The zig-zag map, bit by bit -/

/-- The arithmetic shift by E - 1 copies the sign into every bit (40_transform.md R400). -/
theorem sshiftRight_width_pred {E : Nat} (d : BitVec E) :
    d.sshiftRight (E - 1) = if d.msb then BitVec.allOnes E else 0 := by
  apply BitVec.eq_of_getLsbD_eq
  intro i hi
  have hsign : (if E - 1 + i < E then d.getLsbD (E - 1 + i) else d.msb) = d.msb := by
    split
    next hin => rw [show E - 1 + i = E - 1 by omega, BitVec.msb_eq_getLsbD_last]
    next => rfl
  rw [BitVec.getLsbD_sshiftRight, hsign]
  cases hm : d.msb <;> simp [hi]

/-- The sign goes to bit 0. -/
theorem zigzag_getLsbD_zero {E : Nat} (d : BitVec E) : (zigzag d).getLsbD 0 = d.msb := by
  rcases Nat.eq_zero_or_pos E with rfl | hE
  · simp [BitVec.eq_nil d]
  · cases hm : d.msb <;> simp [zigzag, hm, hE]

/-- Every other bit moves up by one place and is flipped when the delta is negative. -/
theorem zigzag_getLsbD_succ {E : Nat} (d : BitVec E) (i : Nat) (h : i + 1 < E) :
    (zigzag d).getLsbD (i + 1) = (d.getLsbD i ^^ d.msb) := by
  have hi : i < E := by omega
  cases hm : d.msb <;> simp [zigzag, hm, h, hi]

/-- Every bit moves down by one place and is flipped when bit 0 is set. -/
theorem unzigzag_getLsbD {E : Nat} (z : BitVec E) (i : Nat) (h : i < E) :
    (unzigzag z).getLsbD i = (z.getLsbD (i + 1) ^^ z.getLsbD 0) := by
  cases hz : z.getLsbD 0 <;> simp [unzigzag, hz, h, Nat.add_comm 1 i]

/-- Bit 0 goes back to the sign. -/
theorem unzigzag_msb {E : Nat} (z : BitVec E) : (unzigzag z).msb = z.getLsbD 0 := by
  rcases Nat.eq_zero_or_pos E with rfl | hE
  · rw [BitVec.eq_nil z, BitVec.eq_nil (unzigzag _)]; rfl
  · rw [BitVec.msb_eq_getLsbD_last, unzigzag_getLsbD z (E - 1) (by omega), Nat.sub_add_cancel hE,
      BitVec.getLsbD_of_ge z E (Nat.le_refl E), Bool.false_xor]

@[simp] theorem unzigzag_zigzag {E : Nat} (d : BitVec E) : unzigzag (zigzag d) = d := by
  apply BitVec.eq_of_getLsbD_eq
  intro i hi
  rw [unzigzag_getLsbD _ i hi, zigzag_getLsbD_zero]
  by_cases hlast : i + 1 < E
  · rw [zigzag_getLsbD_succ d i hlast, Bool.xor_assoc, Bool.xor_self, Bool.xor_false]
  · have hi' : i = E - 1 := by omega
    rw [BitVec.getLsbD_of_ge _ _ (Nat.le_of_not_lt hlast), Bool.false_xor, hi',
      BitVec.msb_eq_getLsbD_last]

@[simp] theorem zigzag_unzigzag {E : Nat} (z : BitVec E) : zigzag (unzigzag z) = z := by
  apply BitVec.eq_of_getLsbD_eq
  intro i hi
  cases i with
  | zero => rw [zigzag_getLsbD_zero, unzigzag_msb]
  | succ i =>
    rw [zigzag_getLsbD_succ _ i hi, unzigzag_msb, unzigzag_getLsbD z i (by omega), Bool.xor_assoc,
      Bool.xor_self, Bool.xor_false]

/-! ### The zig-zag map by value -/

/-- A non-negative delta is doubled: its sign bit is 0, so the shift loses nothing. -/
theorem zigzag_toNat_of_nonneg {E : Nat} (d : BitVec E) (h : 0 ≤ d.toInt) :
    (zigzag d).toNat = 2 * d.toInt.natAbs := by
  have hsmall : 2 * d.toNat < 2 ^ E := BitVec.toInt_pos_iff.mp h
  have hm : d.msb = false := BitVec.msb_eq_false_iff_two_mul_lt.mpr hsmall
  have hshift : zigzag d = d <<< 1 := by simp [zigzag, hm]
  rw [hshift, BitVec.toNat_shiftLeft, Nat.shiftLeft_eq, BitVec.toInt_eq_toNat_of_msb hm]
  rw [Nat.mod_eq_of_lt (by omega)]
  omega

/-- A negative delta is doubled modulo 2^E and complemented. -/
theorem zigzag_toNat_of_neg {E : Nat} (d : BitVec E) (h : d.toInt < 0) :
    (zigzag d).toNat = 2 * d.toInt.natAbs - 1 := by
  have hbig : 2 ^ E ≤ 2 * d.toNat := BitVec.toInt_neg_iff.mp h
  have hlt : d.toNat < 2 ^ E := d.isLt
  have hm : d.msb = true := BitVec.msb_eq_true_iff_two_mul_ge.mpr hbig
  have hnot : zigzag d = ~~~(d <<< 1) := by simp [zigzag, hm]
  have hdouble : d.toNat * 2 ^ 1 % 2 ^ E = 2 * d.toNat - 2 ^ E := by
    rw [Nat.mod_eq_sub_mod (by omega), Nat.mod_eq_of_lt (by omega)]
    omega
  have habs : d.toInt.natAbs = 2 ^ E - d.toNat := by
    rw [BitVec.toInt_eq_msb_cond, if_pos hm]
    omega
  rw [hnot, BitVec.toNat_not, BitVec.toNat_shiftLeft, Nat.shiftLeft_eq, hdouble, habs]
  omega

/-- Settles O19: the formula by the sign-copying shift, the values by the delta's sign. -/
theorem zigzagByValue : Obligations.ZigzagByValue := by
  intro E d _
  refine ⟨?_, zigzag_toNat_of_nonneg d, zigzag_toNat_of_neg d⟩
  rw [sshiftRight_width_pred, BitVec.xor_comm, zigzag]

/-- Settles O20, from the two compositions. -/
theorem zigzagMapsAreInverse : Obligations.ZigzagMapsAreInverse :=
  fun _ x => ⟨unzigzag_zigzag x, zigzag_unzigzag x⟩

/-! ### Delta coding -/

/-- Settles O21, by induction on the batch: taking the delta back from the previous value gives the
current one, which is the next lane's previous value on both sides. -/
theorem deltaRoundTrip : Obligations.DeltaRoundTrip := by
  intro E off v
  induction v generalizing off with
  | nil => rfl
  | cons v vs ih =>
    have hv : off - unzigzag (zigzag (off - v)) = v := by
      rw [unzigzag_zigzag, sub_sub_cancel]
    simp only [encodeDeltas, decodeDeltas, hv, ih]

/-! ### A batch written back to VBUF -/

/-- A lane below 64 of a 64-element batch written to VBUF is the widened element. -/
theorem vbufAt_putVbuf_map_lt {E : Nat} (s : State) (vs : List (BitVec E)) (f : BitVec E → Word)
    (hl : vs.length = 64) (i : Nat) (hi : i < 64) :
    vbufAt (s.putVbuf (vs.map f)) i = f (vs[i]'(by omega)) := by
  rw [vbufAt_putVbuf s _ i (by simp [hl]), if_pos (by simp [hl, hi]), getD_map_lt]

/-- VBUF[64..127] is kept when a 64-element batch is written. -/
theorem vbufAt_putVbuf_map_ge {E : Nat} (s : State) (vs : List (BitVec E)) (f : BitVec E → Word)
    (hl : vs.length = 64) (i : Nat) (hi : 64 ≤ i) :
    vbufAt (s.putVbuf (vs.map f)) i = vbufAt s i := by
  rw [vbufAt_putVbuf s _ i (by simp [hl]), if_neg (by simp [hl, hi])]

/-! ### XENC and XDEC -/

/-- Lane i of the encoded batch, from the lanes of VBUF (40_transform.md R407). -/
theorem encodeDeltas_batchElems_getElem (s : State) (i : Nat) (hi : i < 64) :
    (encodeDeltas (lowElem s.cfgEW s.offset) (batchElems s.cfgEW s))[i]'(by simpa using hi) =
      zigzag (lowElem s.cfgEW (if i = 0 then s.offset else vbufAt s (i - 1))
        - lowElem s.cfgEW (vbufAt s i)) := by
  rw [encodeDeltas_getElem _ _ i (by simpa using hi), batchElems_getElem _ _ i hi]
  cases i with
  | zero => rfl
  | succ i => simp [batchElems_getElem _ _ i (by omega : i < 64)]

/-- Settles O22: each lane of the result is a lane of the encoded batch, zero-extended. -/
theorem xencEncodesTheBatch : Obligations.XencEncodesTheBatch := by
  refine ⟨by decide, fun s => ⟨_, exec_xenc s, rfl, fun i hi => ?_, fun i hi => ?_⟩⟩
  · exact (vbufAt_putVbuf_map_lt s _ zext64 (by simp) i hi).trans
      (congrArg zext64 (encodeDeltas_batchElems_getElem s i hi))
  · exact vbufAt_putVbuf_map_ge s _ zext64 (by simp) i hi

/-- The state XDEC ends in. -/
def xdecResult (s : State) : State :=
  conclude .ok (s.putVbuf
    ((decodeDeltas (lowElem s.cfgEW s.offset) (batchElems s.cfgEW s)).map (extend64 s.cfgSX)))

theorem exec_xdec_eq_xdecResult (s : State) : exec .xdec s = .next (xdecResult s) := exec_xdec s

/-- A result lane of XDEC is the decoded element, extended. -/
theorem vbufAt_xdecResult_lt (s : State) (i : Nat) (hi : i < 64) :
    vbufAt (xdecResult s) i = extend64 s.cfgSX
      ((decodeDeltas (lowElem s.cfgEW s.offset) (batchElems s.cfgEW s))[i]'(by simpa using hi)) :=
  vbufAt_putVbuf_map_lt s _ (extend64 s.cfgSX) (by simp) i hi

/-- Settles O23: the element a result lane holds is the decoded one whatever SX says, so the chain may be
read from the results in VBUF. -/
theorem xdecDecodesTheBatch : Obligations.XdecDecodesTheBatch := by
  refine ⟨by decide, fun s =>
    ⟨xdecResult s, exec_xdec_eq_xdecResult s, rfl, fun i hi => ?_, fun i hi => ?_⟩⟩
  · rw [vbufAt_xdecResult_lt s i hi, decodeDeltas_getElem _ _ i (by simpa using hi),
      batchElems_getElem _ _ i hi]
    cases i with
    | zero => rfl
    | succ i => simp [vbufAt_xdecResult_lt s i (by omega), lowElem_extend64]
  · exact vbufAt_putVbuf_map_ge s _ (extend64 s.cfgSX) (by simp) i hi

end Sys2Proof.Machine
end

section
/-! The packer family (41_packer.md): the bit at each stream position of the packed Words, and what PACK
and UNPACK leave in PBUF and VBUF. -/

namespace Sys2Proof.Machine

/-! ### Stream positions (30_encoding.md R307) -/

/-- The stream position of bit b of value i, N bits to a value (30_encoding.md R307). -/
def streamPos (n i b : Nat) : Nat := i * n + (n - 1 - b)

/-- The bit at stream position p of the Words: the most significant bit of Word 0 is at position 0
(30_encoding.md R307). -/
def streamBit (words : Nat → Word) (p : Nat) : Bool := (words (p / 64)).getLsbD (63 - p % 64)

/-- The 64 values take up no more than N Words. -/
theorem streamPos_div_lt {n i b : Nat} (hi : i < 64) (hb : b < n) : streamPos n i b / 64 < n := by
  have hvalues : i * n ≤ 63 * n := Nat.mul_le_mul_right n (by omega)
  unfold streamPos
  omega

/-- Every position of the N Words holds a bit of one of the 64 values. -/
theorem exists_streamPos_eq {n p : Nat} (hp : p < 64 * n) :
    ∃ i b, i < 64 ∧ b < n ∧ streamPos n i b = p := by
  have hn : 0 < n := by omega
  have hmod : p % n < n := Nat.mod_lt p hn
  refine ⟨p / n, n - 1 - p % n, (Nat.div_lt_iff_lt_mul hn).mpr hp, by omega, ?_⟩
  calc p / n * n + (n - 1 - (n - 1 - p % n))
      = n * (p / n) + p % n := by rw [Nat.mul_comm, show n - 1 - (n - 1 - p % n) = p % n by omega]
    _ = p := Nat.div_add_mod p n

/-- N Words are determined by the bits at their 64·N stream positions. -/
theorem word_eq_of_streamBit_eq {f g : Nat → Word} {n : Nat}
    (h : ∀ p < 64 * n, streamBit f p = streamBit g p) {j : Nat} (hj : j < n) : f j = g j := by
  apply BitVec.eq_of_getLsbD_eq
  intro k hk
  have hword : (64 * j + (63 - k)) / 64 = j := by omega
  have hbit : 63 - (64 * j + (63 - k)) % 64 = k := by omega
  have hpos := h (64 * j + (63 - k)) (by omega)
  rwa [streamBit, streamBit, hword, hbit] at hpos

/-! ### PACK -/

/-- The state PACK ends in when WIDTH is at most 64 (41_packer.md R505). -/
def packResult (s : State) : State :=
  conclude .ok (s.putPbuf (packWords s.width.toNat (batchLanes s)))

theorem exec_pack_eq_packResult (s : State) (h : s.width.toNat ≤ 64) :
    exec .pack s = .next (packResult s) := exec_pack s h

/-- INVALID_WIDTH, and nothing else is written (41_packer.md R505). -/
theorem exec_pack_of_width_gt (s : State) (h : 64 < s.width.toNat) :
    exec .pack s = .next { s with result := .invalidWidth, phase := .idle } := by
  show execPack s = _
  rw [execPack, if_pos h]
  rfl

@[simp] theorem packResult_width (s : State) : (packResult s).width = s.width := rfl

/-- PBUF after PACK: N packed Words, then the old ones. -/
theorem pbufAt_packResult (s : State) (h : s.width.toNat ≤ 64) (j : Nat) :
    pbufAt (packResult s) j =
      if j < s.width.toNat then (packWords s.width.toNat (batchLanes s)).getD j 0
      else pbufAt s j := by
  have hput := pbufAt_putPbuf s (packWords s.width.toNat (batchLanes s)) j (by simpa using h)
  rwa [packWords_length] at hput

/-- PACK keeps PBUF[N..63]. -/
theorem pbufAt_packResult_ge (s : State) (h : s.width.toNat ≤ 64) (j : Nat)
    (hj : s.width.toNat ≤ j) : pbufAt (packResult s) j = pbufAt s j := by
  rw [pbufAt_packResult s h, if_neg (by omega)]

/-- After PACK, bit b of value i is at its stream position of PBUF. -/
theorem streamBit_packResult (s : State) (h : s.width.toNat ≤ 64) (i b : Nat) (hi : i < 64)
    (hb : b < s.width.toNat) :
    streamBit (pbufAt (packResult s)) (streamPos s.width.toNat i b) = (vbufAt s i).getLsbD b := by
  rw [streamBit, pbufAt_packResult s h, if_pos (streamPos_div_lt hi hb), ← batchLanes_getD s i hi]
  exact packWords_bit s.width.toNat (batchLanes s) i b (batchLanes_length s) hi hb

/-- Settles O24, from what PACK leaves at each stream position and in PBUF[N..63]. -/
theorem packPlacesEveryBit : Obligations.PackPlacesEveryBit := by
  refine ⟨by decide, fun s => ⟨exec_pack_of_width_gt s, fun h => ?_⟩⟩
  exact ⟨packResult s, exec_pack_eq_packResult s h, rfl, streamBit_packResult s h,
    pbufAt_packResult_ge s h⟩

/-! ### UNPACK -/

/-- The state UNPACK ends in when WIDTH is at most 64 (41_packer.md R506). -/
def unpackResult (s : State) : State :=
  conclude .ok (s.putVbuf (unpackWords s.width.toNat (packedWords s s.width.toNat)))

theorem exec_unpack_eq_unpackResult (s : State) (h : s.width.toNat ≤ 64) :
    exec .unpack s = .next (unpackResult s) := exec_unpack s h

/-- INVALID_WIDTH, and nothing else is written (41_packer.md R506). -/
theorem exec_unpack_of_width_gt (s : State) (h : 64 < s.width.toNat) :
    exec .unpack s = .next { s with result := .invalidWidth, phase := .idle } := by
  show execUnpack s = _
  rw [execUnpack, if_pos h]
  rfl

@[simp] theorem unpackResult_width (s : State) : (unpackResult s).width = s.width := rfl

/-- VBUF after UNPACK: 64 unpacked values, then the old entries. -/
theorem vbufAt_unpackResult (s : State) (i : Nat) :
    vbufAt (unpackResult s) i =
      if i < 64 then (unpackWords s.width.toNat (packedWords s s.width.toNat)).getD i 0
      else vbufAt s i := by
  have hput := vbufAt_putVbuf s (unpackWords s.width.toNat (packedWords s s.width.toNat)) i (by simp)
  rwa [unpackWords_length] at hput

/-- UNPACK keeps VBUF[64..127]. -/
theorem vbufAt_unpackResult_ge (s : State) (i : Nat) (hi : 64 ≤ i) :
    vbufAt (unpackResult s) i = vbufAt s i := by
  rw [vbufAt_unpackResult, if_neg (by omega)]

/-- After UNPACK, bit b of value i is the bit at its stream position of PBUF. -/
theorem vbufAt_unpackResult_bit (s : State) (h : s.width.toNat ≤ 64) (i b : Nat) (hi : i < 64)
    (hb : b < s.width.toNat) :
    (vbufAt (unpackResult s) i).getLsbD b =
      streamBit (pbufAt s) (streamPos s.width.toNat i b) := by
  rw [vbufAt_unpackResult, if_pos hi,
    unpackWords_bit _ _ i b h (packedWords_length s _ h) hi, if_pos hb,
    streamBit, ← packedWords_getD s _ _ (streamPos_div_lt hi hb)]
  rfl

/-- After UNPACK, the bits of a value from N up are 0. -/
theorem vbufAt_unpackResult_bit_ge (s : State) (h : s.width.toNat ≤ 64) (i b : Nat) (hi : i < 64)
    (hb : s.width.toNat ≤ b) : (vbufAt (unpackResult s) i).getLsbD b = false := by
  rw [vbufAt_unpackResult, if_pos hi,
    unpackWords_bit _ _ i b h (packedWords_length s _ h) hi, if_neg (by omega)]

/-- Settles O25, from what UNPACK leaves in each bit of VBUF[0..63] and in VBUF[64..127]. -/
theorem unpackReadsEveryBit : Obligations.UnpackReadsEveryBit := by
  refine ⟨by decide, fun s => ⟨exec_unpack_of_width_gt s, fun h => ?_⟩⟩
  exact ⟨unpackResult s, exec_unpack_eq_unpackResult s h, rfl, vbufAt_unpackResult_bit s h,
    vbufAt_unpackResult_bit_ge s h, vbufAt_unpackResult_ge s⟩

/-! ### The round trips (41_packer.md R504) -/

/-- UNPACK after PACK: the low N bits are read from the positions PACK wrote them at, the others are 0. -/
theorem vbufAt_unpackResult_packResult (s : State) (h : s.width.toNat ≤ 64) (i : Nat) (hi : i < 64) :
    (vbufAt (unpackResult (packResult s)) i).toNat =
      (vbufAt s i).toNat % 2 ^ s.width.toNat := by
  apply Nat.eq_of_testBit_eq
  intro b
  rw [Nat.testBit_mod_two_pow, BitVec.testBit_toNat, BitVec.testBit_toNat]
  by_cases hb : b < s.width.toNat
  · simpa [hb] using (vbufAt_unpackResult_bit (packResult s) h i b hi hb).trans
      (streamBit_packResult s h i b hi hb)
  · simpa [hb] using vbufAt_unpackResult_bit_ge (packResult s) h i b hi (Nat.le_of_not_lt hb)

/-- PACK after UNPACK writes to every stream position of PBUF[0..N-1] the bit UNPACK read there. -/
theorem streamBit_packResult_unpackResult (s : State) (h : s.width.toNat ≤ 64) (p : Nat)
    (hp : p < 64 * s.width.toNat) :
    streamBit (pbufAt (packResult (unpackResult s))) p = streamBit (pbufAt s) p := by
  obtain ⟨i, b, hi, hb, rfl⟩ := exists_streamPos_eq hp
  calc streamBit (pbufAt (packResult (unpackResult s))) (streamPos s.width.toNat i b)
      = (vbufAt (unpackResult s) i).getLsbD b := streamBit_packResult (unpackResult s) h i b hi hb
    _ = streamBit (pbufAt s) (streamPos s.width.toNat i b) := vbufAt_unpackResult_bit s h i b hi hb

/-- PACK after UNPACK leaves PBUF as it was. -/
theorem packResult_unpackResult_pbuf (s : State) (h : s.width.toNat ≤ 64) :
    (packResult (unpackResult s)).pbuf = s.pbuf := by
  apply vector_ext_getD
  intro j _
  by_cases hj : j < s.width.toNat
  · exact word_eq_of_streamBit_eq (streamBit_packResult_unpackResult s h) hj
  · exact pbufAt_packResult_ge (unpackResult s) h j (Nat.le_of_not_lt hj)

/-- Settles O26, from the two round trips; PACK and UNPACK keep WIDTH, so the second command has the
width of the first. -/
theorem packUnpackRoundTrips : Obligations.PackUnpackRoundTrips := by
  intro s h
  have hpack : (packResult s).width.toNat ≤ 64 := by rwa [packResult_width]
  have hunpack : (unpackResult s).width.toNat ≤ 64 := by rwa [unpackResult_width]
  exact ⟨⟨_, _, exec_pack_eq_packResult s h, exec_unpack_eq_unpackResult _ hpack,
      vbufAt_unpackResult_packResult s h⟩,
    ⟨_, _, exec_unpack_eq_unpackResult s h, exec_pack_eq_packResult _ hunpack,
      packResult_unpackResult_pbuf s h⟩⟩

end Sys2Proof.Machine
end

section
/-! The width selector and batch codec family (42_width_codec.md): a batch written to VBUF is the batch the
next command reads, so BENC and BDEC are the chains of the commands they compose. -/

namespace Sys2Proof.Machine

/-! ### A batch written to VBUF and read again -/

/-- A second write that covers the first leaves nothing of it. -/
theorem overwrite_overwrite {n : Nat} (buf : Vector Word n) (us vs : List Word)
    (hle : us.length ≤ vs.length) (fits : vs.length ≤ n) :
    overwrite (overwrite buf us) vs = overwrite buf vs := by
  apply vector_ext_getD
  intro i _
  simp only [overwrite]
  rw [overwriteAt_getD _ 0 vs i (by omega), overwriteAt_getD _ 0 vs i (by omega)]
  by_cases hi : i < 0 + vs.length
  · rw [if_pos ⟨Nat.zero_le i, hi⟩, if_pos ⟨Nat.zero_le i, hi⟩]
  · rw [if_neg (by omega), if_neg (by omega), overwriteAt_getD _ 0 us i (by omega),
      if_neg (by omega)]

theorem putVbuf_putVbuf (s : State) (us vs : List Word) (hle : us.length ≤ vs.length)
    (fits : vs.length ≤ 128) : (s.putVbuf us).putVbuf vs = s.putVbuf vs :=
  congrArg (fun b => { s with vbuf := b }) (overwrite_overwrite s.vbuf us vs hle fits)

/-- The lanes of the batch are the 64 values just written. -/
theorem batchLanes_putVbuf (s : State) (vs : List Word) (hl : vs.length = 64) :
    batchLanes (s.putVbuf vs) = vs := by
  rw [batchLanes, firstEntries, putVbuf_vbuf, overwrite, overwriteAt_toList, List.take_take]
  simp [hl, Config.vbufLen]

/-- The elements of the batch are those of the 64 values just written. -/
theorem batchElems_putVbuf (ew : BitVec 2) (s : State) (vs : List Word) (hl : vs.length = 64) :
    batchElems ew (s.putVbuf vs) = vs.map (lowElem ew) := by
  rw [batchElems, batchLanes_putVbuf s vs hl]

/-- Zero-extended elements are read back as they were. -/
theorem map_lowElem_map_zext64 (ew : BitVec 2) (zs : List (BitVec (elemBits ew))) :
    (zs.map zext64).map (lowElem ew) = zs := by
  have hround : lowElem ew ∘ zext64 = id := funext (lowElem_extend64 ew false)
  rw [List.map_map, hround, List.map_id]

@[simp] theorem batchLanes_conclude (r : ResultCode) (s : State) :
    batchLanes (conclude r s) = batchLanes s := rfl

@[simp] theorem batchLanes_putWidth (s : State) (v : Word) :
    batchLanes (s.putWidth v) = batchLanes s := rfl

@[simp] theorem batchElems_conclude (ew : BitVec 2) (r : ResultCode) (s : State) :
    batchElems ew (conclude r s) = batchElems ew s := rfl

/-- A property of every element of the batch, lane by lane. -/
theorem forall_mem_batchElems (ew : BitVec 2) (s : State) (p : BitVec (elemBits ew) → Prop) :
    (∀ z ∈ batchElems ew s, p z) ↔ ∀ i < 64, p (lowElem ew (vbufAt s i)) := by
  rw [List.forall_mem_iff_forall_getElem]
  constructor
  · intro h i hi
    rw [← batchElems_getElem ew s i hi]
    exact h i (by simpa using hi)
  · intro h i hi
    have hi64 : i < 64 := by simpa using hi
    rw [batchElems_getElem ew s i hi64]
    exact h i hi64

/-! ### MINW -/

/-- The state MINW ends in (42_width_codec.md R604). -/
def minwResult (s : State) : State :=
  conclude .ok (s.putWidth (BitVec.ofNat 64 (minWidth (batchElems s.cfgEW s))))

theorem exec_minw_eq_minwResult (s : State) : exec .minw s = .next (minwResult s) := exec_minw s

/-- The least width is at most 64, so WIDTH holds it whole. -/
theorem minWidth_ofNat_toNat {ew : BitVec 2} (zs : List (BitVec (elemBits ew))) :
    (BitVec.ofNat 64 (minWidth zs)).toNat = minWidth zs := by
  have hle : minWidth zs ≤ 64 := (minWidth_le_elem zs).trans (elemBits_le ew)
  rw [BitVec.toNat_ofNat, Nat.mod_eq_of_lt (by omega)]

theorem minwResult_width_toNat (s : State) :
    (minwResult s).width.toNat = minWidth (batchElems s.cfgEW s) := minWidth_ofNat_toNat _

/-- WIDTH after MINW is at most m exactly when every element fits in m bits. -/
theorem minwResult_width_le (s : State) (m : Nat) :
    (minwResult s).width.toNat ≤ m ↔ ∀ i < 64, elemValue s.cfgEW (vbufAt s i) < 2 ^ m := by
  rw [minwResult_width_toNat, minWidth_le, forall_mem_batchElems]
  simp only [lowElem_toNat]

/-- WIDTH after MINW is at most E. -/
theorem minwResult_width_le_elemBits (s : State) :
    (minwResult s).width.toNat ≤ elemBits s.cfgEW :=
  (minwResult_width_toNat s).trans_le (minWidth_le_elem _)

/-- Settles O27: that WIDTH is at most m exactly when every element fits in m bits says both that they fit
in WIDTH bits and that no smaller width holds them. -/
theorem minwSelectsTheLeastWidth : Obligations.MinwSelectsTheLeastWidth := by
  refine ⟨by decide, fun s => ⟨minwResult s, exec_minw_eq_minwResult s, rfl,
    minwResult_width_le_elemBits s, ?_, fun m => ?_⟩⟩
  · exact (minwResult_width_le s _).mp le_rfl
  · exact (minwResult_width_le s m).mpr

/-! ### BENC -/

/-- The zig-zag values of the batch in VBUF, `ENC_E` of its elements (40_transform.md R403). -/
def batchDeltas (s : State) : List (BitVec (elemBits s.cfgEW)) :=
  encodeDeltas (lowElem s.cfgEW s.offset) (batchElems s.cfgEW s)

@[simp] theorem batchDeltas_length (s : State) : (batchDeltas s).length = 64 := by
  simp [batchDeltas]

/-- The state XENC ends in (40_transform.md R407). -/
def xencResult (s : State) : State := conclude .ok (s.putVbuf ((batchDeltas s).map zext64))

theorem exec_xenc_eq_xencResult (s : State) : exec .xenc s = .next (xencResult s) := exec_xenc s

@[simp] theorem batchLanes_xencResult (s : State) :
    batchLanes (xencResult s) = (batchDeltas s).map zext64 := by
  rw [xencResult, batchLanes_conclude, batchLanes_putVbuf s _ (by simp)]

/-- The elements MINW reads after XENC are the zig-zag values, no bit of them lost. -/
@[simp] theorem batchElems_xencResult (s : State) :
    batchElems s.cfgEW (xencResult s) = batchDeltas s := by
  rw [batchElems, batchLanes_xencResult, map_lowElem_map_zext64]

/-- A command that ends after it has written PBUF and WIDTH changes nothing else. -/
theorem conclude_putPbuf_putWidth (r : ResultCode) (s : State) (ws : List Word) (v : Word) :
    conclude r ((s.putPbuf ws).putWidth v) =
      { s with width := v, pbuf := overwrite s.pbuf ws, result := r, phase := .idle } := rfl

/-- The state BENC ends in (42_width_codec.md R605): the width of the zig-zag values, and the values packed
at that width. -/
def bencResult (s : State) : State :=
  conclude .ok ((s.putPbuf (packWords (minWidth (batchDeltas s)) ((batchDeltas s).map zext64))).putWidth
    (BitVec.ofNat 64 (minWidth (batchDeltas s))))

theorem exec_benc_eq_bencResult (s : State) : exec .benc s = .next (bencResult s) := exec_benc s

theorem bencResult_width (s : State) :
    (bencResult s).width = BitVec.ofNat 64 (minWidth (batchDeltas s)) := rfl

theorem bencResult_pbuf (s : State) : (bencResult s).pbuf =
    overwrite s.pbuf (packWords (minWidth (batchDeltas s)) ((batchDeltas s).map zext64)) := rfl

/-- BENC writes WIDTH and PBUF, and keeps VBUF and everything else. -/
theorem bencResult_frame (s : State) : bencResult s =
    { s with width := (bencResult s).width, pbuf := (bencResult s).pbuf, result := .ok, phase := .idle } := by
  rw [bencResult_width, bencResult_pbuf]
  exact conclude_putPbuf_putWidth .ok s _ _

/-- MINW after XENC selects the width of the zig-zag values. -/
theorem minwResult_xencResult_width (s : State) :
    (minwResult (xencResult s)).width = (bencResult s).width :=
  congrArg (fun zs => BitVec.ofNat 64 (minWidth zs)) (batchElems_xencResult s)

/-- MINW keeps the batch and PBUF, so PACK packs what XENC left. -/
theorem packResult_minwResult_xencResult_pbuf (s : State) :
    (packResult (minwResult (xencResult s))).pbuf = (bencResult s).pbuf := by
  have hwidth : (minwResult (xencResult s)).width.toNat = minWidth (batchDeltas s) := by
    rw [minwResult_xencResult_width]
    exact minWidth_ofNat_toNat _
  have hlanes : batchLanes (minwResult (xencResult s)) = (batchDeltas s).map zext64 := by
    rw [minwResult, batchLanes_conclude, batchLanes_putWidth, batchLanes_xencResult]
  rw [packResult, conclude_pbuf, putPbuf_pbuf, hwidth, hlanes]
  rfl

/-- Settles O28: the zig-zag values XENC leaves in VBUF are those BENC computes, so MINW and PACK give its
width and its Words. -/
theorem bencIsXencMinwPack : Obligations.BencIsXencMinwPack := by
  refine ⟨by decide, fun s => ?_⟩
  have hwidth : (minwResult (xencResult s)).width.toNat ≤ 64 :=
    (minwResult_width_le_elemBits _).trans (elemBits_le _)
  refine ⟨_, _, _, exec_xenc_eq_xencResult s, exec_minw_eq_minwResult _,
    exec_pack_eq_packResult _ hwidth, ?_⟩
  rw [packResult_width, minwResult_xencResult_width, packResult_minwResult_xencResult_pbuf,
    ← bencResult_frame]
  exact exec_benc_eq_bencResult s

/-! ### BDEC -/

/-- INVALID_WIDTH, and nothing else is written (42_width_codec.md R606). -/
theorem exec_bdec_of_width_gt (s : State) (h : elemBits s.cfgEW < s.width.toNat) :
    exec .bdec s = .next { s with result := .invalidWidth, phase := .idle } :=
  (exec_bdec s).trans (if_pos h)

/-- The state BDEC ends in when WIDTH is at most E (42_width_codec.md R606). -/
def bdecResult (s : State) : State :=
  conclude .ok (s.putVbuf ((decodeBatch (lowElem s.cfgEW s.offset) s.width.toNat
    (packedWords s s.width.toNat)).map (extend64 s.cfgSX)))

theorem exec_bdec_eq_bdecResult (s : State) (h : s.width.toNat ≤ elemBits s.cfgEW) :
    exec .bdec s = .next (bdecResult s) :=
  (exec_bdec s).trans (if_neg (Nat.not_lt.mpr h))

/-- The elements XDEC reads after UNPACK are those of the unpacked values. -/
theorem batchElems_unpackResult (ew : BitVec 2) (s : State) :
    batchElems ew (unpackResult s) =
      (unpackWords s.width.toNat (packedWords s s.width.toNat)).map (lowElem ew) := by
  rw [unpackResult, batchElems_conclude, batchElems_putVbuf ew s _ (by simp)]

/-- XDEC after UNPACK decodes the unpacked values and writes over every one of them. -/
theorem xdecResult_unpackResult (s : State) : xdecResult (unpackResult s) = bdecResult s := by
  have hdecoded : decodeDeltas (lowElem s.cfgEW s.offset) (batchElems s.cfgEW (unpackResult s)) =
      decodeBatch (lowElem s.cfgEW s.offset) s.width.toNat (packedWords s s.width.toNat) := by
    rw [batchElems_unpackResult]
    rfl
  calc xdecResult (unpackResult s)
      = conclude .ok ((s.putVbuf (unpackWords s.width.toNat (packedWords s s.width.toNat))).putVbuf
          ((decodeDeltas (lowElem s.cfgEW s.offset) (batchElems s.cfgEW (unpackResult s))).map
            (extend64 s.cfgSX))) := rfl
    _ = bdecResult s := by
        rw [hdecoded, putVbuf_putVbuf s _ _ (by simp) (by simp), bdecResult]

/-- Settles O29: above E BDEC refuses; else XDEC reads the values UNPACK left, and E is at most 64, so UNPACK
does not refuse. -/
theorem bdecIsUnpackXdec : Obligations.BdecIsUnpackXdec := by
  refine ⟨by decide, fun s => ⟨exec_bdec_of_width_gt s, fun h => ?_⟩⟩
  refine ⟨_, _, exec_unpack_eq_unpackResult s (h.trans (elemBits_le _)),
    exec_xdec_eq_xdecResult _, ?_⟩
  rw [xdecResult_unpackResult]
  exact exec_bdec_eq_bdecResult s h

end Sys2Proof.Machine
end

section
/-! The page header family (43_header.md): what HSET, HFULL and HPART leave in each bit of HDR, what HGET
and HCLASS read from it, and the slots and register values the commands refuse. -/

namespace Sys2Proof.Machine

variable (s : State) (slot : Nat)

/-! ### What the five commands share -/

/-- The word of a command with a SLOT operand (30_encoding.md R300, R301). -/
theorem encode_of_slot (i : Instr) (hi : i.slot? = some slot) (h : slot < 16) :
    encode i = BitVec.ofNat 64 (i.opcode + slot * 256) := by
  have hwf : i.wellFormed = true := by simp [Instr.wellFormed, hi, h]
  have hop : i.opcode < 64 := opcode_lt i
  apply BitVec.eq_of_toNat_eq
  rw [encode_toNat i hwf, hi, Option.getD_some, BitVec.toNat_ofNat, Nat.mod_eq_of_lt (by omega),
    Nat.mul_comm]

/-- A value that is written to a field wide enough for it is kept. -/
theorem setWidth_toNat_of_le {v : Word} {n : Nat} (h : v.toNat ≤ 2 ^ n - 1) :
    (v.setWidth n).toNat = v.toNat := by
  have hpos : 0 < 2 ^ n := Nat.two_pow_pos n
  rw [BitVec.toNat_setWidth, Nat.mod_eq_of_lt (by omega)]

/-- A command that ends after it has written HDR changes nothing else. -/
theorem conclude_putHdr (r : ResultCode) (v : Word) :
    conclude r (s.putHdr v) = { s with hdr := v, result := r, phase := .idle } := rfl

/-! ### HSET -/

/-- BAD_ARG, and nothing else is written (43_header.md R701). -/
theorem exec_hset_of_badArg (h : 8 < slot ∨ 127 < s.width.toNat) :
    exec (.hset slot) s = .next { s with result := .badArg, phase := .idle } := by
  show execHset slot s = _
  rw [execHset, ← ite_or, if_pos h]
  rfl

theorem exec_hset (hslot : slot ≤ 8) (hw : s.width.toNat ≤ 127) :
    exec (.hset slot) s =
      .next (conclude .ok (s.putHdr (setField s.hdr slot (s.width.setWidth 7)))) := by
  show execHset slot s = _
  rw [execHset, if_neg (Nat.not_lt.mpr hslot), if_neg (Nat.not_lt.mpr hw), finish_eq_conclude]

/-- Settles O32: `setfield` replaces one slot, and WIDTH fits the slot's 7 bits. -/
theorem hsetWritesOneSlot : Obligations.HsetWritesOneSlot := by
  refine ⟨fun slot => encode_of_slot slot (.hset slot) rfl, fun s slot =>
    ⟨exec_hset_of_badArg s slot, fun hslot hw => ?_⟩⟩
  refine ⟨_, exec_hset s slot hslot hw, rfl, fun k hk => ?_, setField_flag _ slot _ hslot⟩
  rw [conclude_hdr, putHdr_hdr, setField_slotValue _ _ _ _ hslot hk, setWidth_toNat_of_le hw]

/-! ### HGET -/

/-- BAD_ARG, and nothing else is written (43_header.md R702). -/
theorem exec_hget_of_slot_gt (h : 8 < slot) :
    exec (.hget slot) s = .next { s with result := .badArg, phase := .idle } := by
  show execHget slot s = _
  rw [execHget, if_pos h]
  rfl

/-- The model's 7-bit field, zero-extended, is the slot's number. -/
theorem zext64_field (h : Word) (k : Nat) : zext64 (field h k) = BitVec.ofNat 64 (slotValue h k) := by
  rw [← field_toNat, BitVec.ofNat_toNat, zext64]

theorem exec_hget (hslot : slot ≤ 8) :
    exec (.hget slot) s =
      .next (conclude .ok (s.putWidth (BitVec.ofNat 64 (slotValue s.hdr slot)))) := by
  show execHget slot s = _
  rw [execHget, if_neg (Nat.not_lt.mpr hslot), zext64_field, finish_eq_conclude]

/-- Settles O33, from the two cases of the slot. -/
theorem hgetReadsOneSlot : Obligations.HgetReadsOneSlot :=
  ⟨fun slot => encode_of_slot slot (.hget slot) rfl, fun s slot =>
    ⟨exec_hget_of_slot_gt s slot, exec_hget s slot⟩⟩

/-! ### HFULL -/

theorem exec_hfull : exec .hfull s = .next (conclude .ok (s.putHdr (s.hdr ||| fullFlag))) := rfl

/-- HFULL sets bit 63 and keeps the others. -/
theorem or_fullFlag_getLsbD (h : Word) (k : Nat) :
    (h ||| fullFlag).getLsbD k = (h.getLsbD k || decide (k = 63)) := by
  rw [BitVec.getLsbD_or, fullFlag_getLsbD]

/-- Settles O34, bit by bit. -/
theorem hfullSetsTheFlag : Obligations.HfullSetsTheFlag := by
  refine ⟨by decide, fun s => ⟨_, exec_hfull s, rfl, ?_, fun k hk => ?_⟩⟩
  · rw [conclude_hdr, putHdr_hdr, or_fullFlag_getLsbD, decide_eq_true rfl, Bool.or_true]
  · rw [conclude_hdr, putHdr_hdr, or_fullFlag_getLsbD, decide_eq_false (by omega), Bool.or_false]

/-! ### HPART -/

/-- BAD_ARG, and nothing else is written (43_header.md R705). -/
theorem exec_hpart_of_badArg (h : 8 < slot ∨ 255 < s.count.toNat) :
    exec (.hpart slot) s = .next { s with result := .badArg, phase := .idle } := by
  show execHpart slot s = _
  rw [execHpart, ← ite_or, if_pos h]
  rfl

theorem exec_hpart (hslot : slot ≤ 8) (hc : s.count.toNat ≤ 255) :
    exec (.hpart slot) s =
      .next (conclude .ok (s.putHdr (finishPartial s.hdr slot (s.count.setWidth 8)))) := by
  show execHpart slot s = _
  rw [execHpart, if_neg (Nat.not_lt.mpr hslot), if_neg (Nat.not_lt.mpr hc), finish_eq_conclude]

/-- Settles O35: the sentinels fill the slots from the given one to 7, and the count, which fits its 8 bits,
replaces slot 8. -/
theorem hpartFinishesTheHeader : Obligations.HpartFinishesTheHeader := by
  refine ⟨fun slot => encode_of_slot slot (.hpart slot) rfl, fun s slot =>
    ⟨exec_hpart_of_badArg s slot, fun hslot hc => ?_⟩⟩
  refine ⟨_, exec_hpart s slot hslot hc, rfl, fun k hk hk7 => ?_, fun k hk hk7 => ?_, ?_⟩
  · rw [conclude_hdr, putHdr_hdr, finishPartial_slotValue _ _ _ _ hk7, if_neg (Nat.not_le.mpr hk)]
  · rw [conclude_hdr, putHdr_hdr, finishPartial_slotValue _ _ _ _ hk7, if_pos hk]
  · rw [conclude_hdr, putHdr_hdr, ← tailCount_eq, finishPartial_tailCount, setWidth_toNat_of_le hc]

/-! ### HCLASS -/

/-- BAD_ARG, and nothing else is written (43_header.md R707). -/
theorem exec_hclass_of_slot_gt (h : 8 < slot) :
    exec (.hclass slot) s = .next { s with result := .badArg, phase := .idle } := by
  show execHclass slot s = _
  rw [execHclass, if_pos h]
  rfl

/-- The state HCLASS ends in, by what the slot says (43_header.md R707). -/
def hclassResult : SlotClass → State
  | .block n => conclude .ok (s.putWidth (BitVec.ofNat 64 n))
  | .terminal r => conclude .tail (s.putCount (BitVec.ofNat 64 r))
  | .invalid => conclude .invalidWidth s

theorem exec_hclass (hslot : slot ≤ 8) :
    exec (.hclass slot) s = .next (hclassResult s (classify s.hdr slot)) := by
  show execHclass slot s = _
  rw [execHclass, if_neg (Nat.not_lt.mpr hslot)]
  cases classify s.hdr slot <;> rfl

/-- Settles O36, along the three outcomes of `CLASSIFY` in slot values. -/
theorem hclassClassifiesTheSlot : Obligations.HclassClassifiesTheSlot := by
  refine ⟨fun slot => encode_of_slot slot (.hclass slot) rfl, fun s slot => ?_⟩
  split
  next hslot => exact exec_hclass_of_slot_gt s slot hslot
  next hslot =>
    rw [exec_hclass s slot (Nat.not_lt.mp hslot), classify_eq]
    split
    next => rfl
    next =>
      split
      next => rfl
      next => rfl

end Sys2Proof.Machine
end

section
/-! The page writer family (44_writer.md): the context WINIT leaves. -/

namespace Sys2Proof.Machine

/-! ### WINIT -/

/-- The element a Word holds, zero-extended, is the element's number (00_scope.md R14). -/
theorem zext64_lowElem (ew : BitVec 2) (v : Word) :
    zext64 (lowElem ew v) = BitVec.ofNat 64 (elemValue ew v) := by
  rw [← lowElem_toNat, BitVec.ofNat_toNat, zext64]

/-- The context of a new writer: the page is empty, the element width and the initial offset are latched,
and PAGEBUF keeps its Words (44_writer.md R801). -/
def startedWriter (s : State) : Writer where
  state := .filling
  slot := 0
  len := 0
  pageBuf := s.writer.pageBuf
  hdr := 0
  last := BitVec.ofNat 64 (elemValue s.cfgEW s.initOffset)
  ew := s.cfgEW

theorem exec_winit (s : State) :
    exec .winit s = .next (conclude .ok (s.putWriter (startedWriter s))) := by
  show execWinit s = _
  rw [execWinit, zext64_lowElem, finish_eq_conclude]
  rfl

/-- A command that ends after it has written the writer context changes nothing else. -/
theorem conclude_putWriter (r : ResultCode) (s : State) (w : Writer) :
    conclude r (s.putWriter w) = { s with writer := w, result := r, phase := .idle } := rfl

/-- Settles O37: WINIT reads no field of the old context but PAGEBUF, so it does the same in every writer
state. -/
theorem winitStartsTheWriter : Obligations.WinitStartsTheWriter := by
  refine ⟨by decide, fun s => ?_⟩
  rw [exec_winit, conclude_putWriter]
  rfl

end Sys2Proof.Machine
end

section
/-! The page reader family (45_reader.md): the context RINIT leaves. -/

namespace Sys2Proof.Machine

/-! ### RINIT -/

/-- The context of a new reader: no header is loaded, and the element width, the extension and the initial
offset are latched (45_reader.md R901). -/
def startedReader (s : State) : Reader where
  state := .active
  slot := 9
  hdr := 0
  last := BitVec.ofNat 64 (elemValue s.cfgEW s.initOffset)
  ew := s.cfgEW
  sx := s.cfgSX

theorem exec_rinit (s : State) :
    exec .rinit s = .next (conclude .ok (s.putReader (startedReader s))) := by
  show execRinit s = _
  rw [execRinit, zext64_lowElem, finish_eq_conclude]
  rfl

/-- A command that ends after it has written the reader context changes nothing else. -/
theorem conclude_putReader (r : ResultCode) (s : State) (c : Reader) :
    conclude r (s.putReader c) = { s with reader := c, result := r, phase := .idle } := rfl

/-- Settles O43: RINIT writes every field of the reader context and reads none of the old one, so it does the
same in every reader state. -/
theorem rinitStartsTheReader : Obligations.RinitStartsTheReader := by
  refine ⟨by decide, fun s => ?_⟩
  rw [exec_rinit, conclude_putReader]
  rfl

end Sys2Proof.Machine
end

section
/-! The command control family (46_control.md): NOP, and the words with its opcode that are not NOP. -/

namespace Sys2Proof.Machine

/-! ### NOP -/

theorem exec_nop (s : State) : exec .nop s = .next (conclude .ok s) := rfl

/-- A word with NOP's opcode and a nonzero SLOT is illegal: its only fault is the SLOT (30_encoding.md
R302). -/
theorem decode_of_nop_slot_ne_zero (c : Word) (hres : reservedClear c = true)
    (hop : opField c = Instr.nop.opcode) (hslot : slotField c ≠ 0) :
    decode c = .error .slotNotUsed := by
  have hrow : decodeRow Instr.nop.opcode (slotField c) = withoutSlot (slotField c) .nop := rfl
  rw [decode, if_pos hres, hop, hrow, withoutSlot, if_neg hslot]

/-- Settles O18: 0x100 has NOP's opcode with SLOT = 1, and NOP is the end of a command with nothing before it. -/
theorem nopOnlySetsResult : Obligations.NopOnlySetsResult := by
  refine ⟨by decide, fun i hi => ?_, exec_nop⟩
  rw [decode_of_nop_slot_ne_zero 0x100 (by decide) (by decide) (by decide)] at hi
  cases hi

end Sys2Proof.Machine
end

section
/-! The page commands as equations, one per outcome (44_writer.md, 45_reader.md). -/

namespace Sys2Proof.Machine

variable (s : State)

/-! ### The sink's answer -/

/-- The sink takes the whole page of a call that succeeds (20_memory.md R209). -/
theorem take_of_succeeds {r : SinkReply} {bytes : List Byte} (k : Sink) (h : r.succeeds bytes = true) :
    k.take r bytes = { k with accepted := k.accepted ++ bytes } := by
  rw [Sink.take, if_pos h]

/-- A failed call leaves a beginning of the page on the sink (20_memory.md R209). -/
theorem take_of_fails {r : SinkReply} {bytes : List Byte} (k : Sink) (h : r.succeeds bytes = false) :
    k.take r bytes = { k with accepted := k.accepted ++ bytes.take r.held } := by
  rw [Sink.take, if_neg (by simp [h])]

theorem succeeds_iff (r : SinkReply) (bytes : List Byte) :
    r.succeeds bytes = true ↔ r.err = false ∧ bytes.length ≤ r.accepted := by
  simp [SinkReply.succeeds]

theorem sinkReturn_of_fails (call : SinkCall) {bytes : List Byte} {r : SinkReply}
    (h : r.succeeds bytes = false) : sinkReturn call bytes r s =
      { s with
        sink := { s.sink with accepted := s.sink.accepted ++ bytes.take r.held }
        writer := { s.writer with state := .broken }
        result := .ioError
        phase := .idle } := by
  unfold sinkReturn
  rw [if_neg (by simp [h]), take_of_fails _ h]
  rfl

theorem sinkReturn_wbatch (n : Nat) {bytes : List Byte} {r : SinkReply} (h : r.succeeds bytes = true) :
    sinkReturn (.wbatch n) bytes r s =
      { s with
        sink := { s.sink with accepted := s.sink.accepted ++ bytes }
        writer := s.writer.emptied
        width := BitVec.ofNat 64 n
        result := .ok
        phase := .idle } := by
  rw [sinkReturn, if_pos h, take_of_succeeds _ h]
  rfl

theorem sinkReturn_wflush {bytes : List Byte} {r : SinkReply} (h : r.succeeds bytes = true) :
    sinkReturn .wflush bytes r s =
      { s with
        sink := { s.sink with accepted := s.sink.accepted ++ bytes }
        writer := { s.writer.emptied with state := .closed }
        result := .ok
        phase := .idle } := by
  rw [sinkReturn, if_pos h, take_of_succeeds _ h]
  rfl

/-! ### WBATCH -/

/-- The block of the batch in VBUF against W_LAST (44_writer.md R802). -/
def writerBlock : Nat × List Word :=
  encodeBatch (lowElem s.writer.ew s.writer.last) (batchElems s.writer.ew s)

/-- The writer context with that block on its page (44_writer.md R802). -/
def appendedWriter : Writer :=
  s.writer.append (writerBlock s).1 (writerBlock s).2 (zext64 (lowElem s.writer.ew s.vbuf[63]))

/-- The writer context while the full page is handed to the sink (44_writer.md R803). -/
def fullWriter : Writer :=
  { appendedWriter s with hdr := (appendedWriter s).hdr ||| fullFlag }

/-- The bytes of the full page (44_writer.md R803). -/
def fullPage : List Byte := serWords s.byteOrder ((fullWriter s).hdr :: (fullWriter s).blocks)

theorem exec_wbatch_of_not_filling (h : s.writer.state ≠ .filling) :
    exec .wbatch s = .next (conclude .badState s) := by
  show execWbatch s = _
  rw [execWbatch, if_pos h]
  rfl

theorem exec_wbatch_append (h : s.writer.state = .filling) (hslot : s.writer.slot ≠ 8) :
    exec .wbatch s = .next
      { s with
        writer := appendedWriter s
        width := BitVec.ofNat 64 (writerBlock s).1
        result := .ok
        phase := .idle } := by
  have hnext : s.writer.slot + 1 ≠ 9 := fun e => hslot (by bv_omega)
  show execWbatch s = _
  rw [execWbatch, if_neg (not_not_intro h)]
  exact if_neg hnext

theorem exec_wbatch_emit (h : s.writer.state = .filling) (hslot : s.writer.slot = 8) :
    exec .wbatch s = .next (sinkWrite (.wbatch (writerBlock s).1) (fullPage s)
      (sinkReturn (.wbatch (writerBlock s).1) (fullPage s)) (s.putWriter (fullWriter s))) := by
  have hnext : s.writer.slot + 1 = 9 := by rw [hslot]; rfl
  show execWbatch s = _
  rw [execWbatch, if_neg (not_not_intro h)]
  exact if_pos hnext

/-! ### WFLUSH -/

/-- The bytes of the terminal page (44_writer.md R804). -/
def lastPage : List Byte := serWords s.byteOrder (terminalPage s s.count.toNat)

theorem exec_wflush_of_not_filling (h : s.writer.state ≠ .filling) :
    exec .wflush s = .next (conclude .badState s) := by
  show execWflush s = _
  rw [execWflush, if_pos h]
  rfl

theorem exec_wflush_of_count_gt (h : s.writer.state = .filling) (hc : 63 < s.count.toNat) :
    exec .wflush s = .next (conclude .badArg s) := by
  show execWflush s = _
  rw [execWflush, if_neg (not_not_intro h), if_pos hc]
  rfl

theorem exec_wflush_empty (h : s.writer.state = .filling) (hslot : s.writer.slot = 0)
    (hc : s.count = 0) :
    exec .wflush s = .next
      { s with writer := { s.writer with state := .closed }, result := .ok, phase := .idle } := by
  show execWflush s = _
  rw [execWflush, if_neg (not_not_intro h), if_neg (by simp [hc]), if_pos ⟨hslot, hc⟩]
  rfl

theorem exec_wflush_emit (h : s.writer.state = .filling) (hc : s.count.toNat ≤ 63)
    (hsome : ¬(s.writer.slot = 0 ∧ s.count = 0)) :
    exec .wflush s = .next
      (sinkWrite .wflush (lastPage s) (sinkReturn .wflush (lastPage s)) s) := by
  show execWflush s = _
  rw [execWflush, if_neg (not_not_intro h), if_neg (Nat.not_lt.mpr hc), if_neg hsome]
  rfl

/-! ### RBATCH -/

theorem exec_rbatch_of_done (h : s.reader.state = .done) :
    exec .rbatch s = .next (conclude .endOfData s) := by
  show execRbatch s = _
  rw [execRbatch, h]
  rfl

theorem exec_rbatch_of_failed (h : s.reader.state = .failed) :
    exec .rbatch s = .next (conclude .badState s) := by
  show execRbatch s = _
  rw [execRbatch, h]
  rfl

theorem exec_rbatch_header (h : s.reader.state = .active) (hslot : s.reader.slot = 9) :
    exec .rbatch s = .next (srcRead .header headerAnswer s) := by
  show execRbatch s = _
  simp only [execRbatch, h, if_pos hslot]

theorem exec_rbatch_slot (h : s.reader.state = .active) (hslot : s.reader.slot ≠ 9) :
    exec .rbatch s = .next (readSlot s) := by
  show execRbatch s = _
  simp only [execRbatch, h, if_neg hslot]

theorem readSlot_of_invalid (h : classify s.reader.hdr s.reader.slot.toNat = .invalid) :
    readSlot s = readerFails .invalidWidth s := by
  simp only [readSlot, h]

theorem readSlot_of_width_gt {n : Nat} (h : classify s.reader.hdr s.reader.slot.toNat = .block n)
    (hn : elemBits s.reader.ew < n) : readSlot s = readerFails .invalidWidth s := by
  simp only [readSlot, h, readBlock, if_pos hn]

theorem readSlot_of_block_zero (h : classify s.reader.hdr s.reader.slot.toNat = .block 0) :
    readSlot s = deliverBlock 0 s.reader.slot.toNat [] s := by
  simp only [readSlot, h, readBlock, Nat.not_lt_zero, if_false, if_true]

theorem readSlot_of_block {n : Nat} (h : classify s.reader.hdr s.reader.slot.toNat = .block n)
    (hn : n ≤ elemBits s.reader.ew) (hpos : 0 < n) :
    readSlot s = srcRead (.block n s.reader.slot.toNat) (blockAnswer n s.reader.slot.toNat) s := by
  simp only [readSlot, h, readBlock, if_neg (Nat.not_lt.mpr hn), if_neg (Nat.ne_of_gt hpos)]

theorem readSlot_of_tail_zero (h : classify s.reader.hdr s.reader.slot.toNat = .terminal 0) :
    readSlot s = deliverTail 0 [] s := by
  simp only [readSlot, h, readTail, if_true]

theorem readSlot_of_tail {r : Nat} (h : classify s.reader.hdr s.reader.slot.toNat = .terminal r)
    (hpos : 0 < r) : readSlot s = srcRead (.tail r) (tailAnswer r) s := by
  simp only [readSlot, h, readTail, if_neg (Nat.ne_of_gt hpos)]

end Sys2Proof.Machine
end

section
/-! What a command and a step can change, by the family of the command and by the agent that moves
(20_memory.md R216, 46_control.md R1001, R1005, R1006). -/

namespace Sys2Proof.Machine

/-! ### The families of commands -/

/-- The commands of the Page Writer (44_writer.md). -/
def forWriter : Instr → Bool
  | .winit | .wbatch | .wflush => true
  | .nop | .xenc | .xdec | .minw | .pack | .unpack | .benc | .bdec | .hset _ | .hget _ | .hfull
  | .hpart _ | .hclass _ | .rinit | .rbatch => false

/-- The commands of the Page Reader (45_reader.md). -/
def forReader : Instr → Bool
  | .rinit | .rbatch => true
  | .nop | .xenc | .xdec | .minw | .pack | .unpack | .benc | .bdec | .hset _ | .hget _ | .hfull
  | .hpart _ | .hclass _ | .winit | .wbatch | .wflush => false

theorem forWriter_iff (i : Instr) : forWriter i = true ↔ i = .winit ∨ i = .wbatch ∨ i = .wflush := by
  cases i <;> simp [forWriter]

theorem forReader_iff (i : Instr) : forReader i = true ↔ i = .rinit ∨ i = .rbatch := by
  cases i <;> simp [forReader]

/-- `t` is `s` after a command that ended with host outputs and no context write. -/
def EndsWithOutputs (s t : State) : Prop :=
  ∃ vb pb w c h r,
    t = { s with vbuf := vb, pbuf := pb, width := w, count := c, hdr := h, result := r, phase := .idle } ∧
      (r.isFinish = false → vb = s.vbuf ∧ pb = s.pbuf ∧ w = s.width ∧ c = s.count ∧ h = s.hdr)

/-- `t` is `s` after a writer command that ended. -/
def WriterEnds (s t : State) : Prop :=
  ∃ wr k w r,
    t = { s with writer := wr, sink := k, width := w, result := r, phase := .idle } ∧
      (r.isFinish = false → w = s.width)

/-- `t` is `s` after a writer command that waits for the sink, which had no answer ready. -/
def WaitsOnSink (s t : State) : Prop :=
  s.sink.replies = [] ∧ ∃ wr call bytes, t = { s with writer := wr, phase := .sinkWait call bytes }

/-- A source that has answered EOF has no byte left (20_memory.md R210). -/
def SourceSettled (k : Source) : Prop := k.ended = true → k.bytes = []

/-- `t` is `s` after a reader command that ended. -/
def ReaderEnds (s t : State) : Prop :=
  ∃ rd src vb w c r,
    t = { s with
          reader := rd, source := src, vbuf := vb, width := w, count := c, result := r, phase := .idle } ∧
      (r.isFinish = false → vb = s.vbuf ∧ w = s.width ∧ c = s.count) ∧
      (SourceSettled s.source → SourceSettled src)

/-- `t` is `s` after a reader command that waits for the source, which had at most `k` answers ready and
has none now. -/
def WaitsOnSource (k : Nat) (s t : State) : Prop :=
  s.source.replies.length ≤ k ∧
    ∃ rd src call, t = { s with reader := rd, source := src, phase := .sourceWait call } ∧
      src.replies = [] ∧ (SourceSettled s.source → SourceSettled src)

/-! ### The commands of no page family -/

/-- A command that ends and has written nothing. -/
theorem endsWithOutputs_conclude (s : State) (r : ResultCode) : EndsWithOutputs s (conclude r s) :=
  ⟨s.vbuf, s.pbuf, s.width, s.count, s.hdr, r, rfl, fun _ => ⟨rfl, rfl, rfl, rfl, rfl⟩⟩

/-- A command that ends with OK or TAIL after it has written host outputs. -/
theorem endsWithOutputs_finish {s : State} {vb : Vector Word 128} {pb : Vector Word 64} {w c h : Word}
    (r : ResultCode) (hr : r.isFinish = true) :
    EndsWithOutputs s
      { s with vbuf := vb, pbuf := pb, width := w, count := c, hdr := h, result := r, phase := .idle } :=
  ⟨vb, pb, w, c, h, r, rfl, fun hf => absurd (hr.symm.trans hf) Bool.true_eq_false_eq_False⟩

/-- A command of no page family ends with host outputs. -/
theorem exec_endsWithOutputs (i : Instr) (s : State) (hw : forWriter i = false)
    (hr : forReader i = false) : ∃ t, exec i s = .next t ∧ EndsWithOutputs s t := by
  cases i
  case nop => exact ⟨_, exec_nop s, endsWithOutputs_conclude s .ok⟩
  case xenc => exact ⟨_, exec_xenc s, endsWithOutputs_finish .ok rfl⟩
  case xdec => exact ⟨_, exec_xdec s, endsWithOutputs_finish .ok rfl⟩
  case minw => exact ⟨_, exec_minw s, endsWithOutputs_finish .ok rfl⟩
  case benc =>
    refine ⟨_, exec_benc_eq_bencResult s, ?_⟩
    rw [bencResult_frame]
    exact endsWithOutputs_finish .ok rfl
  case hfull => exact ⟨_, exec_hfull s, endsWithOutputs_finish .ok rfl⟩
  case pack =>
    rcases Nat.lt_or_ge 64 s.width.toNat with hn | hn
    · exact ⟨_, exec_pack_of_width_gt s hn, endsWithOutputs_conclude s _⟩
    · exact ⟨_, exec_pack s hn, endsWithOutputs_finish .ok rfl⟩
  case unpack =>
    rcases Nat.lt_or_ge 64 s.width.toNat with hn | hn
    · exact ⟨_, exec_unpack_of_width_gt s hn, endsWithOutputs_conclude s _⟩
    · exact ⟨_, exec_unpack s hn, endsWithOutputs_finish .ok rfl⟩
  case bdec =>
    rcases Nat.lt_or_ge (elemBits s.cfgEW) s.width.toNat with hn | hn
    · exact ⟨_, exec_bdec_of_width_gt s hn, endsWithOutputs_conclude s _⟩
    · exact ⟨_, exec_bdec_eq_bdecResult s hn, endsWithOutputs_finish .ok rfl⟩
  case hset slot =>
    by_cases hbad : 8 < slot ∨ 127 < s.width.toNat
    · exact ⟨_, exec_hset_of_badArg s slot hbad, endsWithOutputs_conclude s _⟩
    · exact ⟨_, exec_hset s slot (by omega) (by omega), endsWithOutputs_finish .ok rfl⟩
  case hget slot =>
    rcases Nat.lt_or_ge 8 slot with hn | hn
    · exact ⟨_, exec_hget_of_slot_gt s slot hn, endsWithOutputs_conclude s _⟩
    · exact ⟨_, exec_hget s slot hn, endsWithOutputs_finish .ok rfl⟩
  case hpart slot =>
    by_cases hbad : 8 < slot ∨ 255 < s.count.toNat
    · exact ⟨_, exec_hpart_of_badArg s slot hbad, endsWithOutputs_conclude s _⟩
    · exact ⟨_, exec_hpart s slot (by omega) (by omega), endsWithOutputs_finish .ok rfl⟩
  case hclass slot =>
    rcases Nat.lt_or_ge 8 slot with hn | hn
    · exact ⟨_, exec_hclass_of_slot_gt s slot hn, endsWithOutputs_conclude s _⟩
    · refine ⟨_, exec_hclass s slot hn, ?_⟩
      cases classify s.hdr slot with
      | block n => exact endsWithOutputs_finish .ok rfl
      | terminal r => exact endsWithOutputs_finish .tail rfl
      | invalid => exact endsWithOutputs_conclude s _
  all_goals contradiction

/-! ### The writer commands -/

/-- The sink's answer ends its command; on a failure WIDTH is as before. -/
theorem writerEnds_sinkReturn (call : SinkCall) (bytes : List Byte) (r : SinkReply) (s : State) :
    WriterEnds s (sinkReturn call bytes r s) := by
  cases hr : r.succeeds bytes with
  | false => rw [sinkReturn_of_fails s call hr]; exact ⟨_, _, s.width, _, rfl, fun _ => rfl⟩
  | true =>
    cases call with
    | wbatch n => rw [sinkReturn_wbatch s n hr]; exact ⟨_, _, _, .ok, rfl, nofun⟩
    | wflush => rw [sinkReturn_wflush s hr]; exact ⟨_, _, s.width, _, rfl, fun _ => rfl⟩

/-- A page handed to the sink ends its command or waits, whatever the writer context was before. -/
theorem sinkWrite_endsOrWaits (call : SinkCall) (bytes : List Byte) (wr : Writer) (s : State) :
    let t := sinkWrite call bytes (sinkReturn call bytes) (s.putWriter wr)
    WriterEnds s t ∨ WaitsOnSink s t := by
  rcases sinkWrite_cases call bytes (sinkReturn call bytes) (s.putWriter wr) with
    ⟨hnone, e⟩ | ⟨r, rest, -, e⟩
  · exact .inr ⟨hnone, wr, call, bytes, e⟩
  · obtain ⟨wr', k, w, c, e', hkeep⟩ := writerEnds_sinkReturn call bytes r
      ((s.putWriter wr).putSink { s.sink with replies := rest })
    exact .inl ⟨wr', k, w, c, e.trans e', hkeep⟩

/-- A command that ends with nothing but its result has kept every output. -/
theorem writerEnds_conclude (r : ResultCode) (s : State) : WriterEnds s (conclude r s) :=
  ⟨s.writer, s.sink, s.width, r, rfl, fun _ => rfl⟩

/-- A writer command ends, or it is WBATCH or WFLUSH and waits for the sink. -/
theorem exec_writer_endsOrWaits (i : Instr) (s : State) (hi : forWriter i = true) :
    ∃ t, exec i s = .next t ∧
      (WriterEnds s t ∨ ((i = .wbatch ∨ i = .wflush) ∧ WaitsOnSink s t)) := by
  cases i
  case winit => exact ⟨_, exec_winit s, .inl ⟨_, s.sink, s.width, _, rfl, fun _ => rfl⟩⟩
  case wbatch =>
    by_cases hf : s.writer.state = .filling
    · by_cases hslot : s.writer.slot = 8
      · exact ⟨_, exec_wbatch_emit s hf hslot,
          (sinkWrite_endsOrWaits _ _ _ s).imp_right fun hw => ⟨.inl rfl, hw⟩⟩
      · exact ⟨_, exec_wbatch_append s hf hslot, .inl ⟨_, s.sink, _, .ok, rfl, nofun⟩⟩
    · exact ⟨_, exec_wbatch_of_not_filling s hf, .inl (writerEnds_conclude _ s)⟩
  case wflush =>
    by_cases hf : s.writer.state = .filling
    · rcases Nat.lt_or_ge 63 s.count.toNat with hc | hc
      · exact ⟨_, exec_wflush_of_count_gt s hf hc, .inl (writerEnds_conclude _ s)⟩
      · by_cases hnone : s.writer.slot = 0 ∧ s.count = 0
        · exact ⟨_, exec_wflush_empty s hf hnone.1 hnone.2,
            .inl ⟨_, s.sink, s.width, _, rfl, fun _ => rfl⟩⟩
        · exact ⟨_, exec_wflush_emit s hf hc hnone,
            (sinkWrite_endsOrWaits .wflush (lastPage s) s.writer s).imp_right
              fun hw => ⟨.inr rfl, hw⟩⟩
    · exact ⟨_, exec_wflush_of_not_filling s hf, .inl (writerEnds_conclude _ s)⟩
  all_goals contradiction

/-! ### The reader commands -/

/-- A command that has changed no host output and not the source, whatever its result. -/
theorem readerEnds_keep (rd : Reader) (r : ResultCode) (s : State) :
    ReaderEnds s { s with reader := rd, result := r, phase := .idle } :=
  ⟨rd, s.source, s.vbuf, s.width, s.count, r, rfl, fun _ => ⟨rfl, rfl, rfl⟩, id⟩

theorem readerEnds_deliverBlock (n slot : Nat) (ws : List Word) (s : State) :
    ReaderEnds s (deliverBlock n slot ws s) :=
  ⟨_, s.source, _, _, _, .ok, deliverBlock_eq s n slot ws, nofun, id⟩

theorem readerEnds_deliverTail (count : Nat) (ws : List Word) (s : State) :
    ReaderEnds s (deliverTail count ws s) :=
  ⟨_, s.source, _, s.width, _, .tail, deliverTail_eq s count ws, nofun, id⟩

theorem readerEnds_blockAnswer (n slot : Nat) (a : SourceAnswer) (s : State) :
    ReaderEnds s (blockAnswer n slot a s) := by
  cases a with
  | ok b => exact readerEnds_deliverBlock n slot _ s
  | eof b => exact readerEnds_keep _ .truncated s
  | err => exact readerEnds_keep _ .ioError s

theorem readerEnds_tailAnswer (count : Nat) (a : SourceAnswer) (s : State) :
    ReaderEnds s (tailAnswer count a s) := by
  cases a with
  | ok b => exact readerEnds_deliverTail count _ s
  | eof b => exact readerEnds_keep _ .truncated s
  | err => exact readerEnds_keep _ .ioError s

section put
variable {s t : State} {rd : Reader} {src : Source}

/-- The frame of a reader command does not depend on the reader context before it, nor on the source. -/
theorem readerEnds_of_put (hsrc : SourceSettled s.source → SourceSettled src)
    (h : ReaderEnds ((s.putReader rd).putSource src) t) : ReaderEnds s t := by
  obtain ⟨rd', src', vb, w, c, r, e, hkeep, hset⟩ := h
  exact ⟨rd', src', vb, w, c, r, e, hkeep, fun h => hset (hsrc h)⟩

/-- A wait after the source has used one of its ready answers. -/
theorem waitsOnSource_of_put {k : Nat} (hsrc : SourceSettled s.source → SourceSettled src)
    (hlen : s.source.replies.length ≤ src.replies.length + 1)
    (h : WaitsOnSource k ((s.putReader rd).putSource src) t) : WaitsOnSource (k + 1) s t := by
  obtain ⟨hfew, rd', src', call, e, hnone, hset⟩ := h
  rw [putSource_source] at hfew
  exact ⟨by omega, rd', src', call, e, hnone, fun h => hset (hsrc h)⟩

end put

theorem answer_settled {k : Source} (n : Nat) (r : SourceReply) (rest : List SourceReply)
    (h : SourceSettled k) : SourceSettled (Source.answer { k with replies := rest } n r).2 :=
  (answer_keeps { k with replies := rest } n r).2 h

/-- A wait for the first answer. -/
theorem waitsOnSource_hold (k : Nat) (call : SourceCall) (s : State) (hnone : s.source.replies = []) :
    WaitsOnSource k s (s.hold (.sourceWait call)) :=
  ⟨by simp [hnone], s.reader, s.source, call, rfl, hnone, id⟩

/-- A read that ends its command with every answer: the command ends, or waits for the answer. -/
theorem srcRead_endsOrWaits (call : SourceCall) (go : SourceAnswer → State → State) (s : State)
    (hgo : ∀ a u, ReaderEnds u (go a u)) :
    ReaderEnds s (srcRead call go s) ∨ WaitsOnSource 0 s (srcRead call go s) := by
  rcases srcRead_cases call go s with ⟨hnone, e⟩ | ⟨r, rest, -, e⟩
  · exact .inr (e ▸ waitsOnSource_hold 0 call s hnone)
  · rw [e]
    exact .inl (readerEnds_of_put (rd := s.reader) (answer_settled _ r rest) (hgo _ _))

theorem readSlot_endsOrWaits (s : State) : ReaderEnds s (readSlot s) ∨ WaitsOnSource 0 s (readSlot s) := by
  cases hc : classify s.reader.hdr s.reader.slot.toNat with
  | invalid => rw [readSlot_of_invalid s hc]; exact .inl (readerEnds_keep _ .invalidWidth s)
  | terminal r =>
    rcases Nat.eq_zero_or_pos r with rfl | hpos
    · rw [readSlot_of_tail_zero s hc]; exact .inl (readerEnds_deliverTail 0 _ s)
    · rw [readSlot_of_tail s hc hpos]
      exact srcRead_endsOrWaits _ _ s (readerEnds_tailAnswer r)
  | block n =>
    rcases Nat.lt_or_ge (elemBits s.reader.ew) n with hn | hn
    · rw [readSlot_of_width_gt s hc hn]; exact .inl (readerEnds_keep _ .invalidWidth s)
    · rcases Nat.eq_zero_or_pos n with rfl | hpos
      · rw [readSlot_of_block_zero s hc]; exact .inl (readerEnds_deliverBlock 0 _ _ s)
      · rw [readSlot_of_block s hc hn hpos]
        exact srcRead_endsOrWaits _ _ s (readerEnds_blockAnswer n _)

/-- The header's answer ends the command, or goes on to the slot with the header loaded. -/
theorem headerAnswer_endsOrWaits (a : SourceAnswer) (s : State) :
    ReaderEnds s (headerAnswer a s) ∨ WaitsOnSource 0 s (headerAnswer a s) := by
  cases a with
  | err => exact .inl (readerEnds_keep _ .ioError s)
  | eof b =>
    cases b with
    | nil => exact .inl (readerEnds_keep _ .endOfData s)
    | cons x xs => exact .inl (readerEnds_keep _ .truncated s)
  | ok b =>
    rcases readSlot_endsOrWaits (s.putReader { s.reader with hdr := deser s.byteOrder b, slot := 0 }) with
      hend | ⟨hnone, rd, src, call, e, hwait⟩
    · exact .inl (readerEnds_of_put (src := s.source) id hend)
    · exact .inr ⟨hnone, rd, src, call, e, hwait⟩

/-- The source's answer ends the command that waited for it, or the command waits for the slot's read. -/
theorem sourceReturn_endsOrWaits (call : SourceCall) (a : SourceAnswer) (s : State) :
    ReaderEnds s (sourceReturn call a s) ∨ WaitsOnSource 0 s (sourceReturn call a s) := by
  cases call with
  | header => exact headerAnswer_endsOrWaits a s
  | tail r => exact .inl (readerEnds_tailAnswer r a s)
  | block n slot => exact .inl (readerEnds_blockAnswer n slot a s)

/-- The header's read takes one answer, and the slot's read at most one more. -/
theorem srcRead_header_endsOrWaits (s : State) :
    ReaderEnds s (srcRead .header headerAnswer s) ∨
      WaitsOnSource 1 s (srcRead .header headerAnswer s) := by
  rcases srcRead_cases .header headerAnswer s with ⟨hnone, e⟩ | ⟨r, rest, hready, e⟩
  · exact .inr (e ▸ waitsOnSource_hold 1 _ s hnone)
  · rw [e]
    have hset := answer_settled (k := s.source) SourceCall.header.request r rest
    have hleft := (answer_keeps { s.source with replies := rest } SourceCall.header.request r).1
    generalize Source.answer { s.source with replies := rest } SourceCall.header.request r = reply
      at hset hleft
    exact (headerAnswer_endsOrWaits reply.1 (s.putSource reply.2)).imp
      (readerEnds_of_put (rd := s.reader) hset)
      (waitsOnSource_of_put (rd := s.reader) hset (by simp [hleft, hready]))

/-- A reader command ends, or it is RBATCH and waits for the source. -/
theorem exec_reader_endsOrWaits (i : Instr) (s : State) (hi : forReader i = true) :
    ∃ t, exec i s = .next t ∧ (ReaderEnds s t ∨ (i = .rbatch ∧ WaitsOnSource 1 s t)) := by
  cases i
  case rinit =>
    exact ⟨_, exec_rinit s, .inl (readerEnds_keep _ .ok s)⟩
  case rbatch =>
    cases hst : s.reader.state with
    | done => exact ⟨_, exec_rbatch_of_done s hst, .inl (readerEnds_keep s.reader _ s)⟩
    | failed => exact ⟨_, exec_rbatch_of_failed s hst, .inl (readerEnds_keep s.reader _ s)⟩
    | active =>
      by_cases hslot : s.reader.slot = 9
      · exact ⟨_, exec_rbatch_header s hst hslot,
          (srcRead_header_endsOrWaits s).imp_right fun hw => ⟨rfl, hw⟩⟩
      · exact ⟨_, exec_rbatch_slot s hst hslot,
          (readSlot_endsOrWaits s).imp_right fun hw => ⟨rfl, hw.1.trans (Nat.zero_le 1), hw.2⟩⟩
  all_goals contradiction

/-! ### Every command -/

/-- Everything a command can do, by its family. -/
theorem exec_cases (i : Instr) (s : State) : ∃ t, exec i s = .next t ∧
    ((forWriter i = false ∧ forReader i = false ∧ EndsWithOutputs s t) ∨
      (forWriter i = true ∧ WriterEnds s t) ∨ ((i = .wbatch ∨ i = .wflush) ∧ WaitsOnSink s t) ∨
      (forReader i = true ∧ ReaderEnds s t) ∨ (i = .rbatch ∧ WaitsOnSource 1 s t)) := by
  cases hw : forWriter i with
  | true =>
    obtain ⟨t, e, hend | hwait⟩ := exec_writer_endsOrWaits i s hw
    · exact ⟨t, e, .inr (.inl ⟨rfl, hend⟩)⟩
    · exact ⟨t, e, .inr (.inr (.inl hwait))⟩
  | false =>
    cases hr : forReader i with
    | true =>
      obtain ⟨t, e, hend | hwait⟩ := exec_reader_endsOrWaits i s hr
      · exact ⟨t, e, .inr (.inr (.inr (.inl ⟨rfl, hend⟩)))⟩
      · exact ⟨t, e, .inr (.inr (.inr (.inr hwait)))⟩
    | false =>
      obtain ⟨t, e, hend⟩ := exec_endsWithOutputs i s hw hr
      exact ⟨t, e, .inl ⟨rfl, rfl, hend⟩⟩

/-- The same for a command whose next state is given. -/
theorem cases_of_exec {i : Instr} {s t : State} (h : exec i s = .next t) :
    (forWriter i = false ∧ forReader i = false ∧ EndsWithOutputs s t) ∨
      (forWriter i = true ∧ WriterEnds s t) ∨ ((i = .wbatch ∨ i = .wflush) ∧ WaitsOnSink s t) ∨
      (forReader i = true ∧ ReaderEnds s t) ∨ (i = .rbatch ∧ WaitsOnSource 1 s t) := by
  obtain ⟨u, e, hcases⟩ := exec_cases i s
  cases e.symm.trans h
  exact hcases

/-- Settles O50: a family that can end with an error has kept its outputs when it does. -/
theorem errorResultsKeepHostOutputs : Obligations.ErrorResultsKeepHostOutputs := by
  intro i s t h hidle hfail
  rcases cases_of_exec h with
    ⟨-, -, vb, pb, w, c, hd, r, rfl, hkeep⟩ | ⟨-, wr, k, w, r, rfl, hkeep⟩ |
      ⟨-, -, wr, call, bytes, rfl⟩ | ⟨-, rd, src, vb, w, c, r, rfl, hkeep, -⟩ |
      ⟨-, -, rd, src, call, rfl, -⟩
  · exact hkeep hfail
  · exact ⟨rfl, rfl, hkeep hfail, rfl, rfl⟩
  · cases hidle
  · obtain ⟨hvb, hw, hc⟩ := hkeep hfail
    exact ⟨hvb, rfl, hw, hc, rfl⟩
  · cases hidle

/-- Settles O51, from each family's frame. -/
theorem commandsKeepTheOtherContext : Obligations.CommandsKeepTheOtherContext := by
  intro i s t h
  rcases cases_of_exec h with
    ⟨-, -, vb, pb, w, c, hd, r, rfl, -⟩ | ⟨hi, wr, k, w, r, rfl, -⟩ |
      ⟨hi, -, wr, call, bytes, rfl⟩ | ⟨hi, rd, src, vb, w, c, r, rfl, -, -⟩ |
      ⟨rfl, -, rd, src, call, rfl, -⟩
  · exact ⟨fun _ _ => ⟨rfl, rfl⟩, fun _ _ _ => ⟨rfl, rfl⟩⟩
  · refine ⟨fun _ _ => ⟨rfl, rfl⟩, fun h1 h2 h3 => ?_⟩
    exact absurd ((forWriter_iff i).mp hi) (by simp [h1, h2, h3])
  · exact ⟨fun _ _ => ⟨rfl, rfl⟩, fun _ h2 h3 => absurd hi (not_or.mpr ⟨h2, h3⟩)⟩
  · refine ⟨fun h1 h2 => ?_, fun _ _ _ => ⟨rfl, rfl⟩⟩
    exact absurd ((forReader_iff i).mp hi) (by simp [h1, h2])
  · exact ⟨fun _ h2 => absurd rfl h2, fun _ _ _ => ⟨rfl, rfl⟩⟩

/-- Settles O52, from each family's frame. -/
theorem commandsKeepHostOnlyRegisters : Obligations.CommandsKeepHostOnlyRegisters := by
  intro i s t h
  rcases cases_of_exec h with
    ⟨-, -, vb, pb, w, c, hd, r, rfl, -⟩ | ⟨-, wr, k, w, r, rfl, -⟩ |
      ⟨-, -, wr, call, bytes, rfl⟩ | ⟨-, rd, src, vb, w, c, r, rfl, -, -⟩ |
      ⟨-, -, rd, src, call, rfl, -⟩
  all_goals exact ⟨rfl, rfl, rfl, rfl, rfl, rfl, rfl, rfl, rfl, rfl, rfl⟩

/-- Settles O53, from what each family ends in or waits for. -/
theorem commandsEndOrWaitOnAPort : Obligations.CommandsEndOrWaitOnAPort := by
  intro i s
  obtain ⟨t, e, hcases⟩ := exec_cases i s
  refine ⟨t, e, ?_⟩
  rcases hcases with
    ⟨-, -, vb, pb, w, c, hd, r, rfl, -⟩ | ⟨-, wr, k, w, r, rfl, -⟩ |
      ⟨hi, hnone, wr, call, bytes, rfl⟩ | ⟨-, rd, src, vb, w, c, r, rfl, -, -⟩ |
      ⟨hi, hfew, rd, src, call, rfl, -⟩
  · exact .inl rfl
  · exact .inl rfl
  · exact .inr (.inr ⟨hi, hnone, call, bytes, rfl⟩)
  · exact .inl rfl
  · exact .inr (.inl ⟨hi, hfew, call, rfl⟩)

end Sys2Proof.Machine
end

section
/-! What a step keeps: an invariant that the host's moves, the commands, the ports' answers and reset keep is
kept by every step; and the writer, reader and port invariants are (10_state.md R118, R128, R129; 20_memory.md
R210, R213). -/

namespace Sys2Proof.Machine

/-! ### One step, for an invariant -/

/-- No command waits for a port. -/
def Resting (p : Phase) : Prop := p = .idle ∨ p = .accepted

/-- `t` is `s` after a move that touches no context and no port, and no host output while a command waits for
a port. -/
def Quiet (s t : State) : Prop :=
  t.writer = s.writer ∧ t.reader = s.reader ∧ t.byteOrder = s.byteOrder ∧ t.sink = s.sink ∧
    t.source = s.source ∧
    ((t.phase = s.phase ∧ t.count = s.count ∧ t.vbuf = s.vbuf) ∨ (Resting s.phase ∧ Resting t.phase))

theorem quiet_of_hostMove {s t : State} (h : (∃ a, hostAccess a s = .next t) ∨ hostTurn s = .next t) :
    Quiet s t := by
  rcases hostMove_frame s t h with ⟨b, f, p, rfl⟩ | ⟨r, v, p, rfl⟩
  · exact ⟨rfl, rfl, rfl, rfl, rfl, .inl ⟨rfl, rfl, rfl⟩⟩
  · obtain ⟨hw, hr, ho, hk, hsrc, -, hp, hbusy⟩ := hostWrite_frame s r v
    refine ⟨hw, hr, ho, hk, hsrc, ?_⟩
    by_cases hidle : s.phase = .idle
    · refine .inr ⟨.inl hidle, ?_⟩
      exact hp.elim (fun e => .inl (e.trans hidle)) (fun e => .inr e.2)
    · obtain ⟨o, e⟩ := hbusy hidle
      exact .inl (by rw [e]; exact ⟨rfl, rfl, rfl⟩)

/-! ### The answers of the ports -/

/-- The sink's answer goes to the command that waits for it, else it stands ready (20_memory.md R213). -/
theorem sinkAnswers_cases (r : SinkReply) (s : State) :
    (∃ call bytes, s.phase = .sinkWait call bytes ∧ sinkAnswers r s = sinkReturn call bytes r s) ∨
      ((∀ call bytes, s.phase ≠ .sinkWait call bytes) ∧
        sinkAnswers r s = s.putSink { s.sink with replies := s.sink.replies ++ [r] }) := by
  unfold sinkAnswers
  cases s.phase with
  | sinkWait call bytes => exact .inl ⟨call, bytes, rfl, rfl⟩
  | idle => exact .inr ⟨fun _ _ => nofun, rfl⟩
  | accepted => exact .inr ⟨fun _ _ => nofun, rfl⟩
  | sourceWait call => exact .inr ⟨fun _ _ => nofun, rfl⟩

/-- The source's answer goes to the command that waits for it, else it stands ready (20_memory.md R213). -/
theorem sourceAnswers_cases (r : SourceReply) (s : State) :
    (∃ call, s.phase = .sourceWait call ∧
        sourceAnswers r s = sourceReturn call (s.source.answer call.request r).1
          (s.putSource (s.source.answer call.request r).2)) ∨
      ((∀ call, s.phase ≠ .sourceWait call) ∧
        sourceAnswers r s = s.putSource { s.source with replies := s.source.replies ++ [r] }) := by
  unfold sourceAnswers
  cases s.phase with
  | sourceWait call => exact .inl ⟨call, rfl, rfl⟩
  | idle => exact .inr ⟨fun _ => nofun, rfl⟩
  | accepted => exact .inr ⟨fun _ => nofun, rfl⟩
  | sinkWait call bytes => exact .inr ⟨fun _ => nofun, rfl⟩

/-- The awaited answer of the source. -/
theorem sourceAnswers_of_wait {s : State} {call : SourceCall} (h : s.phase = .sourceWait call)
    (r : SourceReply) :
    sourceAnswers r s = sourceReturn call (s.source.answer call.request r).1
      (s.putSource (s.source.answer call.request r).2) := by
  simp only [sourceAnswers, h]

/-- A predicate is kept by every step when the quiet moves, the commands, the answers of the two ports,
awaited or early, and reset keep it. -/
theorem step_keeps {P : State → Prop}
    (quiet : ∀ s t, P s → Quiet s t → P t)
    (command : ∀ i s t, P s → Resting s.phase → exec i s = .next t → P t)
    (sink : ∀ r s call bytes, P s → s.phase = .sinkWait call bytes → P (sinkReturn call bytes r s))
    (sinkEarly : ∀ rs s, P s → (∀ call bytes, s.phase ≠ .sinkWait call bytes) →
      P (s.putSink { s.sink with replies := rs }))
    (source : ∀ r s call, P s → s.phase = .sourceWait call → P (sourceAnswers r s))
    (sourceEarly : ∀ rs s, P s → (∀ call, s.phase ≠ .sourceWait call) →
      P (s.putSource { s.source with replies := rs }))
    (reset : ∀ held s, P s → P (resetBlock held s))
    (s t : State) (hs : P s) (h : step s = .next t) : P t := by
  have scheduled : ∀ rest, P { s with schedule := rest } := fun rest =>
    quiet s _ hs ⟨rfl, rfl, rfl, rfl, rfl, .inl ⟨rfl, rfl, rfl⟩⟩
  have engine : ∀ u, P u → u.phase = .accepted → runCommand u = .next t → P t := by
    intro u hu hp hrun
    rcases runCommand_cases u with ⟨i, -, e⟩ | ⟨_, -, e⟩ <;> rw [e] at hrun
    · exact command i u t hu (.inr hp) hrun
    · cases hrun
      exact quiet u _ hu ⟨rfl, rfl, rfl, rfl, rfl, .inr ⟨.inr hp, .inl rfl⟩⟩
  rcases step_cases s with
    ⟨hp, -, e⟩ | ⟨hp, rest, -, e⟩ | ⟨-, -, e⟩ | ⟨ev, rest, -, -, e⟩ <;> rw [e] at h
  · exact engine s hs hp h
  · exact engine _ (scheduled rest) hp h
  · exact quiet s t hs (quiet_of_hostMove (.inr h))
  · cases ev with
    | access a => exact quiet _ t (scheduled rest) (quiet_of_hostMove (.inl ⟨a, h⟩))
    | host => exact quiet _ t (scheduled rest) (quiet_of_hostMove (.inr h))
    | engine => cases h; exact scheduled rest
    | sinkReply r =>
      cases h
      rcases sinkAnswers_cases r { s with schedule := rest } with ⟨call, bytes, hp, e⟩ | ⟨hp, e⟩
      · exact e ▸ sink r _ call bytes (scheduled rest) hp
      · exact e ▸ sinkEarly _ _ (scheduled rest) hp
    | sourceReply r =>
      cases h
      rcases sourceAnswers_cases r { s with schedule := rest } with ⟨call, hp, -⟩ | ⟨hp, e⟩
      · exact source r _ call (scheduled rest) hp
      · exact e ▸ sourceEarly _ _ (scheduled rest) hp
    | reset held => cases h; exact reset held _ (scheduled rest)

/-! ### The frames, for an invariant of one side -/

theorem resting_ne_sinkWait {p : Phase} (h : Resting p) (call : SinkCall) (bytes : List Byte) :
    p ≠ .sinkWait call bytes := by
  rcases h with rfl | rfl <;> exact nofun

theorem resting_ne_sourceWait {p : Phase} (h : Resting p) (call : SourceCall) :
    p ≠ .sourceWait call := by
  rcases h with rfl | rfl <;> exact nofun

/-- A reader command that ended or waits has left the writer's side alone. -/
theorem sinkSide_of_reader {k : Nat} {s t : State} (h : ReaderEnds s t ∨ WaitsOnSource k s t) :
    t.writer = s.writer ∧ t.sink = s.sink ∧ ∀ call bytes, t.phase ≠ .sinkWait call bytes := by
  rcases h with ⟨_, _, _, _, _, _, rfl, -, -⟩ | ⟨-, _, _, _, rfl, -⟩ <;>
    exact ⟨rfl, rfl, fun _ _ => nofun⟩

/-- A writer command that ended or waits has left the reader's side alone. -/
theorem sourceSide_of_writer {s t : State} (h : WriterEnds s t ∨ WaitsOnSink s t) :
    t.reader = s.reader ∧ t.source = s.source ∧ ∀ call, t.phase ≠ .sourceWait call := by
  rcases h with ⟨_, _, _, _, rfl, -⟩ | ⟨-, _, _, _, rfl⟩ <;> exact ⟨rfl, rfl, fun _ => nofun⟩

/-- The source's answer to a wait: the command ends or waits for the next read. -/
theorem sourceAnswers_endsOrWaits {s : State} {call : SourceCall} (h : s.phase = .sourceWait call)
    (r : SourceReply) :
    ReaderEnds s (sourceAnswers r s) ∨ WaitsOnSource 1 s (sourceAnswers r s) := by
  rw [sourceAnswers_of_wait h]
  obtain ⟨hleft, hset⟩ := answer_keeps s.source call.request r
  exact (sourceReturn_endsOrWaits call _ _).imp (readerEnds_of_put (rd := s.reader) hset)
    (waitsOnSource_of_put (rd := s.reader) hset (by rw [hleft]; omega))

/-! ### The port invariant -/

theorem portInv_of_resting {s : State} (hsrc : SourceSettled s.source) (h : Resting s.phase) :
    s.portInv := by
  refine ⟨hsrc, ?_⟩
  rcases h with h | h <;> rw [h] <;> trivial

theorem portInv_of_sinkWait {s : State} {call : SinkCall} {bytes : List Byte}
    (h : s.phase = .sinkWait call bytes) :
    s.portInv ↔ SourceSettled s.source ∧ s.sink.replies = [] := by
  simp only [State.portInv, h, SourceSettled]

theorem portInv_of_sourceWait {s : State} {call : SourceCall} (h : s.phase = .sourceWait call) :
    s.portInv ↔ SourceSettled s.source ∧ s.source.replies = [] := by
  simp only [State.portInv, h, SourceSettled]

theorem portInv_settled {s : State} (h : s.portInv) : SourceSettled s.source := h.1

/-- Whether the port invariant holds is a matter of the ports and the phase. -/
theorem portInv_congr {s t : State} (hp : t.phase = s.phase) (hk : t.sink = s.sink)
    (hsrc : t.source = s.source) (h : s.portInv) : t.portInv := by
  unfold State.portInv at *
  rwa [hp, hk, hsrc]

theorem portInv_of_writer {s t : State} (hs : SourceSettled s.source)
    (h : WriterEnds s t ∨ WaitsOnSink s t) : t.portInv := by
  rcases h with ⟨_, _, _, _, rfl, -⟩ | ⟨hnone, _, _, _, rfl⟩
  · exact portInv_of_resting hs (.inl rfl)
  · exact (portInv_of_sinkWait rfl).mpr ⟨hs, hnone⟩

theorem portInv_of_reader {k : Nat} {s t : State} (hs : SourceSettled s.source)
    (h : ReaderEnds s t ∨ WaitsOnSource k s t) : t.portInv := by
  rcases h with ⟨_, _, _, _, _, _, rfl, -, hset⟩ | ⟨-, _, _, _, rfl, hnone, hset⟩
  · exact portInv_of_resting (hset hs) (.inl rfl)
  · exact (portInv_of_sourceWait rfl).mpr ⟨hset hs, hnone⟩

/-- Settles O58: a command waits only when the port had no answer left, and an answer that comes while it
waits ends the wait. -/
theorem stepKeepsThePortInvariant : Obligations.StepKeepsThePortInvariant := by
  refine step_keeps ?quiet ?command ?sink ?sinkEarly ?source ?sourceEarly ?reset
  case quiet =>
    rintro s t hs ⟨-, -, -, hk, hsrc, ⟨hp, -, -⟩ | ⟨-, hp⟩⟩
    · exact portInv_congr hp hk hsrc hs
    · exact portInv_of_resting (hsrc ▸ portInv_settled hs) hp
  case command =>
    intro i s t hs hp h
    have hset := portInv_settled hs
    rcases cases_of_exec h with ⟨-, -, hend⟩ | ⟨-, hend⟩ | ⟨-, hwait⟩ | ⟨-, hend⟩ | ⟨-, hwait⟩
    · obtain ⟨_, _, _, _, _, _, rfl, -⟩ := hend
      exact portInv_of_resting hset (.inl rfl)
    · exact portInv_of_writer hset (.inl hend)
    · exact portInv_of_writer hset (.inr hwait)
    · exact portInv_of_reader (k := 1) hset (.inl hend)
    · exact portInv_of_reader hset (.inr hwait)
  case sink =>
    intro r s call bytes hs _
    exact portInv_of_writer (portInv_settled hs) (.inl (writerEnds_sinkReturn call bytes r s))
  case sinkEarly =>
    intro rs s hs hp
    have hset := portInv_settled hs
    cases hphase : s.phase with
    | idle => exact portInv_of_resting hset (.inl hphase)
    | accepted => exact portInv_of_resting hset (.inr hphase)
    | sourceWait call =>
      obtain ⟨-, hnone⟩ := (portInv_of_sourceWait hphase).mp hs
      exact (portInv_of_sourceWait (s := s.putSink { s.sink with replies := rs }) hphase).mpr
        ⟨hset, hnone⟩
    | sinkWait call bytes => exact absurd hphase (hp call bytes)
  case source =>
    intro r s call hs hp
    exact portInv_of_reader (portInv_settled hs) (sourceAnswers_endsOrWaits hp r)
  case sourceEarly =>
    intro rs s hs hp
    have hset := portInv_settled hs
    cases hphase : s.phase with
    | idle => exact portInv_of_resting hset (.inl hphase)
    | accepted => exact portInv_of_resting hset (.inr hphase)
    | sinkWait call bytes =>
      obtain ⟨-, hnone⟩ := (portInv_of_sinkWait hphase).mp hs
      exact (portInv_of_sinkWait (s := s.putSource { s.source with replies := rs }) hphase).mpr
        ⟨hset, hnone⟩
    | sourceWait call => exact absurd hphase (hp call)
  case reset =>
    intro held s hs
    have hset := portInv_settled hs
    exact portInv_of_resting hset (.inl rfl)

end Sys2Proof.Machine
end

section
/-! The writer invariant (10_state.md R115, R128): a block appended to the page, a page handed to the sink, and
the sink's answer keep it. -/

namespace Sys2Proof.Machine

/-! ### The page -/

/-- The writer between commands (10_state.md R115, R128). -/
def WriterRests (w : Writer) : Prop :=
  w.last.toNat < 2 ^ elemBits w.ew ∧ (w.state = .filling → w.pageOpen)

/-- An element held in a Word is an E-bit value. -/
theorem zext64_lowElem_lt (ew : BitVec 2) (v : Word) : (zext64 (lowElem ew v)).toNat < 2 ^ elemBits ew := by
  rw [zext64_toNat]
  exact (lowElem ew v).isLt

@[simp] theorem slotValue_zero (k : Nat) : slotValue 0#64 k = 0 := by simp [slotValue]

/-- An empty page is open (10_state.md R128). -/
theorem pageOpen_of_empty {w : Writer} (hslot : w.slot = 0) (hlen : w.len = 0) (hhdr : w.hdr = 0) :
    w.pageOpen := by
  refine ⟨?_, ⟨?_, ?_⟩, ?_, ?_⟩ <;> simp [hslot, hlen, hhdr, widthSum]

/-- Blocks of widths up to E = 64 fill at most 64 Words each. -/
theorem len_le_of_holdsBlocks {w : Writer} {k : Nat} (h : w.holdsBlocks k) : w.len.toNat ≤ k * 64 := by
  obtain ⟨hwidths, hlen⟩ := h
  rw [hlen]
  exact widthSum_le w.hdr k 64 fun j hj => (hwidths j hj).trans (elemBits_le w.ew)

section append
variable {w : Writer} {n : Nat} (ws : List Word) (last : Word)

/-- The slots of the header after a block of width n is appended. -/
theorem append_slotValue (hslot : w.slot.toNat ≤ 8) (hn : n ≤ 64) (j : Nat) (hj : j ≤ 8) :
    slotValue (w.append n ws last).hdr j = if j = w.slot.toNat then n else slotValue w.hdr j := by
  rw [append_hdr, setField_slotValue _ _ _ _ hslot hj, BitVec.toNat_ofNat, Nat.mod_eq_of_lt (by omega)]

theorem append_slot_toNat (hslot : w.slot.toNat ≤ 8) :
    (w.append n ws last).slot.toNat = w.slot.toNat + 1 := by
  rw [append_slot]
  bv_omega

theorem append_len_toNat (hlen : w.len.toNat ≤ 512) (hn : n ≤ 64) :
    (w.append n ws last).len.toNat = w.len.toNat + n := by
  rw [append_len]
  bv_omega

/-- One more block on the page (10_state.md R128). -/
theorem append_holdsBlocks (hslot : w.slot.toNat ≤ 8) (hn : n ≤ elemBits w.ew)
    (h : w.holdsBlocks w.slot.toNat) : (w.append n ws last).holdsBlocks (w.slot.toNat + 1) := by
  have hn64 : n ≤ 64 := hn.trans (elemBits_le w.ew)
  have hlen : w.len.toNat ≤ 512 := (len_le_of_holdsBlocks h).trans (by omega)
  obtain ⟨hwidths, hsum⟩ := h
  have hold : ∀ j < w.slot.toNat, slotValue w.hdr j = slotValue (w.append n ws last).hdr j := by
    intro j hj
    rw [append_slotValue ws last hslot hn64 j (by omega), if_neg (by omega)]
  have hnew : slotValue (w.append n ws last).hdr w.slot.toNat = n := by
    rw [append_slotValue ws last hslot hn64 _ hslot, if_pos rfl]
  constructor
  · intro j hj
    rcases Nat.lt_succ_iff_lt_or_eq.mp hj with hlt | rfl
    · rw [← hold j hlt]
      exact hwidths j hlt
    · rw [hnew]
      exact hn
  · rw [append_len_toNat ws last hlen hn64, hsum, widthSum_succ, hnew,
      widthSum_congr _ _ _ hold]

/-- Below the ninth slot the page stays open. -/
theorem append_pageOpen (hn : n ≤ elemBits w.ew) (hslot : w.slot ≠ 8) (h : w.pageOpen) :
    (w.append n ws last).pageOpen := by
  obtain ⟨hle, hblocks, hunused, hflag⟩ := h
  have hlt : w.slot.toNat ≤ 7 := by bv_omega
  have hnext := append_slot_toNat (n := n) ws last hle
  refine ⟨by omega, ?_, ?_, ?_⟩
  · rw [hnext]
    exact append_holdsBlocks ws last hle hn hblocks
  · intro j hj hge
    rw [append_slotValue ws last hle (hn.trans (elemBits_le w.ew)) j (by omega), if_neg (by omega)]
    exact hunused j hj (by omega)
  · rw [append_hdr, setField_flag _ _ _ hle]
    exact hflag

end append

/-- A header field with the full flag set holds the same blocks. -/
theorem holdsBlocks_fullFlag {w : Writer} (h : w.holdsBlocks 9) :
    Writer.holdsBlocks { w with hdr := w.hdr ||| fullFlag } 9 := by
  obtain ⟨hwidths, hlen⟩ := h
  refine ⟨fun j hj => ?_, ?_⟩
  · rw [fullFlag_slotValue _ _ (by omega)]
    exact hwidths j hj
  · rw [widthSum_congr _ w.hdr 9 fun j hj => fullFlag_slotValue _ _ (by omega)]
    exact hlen

/-! ### The invariant, by phase -/

theorem writerInv_of_no_page {s : State} (h : ∀ call bytes, s.phase ≠ .sinkWait call bytes) :
    s.writerInv ↔ WriterRests s.writer := by
  unfold State.writerInv WriterRests
  cases hp : s.phase with
  | sinkWait call bytes => exact absurd hp (h call bytes)
  | idle => rfl
  | accepted => rfl
  | sourceWait call => rfl

theorem writerInv_of_wbatch {s : State} {n : Nat} {bytes : List Byte}
    (h : s.phase = .sinkWait (.wbatch n) bytes) :
    s.writerInv ↔ s.writer.last.toNat < 2 ^ elemBits s.writer.ew ∧ s.writer.state = .filling ∧
      s.writer.pageFull ∧ n = slotValue s.writer.hdr 8 ∧
      bytes = serWords s.byteOrder (s.writer.hdr :: s.writer.blocks) := by
  unfold State.writerInv
  rw [h]

theorem writerInv_of_wflush {s : State} {bytes : List Byte} (h : s.phase = .sinkWait .wflush bytes) :
    s.writerInv ↔ s.writer.last.toNat < 2 ^ elemBits s.writer.ew ∧ s.writer.state = .filling ∧
      s.writer.pageOpen ∧ s.count.toNat ≤ 63 ∧ bytes = lastPage s := by
  unfold State.writerInv
  rw [h]
  rfl

theorem writerInv_of_idle {s : State} (hp : s.phase = .idle) (h : WriterRests s.writer) : s.writerInv :=
  (writerInv_of_no_page (by simp [hp])).mpr h

/-- In every phase W_LAST is an E-bit value. -/
theorem writerInv_last {s : State} (h : s.writerInv) :
    s.writer.last.toNat < 2 ^ elemBits s.writer.ew := h.1

/-- A state in which no page is with the sink, with the writer of one that meets the invariant. -/
theorem writerInv_of_same_writer {s t : State} (hs : ∀ call bytes, s.phase ≠ .sinkWait call bytes)
    (ht : ∀ call bytes, t.phase ≠ .sinkWait call bytes) (hw : t.writer = s.writer) (h : s.writerInv) :
    t.writerInv := by
  rw [writerInv_of_no_page ht, hw]
  exact (writerInv_of_no_page hs).mp h

/-- The writer invariant speaks of the writer, the phase, the byte order, COUNT and VBUF only. -/
theorem writerInv_congr {s t : State} (hw : t.writer = s.writer) (hp : t.phase = s.phase)
    (ho : t.byteOrder = s.byteOrder) (hc : t.count = s.count) (hv : t.vbuf = s.vbuf)
    (h : s.writerInv) : t.writerInv := by
  unfold State.writerInv terminalPage at *
  rwa [hw, hp, ho, hc, hv]

/-! ### The writer's commands -/

/-- The sink's answer: the page is emptied, or the writer is BROKEN (44_writer.md R803, R804). -/
theorem writerInv_sinkReturn (call : SinkCall) (bytes : List Byte) (r : SinkReply) {s : State}
    (hlast : s.writer.last.toNat < 2 ^ elemBits s.writer.ew) :
    (sinkReturn call bytes r s).writerInv := by
  cases hr : r.succeeds bytes with
  | false =>
    rw [sinkReturn_of_fails s call hr]
    exact writerInv_of_idle rfl ⟨hlast, nofun⟩
  | true =>
    cases call with
    | wbatch n =>
      rw [sinkReturn_wbatch s n hr]
      exact writerInv_of_idle rfl
        ⟨hlast, fun _ => pageOpen_of_empty rfl rfl rfl⟩
    | wflush =>
      rw [sinkReturn_wflush s hr]
      exact writerInv_of_idle rfl ⟨hlast, nofun⟩

/-- A page handed to the sink: the wait must be the one the invariant describes. -/
theorem writerInv_sinkWrite {call : SinkCall} {bytes : List Byte} {s : State}
    (hlast : s.writer.last.toNat < 2 ^ elemBits s.writer.ew)
    (hwait : (s.hold (.sinkWait call bytes)).writerInv) :
    (sinkWrite call bytes (sinkReturn call bytes) s).writerInv := by
  rcases sinkWrite_cases call bytes (sinkReturn call bytes) s with ⟨-, e⟩ | ⟨r, rest, -, e⟩ <;> rw [e]
  · exact hwait
  · exact writerInv_sinkReturn call bytes r hlast

theorem writerBlock_width_le (s : State) : (writerBlock s).1 ≤ elemBits s.writer.ew :=
  encodeBatch_width_le _ _

theorem appendedWriter_last_lt (s : State) :
    (appendedWriter s).last.toNat < 2 ^ elemBits (appendedWriter s).ew :=
  zext64_lowElem_lt s.writer.ew _

/-- The ninth block makes the page full (44_writer.md R803). -/
theorem fullWriter_pageFull {s : State} (hslot : s.writer.slot = 8) (h : s.writer.pageOpen) :
    (fullWriter s).pageFull ∧ (writerBlock s).1 = slotValue (fullWriter s).hdr 8 := by
  obtain ⟨hle, hblocks, -, -⟩ := h
  have hslot8 : s.writer.slot.toNat = 8 := by rw [hslot]; rfl
  have hn := writerBlock_width_le s
  have hnine := append_holdsBlocks (writerBlock s).2 (zext64 (lowElem s.writer.ew s.vbuf[63])) hle hn hblocks
  rw [hslot8] at hnine
  refine ⟨⟨?_, holdsBlocks_fullFlag hnine, ?_⟩, ?_⟩
  · show s.writer.slot + 1 = 9
    rw [hslot]; rfl
  · show ((appendedWriter s).hdr ||| fullFlag).getLsbD 63 = true
    simp [fullFlag_getLsbD]
  · show _ = slotValue ((appendedWriter s).hdr ||| fullFlag) 8
    rw [fullFlag_slotValue _ _ (le_refl 8), appendedWriter,
      append_slotValue _ _ hle (hn.trans (elemBits_le _)) 8 (le_refl 8), if_pos hslot8.symm]

/-- WBATCH keeps the invariant: below the ninth slot the page stays open, at the ninth it is full. -/
theorem writerInv_wbatch {s t : State} (h : WriterRests s.writer) (e : exec .wbatch s = .next t) :
    t.writerInv := by
  obtain ⟨hlast, hopen⟩ := h
  by_cases hf : s.writer.state = .filling
  · by_cases hslot : s.writer.slot = 8
    · rw [exec_wbatch_emit s hf hslot] at e
      cases e
      obtain ⟨hfull, hwidth⟩ := fullWriter_pageFull hslot (hopen hf)
      have hlast' : (fullWriter s).last.toNat < 2 ^ elemBits (fullWriter s).ew := appendedWriter_last_lt s
      exact writerInv_sinkWrite hlast'
        ((writerInv_of_wbatch rfl).mpr ⟨hlast', hf, hfull, hwidth, rfl⟩)
    · rw [exec_wbatch_append s hf hslot] at e
      cases e
      exact writerInv_of_idle rfl ⟨appendedWriter_last_lt s, fun _ =>
        append_pageOpen _ _ (writerBlock_width_le s) hslot (hopen hf)⟩
  · rw [exec_wbatch_of_not_filling s hf] at e
    cases e
    exact writerInv_of_idle rfl ⟨hlast, hopen⟩

/-- WFLUSH keeps the invariant: the page it hands over is the terminal page of the context. -/
theorem writerInv_wflush {s t : State} (h : WriterRests s.writer) (e : exec .wflush s = .next t) :
    t.writerInv := by
  obtain ⟨hlast, hopen⟩ := h
  by_cases hf : s.writer.state = .filling
  · rcases Nat.lt_or_ge 63 s.count.toNat with hc | hc
    · rw [exec_wflush_of_count_gt s hf hc] at e
      cases e
      exact writerInv_of_idle rfl ⟨hlast, hopen⟩
    · by_cases hnone : s.writer.slot = 0 ∧ s.count = 0
      · rw [exec_wflush_empty s hf hnone.1 hnone.2] at e
        cases e
        exact writerInv_of_idle rfl ⟨hlast, nofun⟩
      · rw [exec_wflush_emit s hf hc hnone] at e
        cases e
        exact writerInv_sinkWrite hlast ((writerInv_of_wflush rfl).mpr ⟨hlast, hf, hopen hf, hc, rfl⟩)
  · rw [exec_wflush_of_not_filling s hf] at e
    cases e
    exact writerInv_of_idle rfl ⟨hlast, hopen⟩

theorem startedWriter_rests (s : State) : WriterRests (startedWriter s) := by
  refine ⟨?_, fun _ => pageOpen_of_empty rfl rfl rfl⟩
  show (BitVec.ofNat 64 (elemValue s.cfgEW s.initOffset)).toNat < 2 ^ elemBits s.cfgEW
  rw [← zext64_lowElem]
  exact zext64_lowElem_lt s.cfgEW s.initOffset

/-- Every writer command keeps the invariant. -/
theorem writerInv_of_writer {i : Instr} (hi : i = .winit ∨ i = .wbatch ∨ i = .wflush) {s t : State}
    (h : WriterRests s.writer) (e : exec i s = .next t) : t.writerInv := by
  rcases hi with rfl | rfl | rfl
  · rw [exec_winit] at e
    cases e
    exact writerInv_of_idle rfl (startedWriter_rests s)
  · exact writerInv_wbatch h e
  · exact writerInv_wflush h e

/-- Settles O56: only the writer's commands and the sink's answer write the writer context, and while a page is
with the sink no other move writes what the page is made of. -/
theorem stepKeepsTheWriterInvariant : Obligations.StepKeepsTheWriterInvariant := by
  refine step_keeps ?quiet ?command ?sink ?sinkEarly ?source ?sourceEarly ?reset
  case quiet =>
    rintro s t hs ⟨hw, -, ho, -, -, ⟨hp, hc, hv⟩ | ⟨hps, hpt⟩⟩
    · exact writerInv_congr hw hp ho hc hv hs
    · exact writerInv_of_same_writer (resting_ne_sinkWait hps) (resting_ne_sinkWait hpt) hw hs
  case command =>
    intro i s t hs hp h
    have hrests := (writerInv_of_no_page (resting_ne_sinkWait hp)).mp hs
    have hreader : ReaderEnds s t ∨ WaitsOnSource 1 s t → t.writerInv := fun hside =>
      have ⟨hw, _, hpt⟩ := sinkSide_of_reader hside
      writerInv_of_same_writer (resting_ne_sinkWait hp) hpt hw hs
    rcases cases_of_exec h with ⟨-, -, hend⟩ | ⟨hi, -⟩ | ⟨hi, -⟩ | ⟨-, hend⟩ | ⟨-, hwait⟩
    · obtain ⟨_, _, _, _, _, _, rfl, -⟩ := hend
      exact writerInv_of_idle rfl hrests
    · exact writerInv_of_writer ((forWriter_iff i).mp hi) hrests h
    · exact writerInv_of_writer (.inr hi) hrests h
    · exact hreader (.inl hend)
    · exact hreader (.inr hwait)
  case sink =>
    intro r s call bytes hs _
    exact writerInv_sinkReturn call bytes r (writerInv_last hs)
  case sinkEarly => exact fun rs s hs _ => writerInv_congr rfl rfl rfl rfl rfl hs
  case source =>
    intro r s call hs hp
    obtain ⟨hw, -, hpt⟩ := sinkSide_of_reader (sourceAnswers_endsOrWaits hp r)
    exact writerInv_of_same_writer (by simp [hp]) hpt hw hs
  case sourceEarly => exact fun rs s hs _ => writerInv_congr rfl rfl rfl rfl rfl hs
  case reset =>
    intro held s _
    have hlast : Writer.reset.last.toNat < 2 ^ elemBits Writer.reset.ew := by decide
    exact writerInv_of_idle rfl ⟨hlast, fun _ => pageOpen_of_empty rfl rfl rfl⟩

end Sys2Proof.Machine
end

section
/-! The reader invariant (10_state.md R118, R120, R129): a delivery, a failure and a read from the source keep
it; and the three invariants at reset. -/

namespace Sys2Proof.Machine

/-! ### The invariant, by phase -/

/-- The reader between commands (10_state.md R118, R120). -/
def ReaderRests (r : Reader) : Prop := r.last.toNat < 2 ^ elemBits r.ew ∧ r.slot.toNat ≤ 9

theorem readerInv_rests {s : State} (h : s.readerInv) : ReaderRests s.reader := ⟨h.1, h.2.1⟩

theorem readerInv_of_no_read {s : State} (h : ∀ call, s.phase ≠ .sourceWait call) :
    s.readerInv ↔ ReaderRests s.reader := by
  unfold State.readerInv ReaderRests
  cases hp : s.phase with
  | sourceWait call => exact absurd hp (h call)
  | idle => simp
  | accepted => simp
  | sinkWait call bytes => simp

theorem readerInv_of_idle {s : State} (hp : s.phase = .idle) (h : ReaderRests s.reader) : s.readerInv :=
  (readerInv_of_no_read (by simp [hp])).mpr h

theorem readerInv_of_header {s : State} (h : s.phase = .sourceWait .header) :
    s.readerInv ↔ ReaderRests s.reader ∧ s.reader.state = .active ∧ s.reader.slot = 9 := by
  unfold State.readerInv ReaderRests
  rw [h, and_assoc]

theorem readerInv_of_tail {s : State} {r : Nat} (h : s.phase = .sourceWait (.tail r)) :
    s.readerInv ↔ ReaderRests s.reader ∧ s.reader.state = .active ∧ s.reader.slot.toNat ≤ 8 ∧ 0 < r ∧
      r ≤ 127 ∧ classify s.reader.hdr s.reader.slot.toNat = .terminal r := by
  unfold State.readerInv ReaderRests
  rw [h, and_assoc]

theorem readerInv_of_block {s : State} {n k : Nat} (h : s.phase = .sourceWait (.block n k)) :
    s.readerInv ↔ ReaderRests s.reader ∧ s.reader.state = .active ∧ s.reader.slot.toNat = k ∧ k ≤ 8 ∧
      0 < n ∧ n ≤ elemBits s.reader.ew ∧ classify s.reader.hdr k = .block n := by
  unfold State.readerInv ReaderRests
  rw [h, and_assoc]

/-- The reader invariant speaks of the reader and the phase only. -/
theorem readerInv_congr {s t : State} (hr : t.reader = s.reader) (hp : t.phase = s.phase)
    (h : s.readerInv) : t.readerInv := by
  unfold State.readerInv at *
  rwa [hr, hp]

/-- A state in which no read is in progress, with the reader of one that meets the invariant. -/
theorem readerInv_of_same_reader {s t : State} (ht : ∀ call, t.phase ≠ .sourceWait call)
    (hr : t.reader = s.reader) (h : s.readerInv) : t.readerInv := by
  rw [readerInv_of_no_read ht, hr]
  exact readerInv_rests h

/-! ### What RBATCH can do -/

theorem readerInv_readerFails (r : ResultCode) {s : State} (h : ReaderRests s.reader) :
    (readerFails r s).readerInv := readerInv_of_idle rfl h

theorem readerInv_readerEnds {s : State} (h : ReaderRests s.reader) : (readerEnds s).readerInv :=
  readerInv_of_idle rfl h

/-- A delivered block moves the cursor on, and its last element is an E-bit value (45_reader.md R905). -/
theorem readerInv_deliverBlock (n : Nat) {slot : Nat} (ws : List Word) (s : State) (hslot : slot ≤ 8) :
    (deliverBlock n slot ws s).readerInv := by
  rw [deliverBlock_eq]
  refine readerInv_of_idle rfl ⟨?_, ?_⟩
  · show (zext64 _).toNat < 2 ^ elemBits s.reader.ew
    rw [zext64_toNat]
    exact BitVec.isLt _
  · show (BitVec.ofNat 4 (slot + 1)).toNat ≤ 9
    rw [BitVec.toNat_ofNat]
    omega

/-- A delivered tail leaves no header loaded (45_reader.md R904). -/
theorem readerInv_deliverTail (count : Nat) (ws : List Word) {s : State} (h : ReaderRests s.reader) :
    (deliverTail count ws s).readerInv := readerInv_of_idle rfl ⟨h.1, le_refl 9⟩

theorem readerInv_blockAnswer (n : Nat) {slot : Nat} (a : SourceAnswer) {s : State} (hslot : slot ≤ 8)
    (h : ReaderRests s.reader) : (blockAnswer n slot a s).readerInv := by
  cases a with
  | ok b => exact readerInv_deliverBlock n _ s hslot
  | eof b => exact readerInv_readerFails _ h
  | err => exact readerInv_readerFails _ h

theorem readerInv_tailAnswer (count : Nat) (a : SourceAnswer) {s : State} (h : ReaderRests s.reader) :
    (tailAnswer count a s).readerInv := by
  cases a with
  | ok b => exact readerInv_deliverTail count _ h
  | eof b => exact readerInv_readerFails _ h
  | err => exact readerInv_readerFails _ h

/-- A read from the source: the wait must be the one the invariant describes. -/
theorem readerInv_srcRead {call : SourceCall} {go : SourceAnswer → State → State} {s : State}
    (hwait : (s.hold (.sourceWait call)).readerInv)
    (hgo : ∀ a k, (go a (s.putSource k)).readerInv) : (srcRead call go s).readerInv := by
  rcases srcRead_cases call go s with ⟨-, e⟩ | ⟨r, rest, -, e⟩ <;> rw [e]
  · exact hwait
  · exact hgo _ _

/-- RBATCH from the slot on keeps the invariant: the read it waits for is the slot's. -/
theorem readerInv_readSlot {s : State} (h : ReaderRests s.reader) (hact : s.reader.state = .active)
    (hslot : s.reader.slot.toNat ≤ 8) : (readSlot s).readerInv := by
  cases hc : classify s.reader.hdr s.reader.slot.toNat with
  | invalid => rw [readSlot_of_invalid s hc]; exact readerInv_readerFails _ h
  | terminal r =>
    rcases Nat.eq_zero_or_pos r with rfl | hpos
    · rw [readSlot_of_tail_zero s hc]; exact readerInv_deliverTail 0 _ h
    · rw [readSlot_of_tail s hc hpos]
      refine readerInv_srcRead ?_ fun a k => readerInv_tailAnswer r a h
      exact (readerInv_of_tail rfl).mpr ⟨h, hact, hslot, hpos, classify_terminal_le _ _ _ hc, hc⟩
  | block n =>
    rcases Nat.lt_or_ge (elemBits s.reader.ew) n with hn | hn
    · rw [readSlot_of_width_gt s hc hn]; exact readerInv_readerFails _ h
    · rcases Nat.eq_zero_or_pos n with rfl | hpos
      · rw [readSlot_of_block_zero s hc]; exact readerInv_deliverBlock 0 _ s hslot
      · rw [readSlot_of_block s hc hn hpos]
        refine readerInv_srcRead ?_ fun a k => readerInv_blockAnswer n a hslot h
        exact (readerInv_of_block rfl).mpr ⟨h, hact, rfl, hslot, hpos, hn, hc⟩

/-- The header's answer: a loaded header starts at slot 0 (45_reader.md R903). -/
theorem readerInv_headerAnswer (a : SourceAnswer) {s : State} (h : ReaderRests s.reader)
    (hact : s.reader.state = .active) : (headerAnswer a s).readerInv := by
  cases a with
  | err => exact readerInv_readerFails _ h
  | eof b =>
    cases b with
    | nil => exact readerInv_readerEnds h
    | cons x xs => exact readerInv_readerFails _ h
  | ok b =>
    have hslot : (0 : BitVec 4).toNat ≤ 8 := by decide
    exact readerInv_readSlot (s := s.putReader _) ⟨h.1, hslot.trans (by decide)⟩ hact hslot

theorem readerInv_rbatch {s t : State} (h : ReaderRests s.reader) (e : exec .rbatch s = .next t) :
    t.readerInv := by
  cases hst : s.reader.state with
  | done => rw [exec_rbatch_of_done s hst] at e; cases e; exact readerInv_of_idle rfl h
  | failed => rw [exec_rbatch_of_failed s hst] at e; cases e; exact readerInv_of_idle rfl h
  | active =>
    by_cases hslot : s.reader.slot = 9
    · rw [exec_rbatch_header s hst hslot] at e
      cases e
      exact readerInv_srcRead ((readerInv_of_header rfl).mpr ⟨h, hst, hslot⟩)
        fun a k => readerInv_headerAnswer a h hst
    · rw [exec_rbatch_slot s hst hslot] at e
      cases e
      have hle : s.reader.slot.toNat ≤ 9 := h.2
      exact readerInv_readSlot h hst (by bv_omega)

theorem startedReader_rests (s : State) : ReaderRests (startedReader s) := by
  refine ⟨?_, le_refl 9⟩
  show (BitVec.ofNat 64 (elemValue s.cfgEW s.initOffset)).toNat < 2 ^ elemBits s.cfgEW
  rw [← zext64_lowElem]
  exact zext64_lowElem_lt s.cfgEW s.initOffset

/-- Every reader command keeps the invariant. -/
theorem readerInv_of_reader {i : Instr} (hi : i = .rinit ∨ i = .rbatch) {s t : State}
    (h : ReaderRests s.reader) (e : exec i s = .next t) : t.readerInv := by
  rcases hi with rfl | rfl
  · rw [exec_rinit] at e
    cases e
    exact readerInv_of_idle rfl (startedReader_rests s)
  · exact readerInv_rbatch h e

/-- The answer to the read in progress keeps the invariant. -/
theorem readerInv_sourceAnswers (r : SourceReply) {s : State} {call : SourceCall}
    (hp : s.phase = .sourceWait call) (h : s.readerInv) : (sourceAnswers r s).readerInv := by
  rw [sourceAnswers_of_wait hp]
  cases call with
  | header =>
    obtain ⟨hrests, hact, -⟩ := (readerInv_of_header hp).mp h
    exact readerInv_headerAnswer _ hrests hact
  | tail r => exact readerInv_tailAnswer r _ (readerInv_rests h)
  | block n k =>
    obtain ⟨hrests, -, -, hk, -⟩ := (readerInv_of_block hp).mp h
    exact readerInv_blockAnswer n _ hk hrests

/-- Settles O57: only the reader's commands and the source's answer write the reader context, and RBATCH waits
only for the read that its slot calls for. -/
theorem stepKeepsTheReaderInvariant : Obligations.StepKeepsTheReaderInvariant := by
  refine step_keeps ?quiet ?command ?sink ?sinkEarly ?source ?sourceEarly ?reset
  case quiet =>
    rintro s t hs ⟨-, hr, -, -, -, ⟨hp, -, -⟩ | ⟨-, hpt⟩⟩
    · exact readerInv_congr hr hp hs
    · exact readerInv_of_same_reader (resting_ne_sourceWait hpt) hr hs
  case command =>
    intro i s t hs hp h
    have hrests := readerInv_rests hs
    have hwriter : WriterEnds s t ∨ WaitsOnSink s t → t.readerInv := fun hside =>
      have ⟨hr, _, hpt⟩ := sourceSide_of_writer hside
      readerInv_of_same_reader hpt hr hs
    rcases cases_of_exec h with ⟨-, -, hend⟩ | ⟨-, hend⟩ | ⟨-, hwait⟩ | ⟨hi, -⟩ | ⟨hi, -⟩
    · obtain ⟨_, _, _, _, _, _, rfl, -⟩ := hend
      exact readerInv_of_idle rfl hrests
    · exact hwriter (.inl hend)
    · exact hwriter (.inr hwait)
    · exact readerInv_of_reader ((forReader_iff i).mp hi) hrests h
    · exact readerInv_of_reader (.inr hi) hrests h
  case sink =>
    intro r s call bytes hs hp
    obtain ⟨hr, -, hpt⟩ := sourceSide_of_writer (.inl (writerEnds_sinkReturn call bytes r s))
    exact readerInv_of_same_reader hpt hr hs
  case sinkEarly => exact fun rs s hs _ => readerInv_congr rfl rfl hs
  case source => exact fun r s call hs hp => readerInv_sourceAnswers r hp hs
  case sourceEarly => exact fun rs s hs _ => readerInv_congr rfl rfl hs
  case reset =>
    intro held s _
    have hlast : Reader.reset.last.toNat < 2 ^ elemBits Reader.reset.ew := by decide
    exact readerInv_of_idle rfl ⟨hlast, le_refl 9⟩

/-! ### Reset -/

/-- Settles O55: the reset contexts are at rest, and the source has not ended. -/
theorem resetMeetsTheInvariants : Obligations.ResetMeetsTheInvariants := by
  have hwlast : Writer.reset.last.toNat < 2 ^ elemBits Writer.reset.ew := by decide
  have hrlast : Reader.reset.last.toNat < 2 ^ elemBits Reader.reset.ew := by decide
  exact ⟨writerInv_of_idle rfl ⟨hwlast, fun _ => pageOpen_of_empty rfl rfl rfl⟩,
    readerInv_of_idle rfl ⟨hrlast, le_refl 9⟩, portInv_of_resting (fun _ => rfl) (.inl rfl)⟩

end Sys2Proof.Machine
end

section
/-! The command word (30_encoding.md R300 to R302): which words select a row, and that decoding and encoding are
inverse. -/

namespace Sys2Proof

/-! ### Words and rows -/

/-- The row of a command's own opcode and SLOT is the command. -/
theorem decodeRow_opcode (i : Instr) : decodeRow i.opcode (i.slot?.getD 0) = .ok i := by
  cases i <;> rfl

/-- A word decodes to a command exactly when its reserved bits are 0, OP is the command's opcode and SLOT its
operand, 0 when it has none. -/
theorem decode_eq_ok_iff (c : Word) (i : Instr) :
    decode c = .ok i ↔
      reservedClear c = true ∧ i.opcode = opField c ∧ i.slot?.getD 0 = slotField c := by
  constructor
  · intro h
    unfold decode at h
    split at h
    next hres => exact ⟨hres, decodeRow_ok _ _ _ h⟩
    next => cases h
  · rintro ⟨hres, hop, hslot⟩
    rw [decode, if_pos hres, ← hop, ← hslot, decodeRow_opcode]

theorem slotField_lt (c : Word) : slotField c < 16 := by
  rw [slotField_eq]
  omega

theorem wellFormed_of_slot_lt {i : Instr} (h : i.slot?.getD 0 < 16) : i.wellFormed = true := by
  unfold Instr.wellFormed
  cases hs : i.slot? with
  | none => rfl
  | some k => rw [hs] at h; exact decide_eq_true h

/-- A word is the number its fields spell. -/
theorem toNat_eq_fields {c : Word} (h : reservedClear c = true) :
    c.toNat = opField c + 256 * slotField c := by
  obtain ⟨hmid, hhigh⟩ := (reservedClear_iff c).mp h
  rw [opField_eq, slotField_eq]
  omega

/-- Settles O1: the fields of the encoded word are the command's. -/
theorem decodeEncodeRoundTrip : Obligations.DecodeEncodeRoundTrip := by
  intro i hi
  obtain ⟨hop, hslot, hres⟩ := Laws.OpcodeField.holds i hi
  exact (decode_eq_ok_iff _ i).mpr ⟨hres, hop.symm, hslot.symm⟩

/-- Settles O2: with the reserved bits 0, OP and SLOT are the whole word. -/
theorem decodedWordIsItsEncoding : Obligations.DecodedWordIsItsEncoding := by
  intro c i h
  obtain ⟨hres, hop, hslot⟩ := (decode_eq_ok_iff c i).mp h
  have hwf : i.wellFormed = true := wellFormed_of_slot_lt (hslot ▸ slotField_lt c)
  refine ⟨hwf, BitVec.eq_of_toNat_eq ?_⟩
  rw [encode_toNat i hwf, toNat_eq_fields hres, hop, hslot]

/-! ### Masks (30_encoding.md R301) -/

/-- The opcode says whether a command uses SLOT. -/
theorem slot?_eq_none_iff (i : Instr) : i.slot? = none ↔ i.opcode ∉ [0x08, 0x09, 0x0B, 0x0C] := by
  cases i <;> simp [Instr.slot?, Instr.opcode]

/-- A command that uses SLOT has a row-mate for every operand. -/
theorem exists_same_opcode {i : Instr} {k : Nat} (hi : i.slot? = some k) (m : Nat) :
    ∃ j : Instr, j.opcode = i.opcode ∧ j.slot?.getD 0 = m := by
  cases i
  case hset => exact ⟨.hset m, rfl, rfl⟩
  case hget => exact ⟨.hget m, rfl, rfl⟩
  case hpart => exact ⟨.hpart m, rfl, rfl⟩
  case hclass => exact ⟨.hclass m, rfl, rfl⟩
  all_goals cases hi

/-- A word selects a command's row when OP is its opcode, the reserved bits are 0, and SLOT is 0 if the row
does not use it. -/
theorem selects_row_iff (c : Word) (i : Instr) :
    (∃ j, decode c = .ok j ∧ j.opcode = i.opcode) ↔
      reservedClear c = true ∧ opField c = i.opcode ∧ (i.slot? = none → slotField c = 0) := by
  constructor
  · rintro ⟨j, hj, hop⟩
    obtain ⟨hres, hopc, hslot⟩ := (decode_eq_ok_iff c j).mp hj
    refine ⟨hres, hopc.symm.trans hop, fun hi => ?_⟩
    rw [slot?_eq_none_iff, ← hop, ← slot?_eq_none_iff] at hi
    rw [← hslot, hi]
    rfl
  · rintro ⟨hres, hop, hunused⟩
    cases hi : i.slot? with
    | none =>
      refine ⟨i, (decode_eq_ok_iff c i).mpr ⟨hres, hop.symm, ?_⟩, rfl⟩
      rw [hi, hunused hi]
      rfl
    | some k =>
      obtain ⟨j, hj, hslot⟩ := exists_same_opcode hi (slotField c)
      exact ⟨j, (decode_eq_ok_iff c j).mpr ⟨hres, hj.trans hop.symm, hslot⟩, hj⟩

theorem rowMask_getLsbD (b : Nat) :
    (0xFFFFFFFFFFFFF0FF : Word).getLsbD b = (decide (b < 8) || (decide (12 ≤ b) && decide (b < 64))) := by
  by_cases hb : b < 64
  · revert hb; revert b; decide
  · rw [BitVec.getLsbD_of_ge _ _ (by omega)]
    simp; omega

/-- The mask of a row that uses SLOT takes the SLOT field out of a word. -/
theorem and_slotMask_toNat (c : Word) :
    (c &&& 0xFFFFFFFFFFFFF0FF).toNat = 2 ^ 12 * (c.toNat / 2 ^ 12) + c.toNat % 2 ^ 8 := by
  have hlow : c.toNat % 2 ^ 8 < 2 ^ 12 := by omega
  apply Nat.eq_of_testBit_eq
  intro b
  rw [Nat.testBit_two_pow_mul_add _ hlow, BitVec.testBit_toNat, BitVec.getLsbD_and, rowMask_getLsbD,
    Nat.testBit_mod_two_pow, Nat.testBit_div_two_pow, BitVec.testBit_toNat, BitVec.testBit_toNat]
  by_cases hb : b < 12
  · have hge : ¬12 ≤ b := by omega
    simp [hb, hge, Bool.and_comm]
  · have hge : b - 12 + 12 = b := by omega
    by_cases h64 : b < 64
    · simp [hb, hge, h64]
      omega
    · simp [hb, hge, BitVec.getLsbD_of_ge c b (by omega)]

theorem matchWord_toNat (i : Instr) : i.matchWord.toNat = i.opcode := by
  have hop := opcode_lt i
  rw [Instr.matchWord, BitVec.toNat_ofNat, Nat.mod_eq_of_lt (by omega)]

/-- The mask sentence says the same of the fields. -/
theorem and_maskWord_eq_iff (c : Word) (i : Instr) :
    c &&& i.maskWord = i.matchWord ↔
      reservedClear c = true ∧ opField c = i.opcode ∧ (i.slot? = none → slotField c = 0) := by
  have hop := opcode_lt i
  rw [← BitVec.toNat_inj, matchWord_toNat, reservedClear_iff, opField_eq, slotField_eq]
  cases hi : i.slot? with
  | none =>
    have hmask : i.maskWord = BitVec.allOnes 64 := by simp only [Instr.maskWord, hi]; rfl
    rw [hmask, BitVec.and_allOnes]
    simp only [true_implies]
    omega
  | some k =>
    have hmask : i.maskWord = 0xFFFFFFFFFFFFF0FF := by simp only [Instr.maskWord, hi]
    rw [hmask, and_slotMask_toNat]
    simp only [reduceCtorEq, false_implies, and_true]
    omega

/-- Settles O3: both sides say the same of the word's fields. -/
theorem rowSelectedByMaskAndMatch : Obligations.RowSelectedByMaskAndMatch :=
  fun c i _ => (selects_row_iff c i).trans (and_maskWord_eq_iff c i).symm

/-- A word that no row's mask selects is illegal. -/
theorem decode_eq_error_of_no_row {c : Word} (h : ∀ i : Instr, c &&& i.maskWord ≠ i.matchWord) :
    ∃ e, decode c = .error e := by
  cases hd : decode c with
  | error e => exact ⟨e, rfl⟩
  | ok i =>
    have hrow := (selects_row_iff c i).mp ⟨i, hd, rfl⟩
    exact absurd ((and_maskWord_eq_iff c i).mpr hrow) (h i)

/-! ### Illegal words (30_encoding.md R302) -/

theorem withoutSlot_error_iff (slot : Nat) (i : Instr) :
    (∃ e, withoutSlot slot i = .error e) ↔ slot ≠ 0 := by
  by_cases h : slot = 0 <;> simp [withoutSlot, h]

/-- The opcode map has no row at this OP with this SLOT: OP is unassigned, or SLOT is not 0 and unused. -/
theorem decodeRow_error_iff (op slot : Nat) (hop : op < 64) :
    (∃ e, decodeRow op slot = .error e) ↔
      (0x0D ≤ op ∧ op ≤ 0x0F) ∨ (0x13 ≤ op ∧ op ≤ 0x17) ∨ 0x1A ≤ op ∨
        (slot ≠ 0 ∧ op ≠ 0x08 ∧ op ≠ 0x09 ∧ op ≠ 0x0B ∧ op ≠ 0x0C) := by
  interval_cases op <;> simp [decodeRow, withoutSlot_error_iff]

/-- Settles O4: a reserved bit is 1, or the opcode map has no row. -/
theorem illegalWordsExactly : Obligations.IllegalWordsExactly := by
  intro c
  have hop : opField c < 64 := by rw [opField_eq]; omega
  have hres := reservedClear_iff c
  have hrow := decodeRow_error_iff (opField c) (slotField c) hop
  rw [opField_eq, slotField_eq] at hrow
  dsimp only
  by_cases h : reservedClear c = true
  · rw [decode, if_pos h, opField_eq, slotField_eq, hrow]
    obtain ⟨hmid, hhigh⟩ := hres.mp h
    simp only [hmid, hhigh, ne_eq, not_true, false_or]
  · rw [decode, if_neg h]
    refine ⟨fun _ => ?_, fun _ => ⟨_, rfl⟩⟩
    have : ¬(c.toNat / 64 % 4 = 0 ∧ c.toNat / 4096 = 0) := fun hc => h (hres.mpr hc)
    rcases not_and_or.mp this with hmid | hhigh
    · exact .inl hmid
    · exact .inr (.inl hhigh)

/-- Settles O5: nine closed words. -/
theorem specExampleWordsDecode : Obligations.SpecExampleWordsDecode := by
  unfold Obligations.SpecExampleWordsDecode
  decide

end Sys2Proof

namespace Sys2Proof.Machine

/-! ### The engine's turn (46_control.md R1000, R1004, R1006) -/

/-- An accepted command runs when the schedule is empty, and at the schedule's next engine turn. -/
theorem step_of_accepted {s : State} (hp : s.phase = .accepted) :
    (s.schedule = [] → step s = runCommand s) ∧
      ∀ rest, s.schedule = .engine :: rest → step s = runCommand { s with schedule := rest } := by
  constructor
  · intro hs
    simp [step, nextMove, hs, hp]
  · intro rest hs
    simp [step, nextMove, hs, hp]

theorem runCommand_of_ok {s : State} {i : Instr} (h : decode s.cmd = .ok i) :
    runCommand s = exec i s := by
  simp only [runCommand, commandWord, h]

theorem runCommand_of_error {s : State} {e : DecodeError} (h : decode s.cmd = .error e) :
    runCommand s = .next { s with result := .illegalCmd, phase := .idle } := by
  simp only [runCommand, commandWord, h]
  rfl

/-- Settles O6. -/
theorem stepRunsTheAcceptedCommand : Obligations.StepRunsTheAcceptedCommand := by
  intro s i hp hd
  obtain ⟨hnow, hturn⟩ := step_of_accepted hp
  exact ⟨fun hs => (hnow hs).trans (runCommand_of_ok hd),
    fun rest hs => (hturn rest hs).trans (runCommand_of_ok (s := { s with schedule := rest }) hd)⟩

/-- The placed word is the command's, accepted with the engine's turn next. -/
theorem withFetchWord_encode (s : State) (i : Instr) :
    s.withFetchWord 64 (encode i).toNat =
      { s with cmd := encode i, phase := .accepted, schedule := .engine :: s.schedule } := by
  have hword : BitVec.ofNat 64 ((encode i).toNat % 2 ^ 64) = encode i := by
    rw [Nat.mod_eq_of_lt (encode i).isLt, BitVec.ofNat_toNat, BitVec.setWidth_eq]
  rw [State.withFetchWord, hword]
  rfl

/-- Settles O7: the placed word decodes to its command. -/
theorem stepRunsTheFetchedWord : Obligations.StepRunsTheFetchedWord := by
  intro s i hi
  rw [withFetchWord_encode, (step_of_accepted rfl).2 s.schedule rfl]
  exact runCommand_of_ok (decodeEncodeRoundTrip i hi)

/-- Settles O8: a word that no row selects does not decode. -/
theorem illegalCommandOnlySetsResult : Obligations.IllegalCommandOnlySetsResult := by
  intro s hp hnone
  obtain ⟨e, hd⟩ := decode_eq_error_of_no_row hnone
  obtain ⟨hnow, hturn⟩ := step_of_accepted hp
  exact ⟨fun hs => (hnow hs).trans (runCommand_of_error hd),
    fun rest hs => (hturn rest hs).trans (runCommand_of_error (s := { s with schedule := rest }) hd)⟩

end Sys2Proof.Machine
end

section
/-! The host's accesses (20_memory.md R201 to R206; 46_control.md R1000, R1002), reset (70_reset_and_hazards.md
R1200) and the registers' fields (10_state.md R102, R103, R122 to R127). -/

namespace Sys2Proof.Machine

/-! ### One access of the schedule -/

section access
variable (s : State) {r : Reg} {n : Nat} {off : BitVec 12}

theorem step_access {a : Access} {rest : List Event} (h : s.schedule = .access a :: rest) :
    step s = hostAccess a { s with schedule := rest } :=
  step_event s _ rest h (.inl nofun)

theorem hostAccess_read (h : (Access.read n off).target = some r) :
    hostAccess (.read n off) s = .next (hostRead r s) := by
  simp only [hostAccess, h]

theorem hostAccess_write {v : Word} (h : (Access.write n off v).target = some r) :
    hostAccess (.write n off v) s = .next (hostWrite r v s) := by
  simp only [hostAccess, h]

theorem hostAccess_readLanes (h : (Access.readLanes n off).target = some r) :
    hostAccess (.readLanes n off) s = .next (asLanes (hostRead r s)) := by
  simp only [hostAccess, h]

theorem hostAccess_writeLanes {b : List Byte} (h : (Access.writeLanes off b).target = some r) :
    hostAccess (.writeLanes off b) s = .next (hostWrite r (deser s.byteOrder b) s) := by
  simp only [hostAccess, h]

theorem hostAccess_eq_fault_iff (a : Access) : hostAccess a s = .fault .busError ↔ a.target = none := by
  rcases hostAccess_cases a s with
    ⟨hnone, e⟩ | ⟨q, hq, ⟨_, _, -, e⟩ | ⟨_, _, _, -, -, e⟩ | ⟨_, -, e⟩⟩ <;> simp [*]

end access

/-- An offset names no register exactly when it is not one of the map's (20_memory.md R201). -/
theorem regAt_eq_none_iff (off : BitVec 12) : regAt off = none ↔ ¬∃ r : Reg, off.toNat = r.byteOffset := by
  simp only [Option.eq_none_iff_forall_ne_some, ne_eq, regAt_eq_some, not_exists]

/-- An access of the wrong width has no target, else the map says (20_memory.md R202). -/
theorem ite_regAt_eq_none_iff (p : Prop) [Decidable p] (off : BitVec 12) :
    (if p then regAt off else none) = none ↔ ¬(p ∧ ∃ r : Reg, off.toNat = r.byteOffset) := by
  by_cases hp : p
  · rw [if_pos hp, regAt_eq_none_iff]
    simp [hp]
  · simp [hp]

/-- Settles O11: an access faults exactly when it has no target. -/
theorem busErrorExactlyWhenNotAdmitted : Obligations.BusErrorExactlyWhenNotAdmitted := by
  intro s rest n off
  refine ⟨fun h => ?_, fun v h => ?_, fun h => ?_, fun b h => ?_⟩ <;>
    rw [step_access s h, hostAccess_eq_fault_iff] <;> exact ite_regAt_eq_none_iff _ off

/-! ### Reads and writes, BUSY or not -/

section readWrite
variable (s : State) (r : Reg) (v : Word)

theorem hostRead_of_idle (h : s.busy = false) : hostRead r s = { s with bus := .data (readReg s r) } := by
  simp [hostRead, h]

theorem hostRead_of_busy (h : s.busy = true) (hr : r ≠ .status) : hostRead r s =
    { s with bus := .data (Config.busyRead s.freeReads), freeReads := s.freeReads + 1 } := by
  simp [hostRead, h, hr]

theorem hostWrite_of_idle (h : s.busy = false) :
    hostWrite r v s = { writeReg r v s with bus := .written } := by
  simp [hostWrite, h]

/-- A write of STATUS clears OVR by bit 8, BUSY or not (10_state.md R102). -/
theorem hostWrite_status :
    hostWrite .status v s = { s with ovr := s.ovr && !v.getLsbD 8, bus := .written } := by
  simp only [hostWrite, ne_eq, not_true, and_false, if_false, writeReg, writeStatus]
  cases hv : v.getLsbD 8 <;> simp

/-- A write while BUSY = 1 changes OVR only (46_control.md R1002). -/
theorem hostWrite_of_busy (h : s.busy = true) : hostWrite r v s =
    { s with ovr := if r = .status then s.ovr && !v.getLsbD 8 else true, bus := .written } := by
  by_cases hr : r = .status
  · subst hr
    rw [hostWrite_status, if_pos rfl]
  · rw [hostWrite, if_pos ⟨h, hr⟩, if_neg hr]
    rfl

theorem asLanes_of_data {w : Word} (h : s.bus = .data w) :
    asLanes s = { s with bus := .lanes (ser s.byteOrder w) } := by
  simp only [asLanes, h]

theorem asLanes_hostRead_status : asLanes (hostRead .status s) =
    { s with bus := .lanes (ser s.byteOrder (statusWord s)) } := by
  rw [hostRead_status]
  exact asLanes_of_data _ rfl

theorem asLanes_hostRead_of_busy (h : s.busy = true) (hr : r ≠ .status) : asLanes (hostRead r s) =
    { s with
      bus := .lanes (ser s.byteOrder (Config.busyRead s.freeReads)), freeReads := s.freeReads + 1 } := by
  rw [hostRead_of_busy s r h hr]
  exact asLanes_of_data _ rfl

theorem asLanes_hostRead_of_idle (h : s.busy = false) : asLanes (hostRead r s) =
    { s with bus := .lanes (ser s.byteOrder (readReg s r)) } := by
  rw [hostRead_of_idle s r h]
  exact asLanes_of_data _ rfl

end readWrite

/-- Settles O9: offset 0 is CMD's, and a write of CMD while idle is the issue of its command. -/
theorem cmdWriteIssuesCommand : Obligations.CmdWriteIssuesCommand := by
  intro s c rest hidle hs
  rw [step_access s hs, hostAccess_write _ (r := .cmd) rfl,
    hostWrite_of_idle { s with schedule := rest } .cmd c hidle]
  rfl

/-- A program's wait reads STATUS and is over when it finds BUSY = 0 (30_encoding.md R317). -/
theorem hostTurn_await {s : State} {p : List HostMove} (h : s.host.program = .await :: p) :
    hostTurn s = .next
      { s with
        bus := .data (statusWord s)
        host := { s.host with program := if s.busy then .await :: p else p } } := by
  have hturn : hostTurn s =
      .next (if s.busy then hostRead .status s else (hostRead .status s).putProgram p) := by
    rcases hostTurn_cases s with ⟨hnil, -⟩ | ⟨m, rest, hcons, hmove⟩
    · rw [h] at hnil; cases hnil
    · rw [h] at hcons
      cases hcons
      rcases hmove with ⟨_, _, hm, -⟩ | ⟨_, hm, -⟩ | ⟨-, e⟩ | ⟨_, _, hm, -⟩
      · cases hm
      · cases hm
      · exact e
      · cases hm
  rw [hturn, hostRead_status]
  cases hb : s.busy with
  | false => rfl
  | true =>
    simp only [if_true]
    rw [← h]

/-- Settles O10: by the form of the access, then by the register it reaches. -/
theorem accessesWhileBusy : Obligations.AccessesWhileBusy := by
  refine ⟨fun s a r rest hbusy ht hs => ?_, fun s p rest hprog hs => ?_⟩
  · rw [step_access s hs]
    cases a with
    | write n off v =>
      exact (hostAccess_write _ ht).trans (congrArg _ (hostWrite_of_busy _ r v hbusy))
    | writeLanes off b =>
      exact (hostAccess_writeLanes _ ht).trans (congrArg _ (hostWrite_of_busy _ r _ hbusy))
    | read n off =>
      rw [hostAccess_read _ ht]
      refine ⟨?_, fun hr => ⟨_, congrArg _ (hostRead_of_busy _ r hbusy hr)⟩⟩
      rintro rfl
      exact congrArg _ (hostRead_status _)
    | readLanes n off =>
      rw [hostAccess_readLanes _ ht]
      refine ⟨?_, fun hr => ⟨_, congrArg _ (asLanes_hostRead_of_busy _ r hbusy hr)⟩⟩
      rintro rfl
      exact congrArg _ (asLanes_hostRead_status _)
  · rw [step_event s .host rest hs (.inl nofun)]
    exact hostTurn_await (s := { s with schedule := rest }) hprog

/-! ### Reads (20_memory.md R204) -/

/-- A read as lanes puts lanes on the bus; only the free-value counter may change beside it. -/
theorem asLanes_hostRead_bus (r : Reg) (s : State) :
    ∃ b f, asLanes (hostRead r s) = { s with bus := .lanes b, freeReads := f } := by
  obtain ⟨w, f, e⟩ := hostRead_bus r s
  rw [e]
  exact ⟨_, f, asLanes_of_data _ rfl⟩

/-- A 64-bit access, or one of 8 lanes, at a register's offset reaches it (20_memory.md R202, R206). -/
theorem ite_regAt_of_byteOffset {p : Prop} [Decidable p] (hp : p) {off : BitVec 12} {r : Reg}
    (h : off.toNat = r.byteOffset) : (if p then regAt off else none) = some r := by
  rw [if_pos hp, (regAt_eq_some off r).mpr h]

theorem readReg_vbuf (s : State) (i : Fin 128) : readReg s (.vbuf i) = vbufAt s i.val := by
  simp [readReg, vbufAt]

theorem readReg_pbuf (s : State) (j : Fin 64) : readReg s (.pbuf j) = pbufAt s j.val := by
  simp [readReg, pbufAt]

/-- Settles O15: a read that does not fault changes the bus's answer and the free-value counter only. -/
theorem hostReadHasNoSideEffect : Obligations.HostReadHasNoSideEffect := by
  refine ⟨?_, ?_, ?_⟩
  · rintro s t n off rest (hs | hs) ht <;> rw [step_access s hs] at ht
    · cases hr : (Access.read n off).target with
      | none => rw [(hostAccess_eq_fault_iff _ _).mpr hr] at ht; cases ht
      | some r =>
        rw [hostAccess_read _ hr] at ht
        cases ht
        obtain ⟨w, f, e⟩ := hostRead_bus r { s with schedule := rest }
        rw [e]
    · cases hr : (Access.readLanes n off).target with
      | none => rw [(hostAccess_eq_fault_iff _ _).mpr hr] at ht; cases ht
      | some r =>
        rw [hostAccess_readLanes _ hr] at ht
        cases ht
        obtain ⟨b, f, e⟩ := asLanes_hostRead_bus r { s with schedule := rest }
        rw [e]
  · intro s r off rest hidle hoff
    refine ⟨fun hs => ?_, fun hs => ?_⟩ <;> rw [step_access s hs]
    · rw [hostAccess_read _ (ite_regAt_of_byteOffset rfl hoff),
        hostRead_of_idle { s with schedule := rest } r hidle]
      cases r <;> rfl
    · rw [hostAccess_readLanes _ (ite_regAt_of_byteOffset rfl hoff),
        asLanes_hostRead_of_idle { s with schedule := rest } r hidle]
      cases r <;> rfl
  · exact fun s => ⟨rfl, rfl, rfl, rfl, rfl, rfl, readReg_vbuf s, readReg_pbuf s⟩

end Sys2Proof.Machine
end

section
/-! The registers' fields and the map: what a read shows, and what an idle write stores (10_state.md R102, R103,
R122 to R127; 20_memory.md R201, R204, R205). -/

namespace Sys2Proof.Machine

/-! ### Bits and fields of a Word -/

/-- A bit of a field that is 0. -/
theorem getLsbD_of_field_eq_zero {w : Word} {lo n : Nat} (h : w.toNat / 2 ^ lo % 2 ^ n = 0) {k : Nat}
    (hlo : lo ≤ k) (hhi : k < lo + n) : w.getLsbD k = false := by
  have hbit := Nat.testBit_mod_two_pow (w.toNat / 2 ^ lo) n (k - lo)
  rw [h, Nat.zero_testBit, Nat.testBit_div_two_pow, BitVec.testBit_toNat, Nat.sub_add_cancel hlo] at hbit
  simpa [show k - lo < n by omega] using hbit.symm

/-- A bit above a value. -/
theorem getLsbD_of_toNat_lt {w : Word} {n : Nat} (h : w.toNat < 2 ^ n) {k : Nat} (hk : n ≤ k) :
    w.getLsbD k = false := by
  rw [← BitVec.testBit_toNat]
  exact Nat.testBit_lt_two_pow (h.trans_le (Nat.pow_le_pow_right (by decide) hk))

/-- A word without a bit outside a mask. -/
theorem and_not_eq_zero {w m : Word} (h : ∀ k < 64, m.getLsbD k = false → w.getLsbD k = false) :
    w &&& ~~~m = 0 := by
  apply BitVec.eq_of_getLsbD_eq
  intro k hk
  cases hm : m.getLsbD k with
  | true => simp [hm]
  | false => simp [h k hk hm]

/-! ### STATUS and CFG -/

theorem bit_le_one (b : Bool) : bit b ≤ 1 := by cases b <;> decide

/-- STATUS as a number: BUSY, RESULT, OVR (10_state.md R102). -/
theorem statusWord_toNat (s : State) :
    (statusWord s).toNat = bit s.busy + 16 * s.result.code.toNat + 256 * bit s.ovr := by
  have hb := bit_le_one s.busy
  have ho := bit_le_one s.ovr
  have hc := s.result.code.isLt
  rw [statusWord, BitVec.toNat_ofNat, Nat.shiftLeft_eq, Nat.shiftLeft_eq]
  omega

/-- CFG as a number: EW, SX (10_state.md R103). -/
theorem cfgWord_toNat (s : State) : (cfgWord s).toNat = s.cfgEW.toNat + 4 * bit s.cfgSX := by
  have hb := bit_le_one s.cfgSX
  have he := s.cfgEW.isLt
  rw [cfgWord, BitVec.toNat_ofNat, Nat.shiftLeft_eq]
  omega

theorem getLsbD_eq_decide (w : Word) (k : Nat) : w.getLsbD k = decide (w.toNat / 2 ^ k % 2 = 1) := by
  rw [← BitVec.testBit_toNat, Nat.testBit_eq_decide_div_mod_eq]

theorem bit_eq_one (b : Bool) : decide (bit b = 1) = b := by cases b <;> rfl

theorem bit_decide (n : Nat) : bit (decide (n % 2 = 1)) = n % 2 := by
  rcases Nat.mod_two_eq_zero_or_one n with h | h <;> rw [h] <;> rfl

theorem statusWord_result (s : State) : (statusWord s).extractLsb' 4 4 = s.result.code := by
  apply BitVec.eq_of_toNat_eq
  have hb := bit_le_one s.busy
  have hc := s.result.code.isLt
  rw [BitVec.extractLsb'_toNat, Nat.shiftRight_eq_div_pow, statusWord_toNat]
  omega

theorem statusWord_ovr (s : State) : (statusWord s).getLsbD 8 = s.ovr := by
  have hb := bit_le_one s.busy
  have ho := bit_le_one s.ovr
  have hc := s.result.code.isLt
  have hbit : (statusWord s).toNat / 2 ^ 8 % 2 = bit s.ovr := by rw [statusWord_toNat]; omega
  rw [getLsbD_eq_decide, hbit, bit_eq_one]

theorem statusWord_reserved (s : State) (k : Nat) (hk : (1 ≤ k ∧ k ≤ 3) ∨ 9 ≤ k) :
    (statusWord s).getLsbD k = false := by
  have hb := bit_le_one s.busy
  have ho := bit_le_one s.ovr
  have hc := s.result.code.isLt
  rcases hk with ⟨hlo, hhi⟩ | hge
  · exact getLsbD_of_field_eq_zero (lo := 1) (n := 3) (by rw [statusWord_toNat]; omega) hlo (by omega)
  · exact getLsbD_of_toNat_lt (n := 9) (by rw [statusWord_toNat]; omega) hge

theorem cfgWord_ew (s : State) : (cfgWord s).extractLsb' 0 2 = s.cfgEW := by
  apply BitVec.eq_of_toNat_eq
  have he := s.cfgEW.isLt
  rw [BitVec.extractLsb'_toNat, Nat.shiftRight_zero, cfgWord_toNat]
  omega

theorem cfgWord_sx (s : State) : (cfgWord s).getLsbD 2 = s.cfgSX := by
  have hb := bit_le_one s.cfgSX
  have he := s.cfgEW.isLt
  have hbit : (cfgWord s).toNat / 2 ^ 2 % 2 = bit s.cfgSX := by rw [cfgWord_toNat]; omega
  rw [getLsbD_eq_decide, hbit, bit_eq_one]

theorem cfgWord_reserved (s : State) (k : Nat) (hk : 3 ≤ k) : (cfgWord s).getLsbD k = false := by
  have hb := bit_le_one s.cfgSX
  have he := s.cfgEW.isLt
  exact getLsbD_of_toNat_lt (n := 3) (by rw [cfgWord_toNat]; omega) hk

/-- CFG read after a write: the bits EW and SX store (10_state.md R103). -/
theorem cfgWord_writeReg (s : State) (v : Word) : cfgWord (writeReg .cfg v s) = v &&& 7 := by
  apply BitVec.eq_of_toNat_eq
  have hsx : bit (v.getLsbD 2) = v.toNat / 2 ^ 2 % 2 := by rw [getLsbD_eq_decide, bit_decide]
  have hmask : (v &&& 7).toNat = v.toNat % 8 := by
    rw [BitVec.toNat_and]
    exact Nat.and_two_pow_sub_one_eq_mod v.toNat 3
  rw [cfgWord_toNat, hmask]
  show (v.extractLsb' 0 2).toNat + 4 * bit (v.getLsbD 2) = _
  rw [hsx, BitVec.extractLsb'_toNat, Nat.shiftRight_zero]
  omega

/-- Settles O12: the fields of the two Words as numbers. -/
theorem statusAndCfgRegisterFields : Obligations.StatusAndCfgRegisterFields := by
  refine ⟨by decide, by decide, fun s => ⟨statusWord_bit0 s, statusWord_result s, statusWord_ovr s,
    statusWord_reserved s, cfgWord_ew s, cfgWord_sx s, cfgWord_reserved s,
    fun v => hostWrite_status s v, fun v hidle => ?_⟩⟩
  rw [hostWrite_of_idle _ _ _ hidle]
  exact ⟨cfgWord_writeReg s v, rfl⟩

/-! ### The context views (10_state.md R122 to R127) -/

theorem wstatWord_toNat (w : Writer) : (wstatWord w).toNat =
    w.state.code.toNat + 16 * w.slot.toNat + 65536 * w.len.toNat + 268435456 * w.ew.toNat := by
  have hc := w.state.code.isLt
  have hs := w.slot.isLt
  have hl := w.len.isLt
  have he := w.ew.isLt
  simp only [wstatWord, BitVec.toNat_ofNat, Nat.shiftLeft_eq]
  omega

theorem rstatWord_toNat (r : Reader) : (rstatWord r).toNat =
    r.state.code.toNat + 16 * r.slot.toNat + 268435456 * r.ew.toNat + 1073741824 * bit r.sx := by
  have hc := r.state.code.isLt
  have hs := r.slot.isLt
  have he := r.ew.isLt
  have hb := bit_le_one r.sx
  simp only [rstatWord, BitVec.toNat_ofNat, Nat.shiftLeft_eq]
  omega

/-- WSTAT's fields, and its other bits 0 (10_state.md R122). -/
theorem wstatWord_fields (w : Writer) :
    (wstatWord w).extractLsb' 0 2 = w.state.code ∧ (wstatWord w).extractLsb' 4 4 = w.slot ∧
      (wstatWord w).extractLsb' 16 10 = w.len ∧ (wstatWord w).extractLsb' 28 2 = w.ew ∧
      wstatWord w &&& ~~~(0x33FF00F3 : Word) = 0 := by
  have hw := wstatWord_toNat w
  have hc := w.state.code.isLt
  have hs := w.slot.isLt
  have hl := w.len.isLt
  have he := w.ew.isLt
  refine ⟨?_, ?_, ?_, ?_, and_not_eq_zero fun k hk hout => ?_⟩
  iterate 4
    apply BitVec.eq_of_toNat_eq
    rw [BitVec.extractLsb'_toNat, Nat.shiftRight_eq_div_pow]
    omega
  have hgap : (2 ≤ k ∧ k < 4) ∨ (8 ≤ k ∧ k < 16) ∨ (26 ≤ k ∧ k < 28) ∨ 30 ≤ k := by
    revert hout; revert hk; revert k; decide
  rcases hgap with ⟨hlo, hhi⟩ | ⟨hlo, hhi⟩ | ⟨hlo, hhi⟩ | hge
  · exact getLsbD_of_field_eq_zero (n := 2) (by omega) hlo hhi
  · exact getLsbD_of_field_eq_zero (n := 8) (by omega) hlo hhi
  · exact getLsbD_of_field_eq_zero (n := 2) (by omega) hlo hhi
  · exact getLsbD_of_toNat_lt (by omega) hge

/-- RSTAT's fields, and its other bits 0 (10_state.md R125). -/
theorem rstatWord_fields (r : Reader) :
    (rstatWord r).extractLsb' 0 2 = r.state.code ∧ (rstatWord r).extractLsb' 4 4 = r.slot ∧
      (rstatWord r).extractLsb' 28 2 = r.ew ∧ (rstatWord r).getLsbD 30 = r.sx ∧
      rstatWord r &&& ~~~(0x700000F3 : Word) = 0 := by
  have hr := rstatWord_toNat r
  have hc := r.state.code.isLt
  have hs := r.slot.isLt
  have he := r.ew.isLt
  have hb := bit_le_one r.sx
  have hsx : (rstatWord r).toNat / 2 ^ 30 % 2 = bit r.sx := by omega
  refine ⟨?_, ?_, ?_, by rw [getLsbD_eq_decide, hsx, bit_eq_one], and_not_eq_zero fun k hk hout => ?_⟩
  iterate 3
    apply BitVec.eq_of_toNat_eq
    rw [BitVec.extractLsb'_toNat, Nat.shiftRight_eq_div_pow]
    omega
  have hgap : (2 ≤ k ∧ k < 4) ∨ (8 ≤ k ∧ k < 28) ∨ 31 ≤ k := by
    revert hout; revert hk; revert k; decide
  rcases hgap with ⟨hlo, hhi⟩ | ⟨hlo, hhi⟩ | hge
  · exact getLsbD_of_field_eq_zero (n := 2) (by omega) hlo hhi
  · exact getLsbD_of_field_eq_zero (n := 20) (by omega) hlo hhi
  · exact getLsbD_of_toNat_lt (by omega) hge

/-- The views are read-only (20_memory.md R203). -/
theorem writeReg_view (s : State) (q : Reg) (v : Word)
    (hq : q ∈ [Reg.wstat, .wlast, .whdr, .rstat, .rlast, .rhdr]) : writeReg q v s = s := by
  simp only [List.mem_cons, List.not_mem_nil, or_false] at hq
  rcases hq with rfl | rfl | rfl | rfl | rfl | rfl <;> rfl

/-- Settles O13: the two status views field by field; the others are the context's own Words. -/
theorem contextViewFields : Obligations.ContextViewFields := by
  refine ⟨by decide, by decide, fun s => ⟨wstatWord_fields s.writer, rfl, rfl, rstatWord_fields s.reader,
    rfl, rfl, fun q v hq hidle => ?_, by decide, rfl, rfl, by decide, rfl, rfl⟩⟩
  rw [hostWrite_of_idle s q v hidle, writeReg_view s q v hq]

/-! ### The map and idle writes -/

/-- The registers that store the value written: those neither read-only nor with fields of their own. -/
theorem readReg_writeReg (s : State) (r : Reg) (v : Word)
    (hr : r ∉ [Reg.cmd, .status, .cfg, .wstat, .wlast, .whdr, .rstat, .rlast, .rhdr]) :
    readReg (writeReg r v s) r = v := by
  cases r with
  | vbuf i => exact Vector.getElem_set_self _
  | pbuf j => exact Vector.getElem_set_self _
  | offset | width | count | hdr | initOffset => rfl
  | cmd | status | cfg | wstat | wlast | whdr | rstat | rlast | rhdr => simp at hr

/-- Such a write changes what no other register reads. -/
theorem readReg_writeReg_ne (s : State) (r q : Reg) (v : Word) (hqr : q ≠ r)
    (hr : r ∉ [Reg.cmd, .status, .cfg, .wstat, .wlast, .whdr, .rstat, .rlast, .rhdr]) :
    readReg (writeReg r v s) q = readReg s q := by
  cases r with
  | vbuf i =>
    cases q with
    | vbuf k =>
      have hne : i.val ≠ k.val := fun e => hqr (congrArg Reg.vbuf (Fin.ext e.symm))
      exact Vector.getElem_set_ne i.isLt k.isLt hne
    | _ => rfl
  | pbuf j =>
    cases q with
    | pbuf k =>
      have hne : j.val ≠ k.val := fun e => hqr (congrArg Reg.pbuf (Fin.ext e.symm))
      exact Vector.getElem_set_ne j.isLt k.isLt hne
    | _ => rfl
  | offset | width | count | hdr | initOffset => cases q <;> first | rfl | exact absurd rfl hqr
  | cmd | status | cfg | wstat | wlast | whdr | rstat | rlast | rhdr => simp at hr

/-- What such a write may change. -/
theorem writeReg_frame (s : State) (r : Reg) (v : Word)
    (hr : r ∉ [Reg.cmd, .status, .cfg, .wstat, .wlast, .whdr, .rstat, .rlast, .rhdr]) :
    writeReg r v s = { s with
      offset := (writeReg r v s).offset, width := (writeReg r v s).width
      count := (writeReg r v s).count, hdr := (writeReg r v s).hdr
      initOffset := (writeReg r v s).initOffset, vbuf := (writeReg r v s).vbuf
      pbuf := (writeReg r v s).pbuf } := by
  cases r with
  | vbuf i => rfl
  | pbuf j => rfl
  | offset | width | count | hdr | initOffset => rfl
  | cmd | status | cfg | wstat | wlast | whdr | rstat | rlast | rhdr => simp at hr

/-- The bus's answer is read by no register. -/
theorem readReg_bus (s : State) (b : BusReply) (q : Reg) : readReg { s with bus := b } q = readReg s q := by
  cases q <;> rfl

/-- Settles O14: an idle write at an offset is the write of the register the offset names. -/
theorem registerReadsBackItsWrite : Obligations.RegisterReadsBackItsWrite := by
  refine ⟨by decide, fun _ => rfl, fun _ => rfl, fun s r v hidle => ⟨fun off rest hoff hs => ?_, fun hr => ?_⟩⟩
  · rw [step_access s hs, hostAccess_write _ (ite_regAt_of_byteOffset rfl hoff)]
  · rw [hostWrite_of_idle s r v hidle]
    refine ⟨?_, fun q hq => ?_, ?_⟩
    · rw [readReg_bus, readReg_writeReg s r v hr]
    · rw [readReg_bus, readReg_writeReg_ne s r q v hq hr]
    · rw [writeReg_frame s r v hr]

end Sys2Proof.Machine
end

section
/-! The Word transfer format (20_memory.md R206, R207): the 8 bytes of a Word in either order. -/

namespace Sys2Proof.Machine

/-! ### Bytes of a Word -/

theorem ser_le (w : Word) : ser .le w =
    [w.extractLsb' 0 8, w.extractLsb' 8 8, w.extractLsb' 16 8, w.extractLsb' 24 8, w.extractLsb' 32 8,
      w.extractLsb' 40 8, w.extractLsb' 48 8, w.extractLsb' 56 8] := rfl

/-- The most significant byte first is the least significant byte first, read backwards. -/
theorem ser_be (w : Word) : ser .be w = (ser .le w).reverse := rfl

theorem deser_be (b : List Byte) : deser .be b = deser .le b.reverse := by
  simp only [deser, List.foldr_reverse]

theorem ser_getD_le (w : Word) (k : Nat) (hk : k < 8) :
    (ser .le w).getD k 0 = w.extractLsb' (8 * k) 8 := by
  simp [ser, List.getD_eq_getElem?_getD, hk]

theorem ser_getD_be (w : Word) (k : Nat) (hk : k < 8) :
    (ser .be w).getD k 0 = w.extractLsb' (56 - 8 * k) 8 := by
  simp [ser, List.getD_eq_getElem?_getD, hk]

/-- `deser` of 8 bytes, least significant byte first, as a number. -/
theorem deser_le_toNat (b0 b1 b2 b3 b4 b5 b6 b7 : Byte) :
    (deser .le [b0, b1, b2, b3, b4, b5, b6, b7]).toNat =
      b0.toNat + 2 ^ 8 * b1.toNat + 2 ^ 16 * b2.toNat + 2 ^ 24 * b3.toNat + 2 ^ 32 * b4.toNat +
        2 ^ 40 * b5.toNat + 2 ^ 48 * b6.toNat + 2 ^ 56 * b7.toNat := by
  have h0 := b0.isLt
  have h1 := b1.isLt
  have h2 := b2.isLt
  have h3 := b3.isLt
  have h4 := b4.isLt
  have h5 := b5.isLt
  have h6 := b6.isLt
  have h7 := b7.isLt
  simp only [deser, List.foldr_cons, List.foldr_nil, BitVec.toNat_ofNat]
  omega

/-- Byte k of a Word as a number. -/
theorem byte_toNat (w : Word) (lo : Nat) : (w.extractLsb' lo 8).toNat = w.toNat / 2 ^ lo % 256 := by
  rw [BitVec.extractLsb'_toNat, Nat.shiftRight_eq_div_pow]

theorem deser_ser_le (w : Word) : deser .le (ser .le w) = w := by
  have hw := w.isLt
  apply BitVec.eq_of_toNat_eq
  rw [ser_le, deser_le_toNat]
  simp only [byte_toNat]
  omega

theorem deser_ser (o : ByteOrder) (w : Word) : deser o (ser o w) = w := by
  cases o with
  | le => exact deser_ser_le w
  | be => rw [ser_be, deser_be, List.reverse_reverse, deser_ser_le]

/-- A byte string of 8 bytes is its 8 bytes. -/
theorem exists_eight_of_length {b : List Byte} (h : b.length = 8) :
    ∃ b0 b1 b2 b3 b4 b5 b6 b7, b = [b0, b1, b2, b3, b4, b5, b6, b7] := by
  match b, h with
  | [b0, b1, b2, b3, b4, b5, b6, b7], _ => exact ⟨b0, b1, b2, b3, b4, b5, b6, b7, rfl⟩

theorem ser_deser_le {b : List Byte} (h : b.length = 8) : ser .le (deser .le b) = b := by
  obtain ⟨b0, b1, b2, b3, b4, b5, b6, b7, rfl⟩ := exists_eight_of_length h
  have hw := deser_le_toNat b0 b1 b2 b3 b4 b5 b6 b7
  have h0 := b0.isLt
  have h1 := b1.isLt
  have h2 := b2.isLt
  have h3 := b3.isLt
  have h4 := b4.isLt
  have h5 := b5.isLt
  have h6 := b6.isLt
  have h7 := b7.isLt
  generalize deser .le [b0, b1, b2, b3, b4, b5, b6, b7] = w at hw
  simp only [ser_le, List.cons.injEq, and_true]
  refine ⟨?_, ?_, ?_, ?_, ?_, ?_, ?_, ?_⟩
  all_goals
    apply BitVec.eq_of_toNat_eq
    rw [byte_toNat]
    omega

theorem ser_deser (o : ByteOrder) {b : List Byte} (h : b.length = 8) : ser o (deser o b) = b := by
  cases o with
  | le => exact ser_deser_le h
  | be => rw [ser_be, deser_be, ser_deser_le (by simpa using h), List.reverse_reverse]

/-! ### Sequences of Words -/

/-- The Words of a sequence's bytes are the sequence, whatever follows. -/
theorem deserWords_serWords_append (o : ByteOrder) (ws : List Word) (left : List Byte) :
    deserWords o ws.length (serWords o ws ++ left) = ws := by
  induction ws with
  | nil => rfl
  | cons w ws ih =>
    have hlen := ser_length o w
    have hhead : (serWords o (w :: ws) ++ left).take 8 = ser o w := by
      simp [serWords, hlen]
    have htail : (serWords o (w :: ws) ++ left).drop 8 = serWords o ws ++ left := by
      simp [serWords, hlen]
    rw [deserWords] at ih ⊢
    rw [List.length_cons, List.range_succ_eq_map, List.map_cons, List.map_map, Nat.mul_zero,
      List.drop_zero, hhead, deser_ser]
    refine congrArg (w :: ·) (Eq.trans (List.map_congr_left fun j _ => ?_) ih)
    rw [Function.comp_apply, Nat.mul_succ, Nat.add_comm, ← List.drop_drop, htail]

theorem deserWords_serWords (o : ByteOrder) (ws : List Word) {n : Nat} (h : ws.length = n) :
    deserWords o n (serWords o ws) = ws := by
  subst h
  simpa using deserWords_serWords_append o ws []

theorem serWords_append (o : ByteOrder) (us vs : List Word) :
    serWords o (us ++ vs) = serWords o us ++ serWords o vs := List.flatMap_append

/-! ### Accesses as lanes -/

/-- Settles O54: the accesses as lanes have the targets of the 64-bit ones, and the same effect. -/
theorem wordTransferFormat : Obligations.WordTransferFormat := by
  refine ⟨fun w => ⟨fun o => ⟨ser_length o w, deser_ser o w⟩, fun o b h => ser_deser o h,
    ser_getD_le w, ser_getD_be w⟩, fun s off rest => ⟨fun b hb => ?_, fun t ht => ?_⟩⟩
  · have hsame : (Access.writeLanes off b).target = (Access.write 64 off (deser s.byteOrder b)).target := by
      simp only [Access.target, hb, if_true]
    rw [step_access _ rfl, step_access _ rfl]
    cases hr : (Access.write 64 off (deser s.byteOrder b)).target with
    | none =>
      rw [(hostAccess_eq_fault_iff _ _).mpr hr, (hostAccess_eq_fault_iff _ _).mpr (hsame.trans hr)]
    | some r => rw [hostAccess_write _ hr, hostAccess_writeLanes _ (hsame.trans hr)]
  · rw [step_access _ rfl] at ht ⊢
    cases hr : (Access.read 64 off).target with
    | none => rw [(hostAccess_eq_fault_iff _ _).mpr hr] at ht; cases ht
    | some r =>
      have hlanes : (Access.readLanes 8 off).target = some r := hr
      rw [hostAccess_read _ hr] at ht
      rw [hostAccess_readLanes _ hlanes]
      cases ht
      obtain ⟨w, f, e⟩ := hostRead_bus r { s with schedule := rest }
      refine ⟨w, congrArg State.bus e, congrArg _ ?_⟩
      rw [e]
      exact asLanes_of_data _ rfl

end Sys2Proof.Machine
end

section
/-! Reset, runs and waits: what reset leaves, that a safe run goes on, and that a late answer of a port does what
a ready one does (70_reset_and_hazards.md R1200, R1201; 20_memory.md R202, R209, R210, R213). -/

namespace Sys2Proof.Machine

/-! ### Reset -/

/-- Settles O16: the reset contexts are those WINIT and RINIT make from CFG = 0 and INIT_OFFSET = 0. -/
theorem resetStateValues : Obligations.ResetStateValues :=
  ⟨rfl, rfl, rfl, rfl, rfl, rfl, rfl, rfl, rfl, rfl, rfl, rfl, rfl, rfl, rfl, rfl, rfl, rfl, rfl, rfl, rfl,
    rfl, rfl, rfl, rfl⟩

/-- Settles O17: only a wait on the sink has a page of which a beginning may stay. -/
theorem resetEventResetsTheBlock : Obligations.ResetEventResetsTheBlock := by
  intro s held rest hs
  rw [step_event s (.reset held) rest hs (.inl nofun)]
  simp only [event, resetBlock]
  cases s.phase with
  | sinkWait call bytes => exact ⟨bytes.take held, rfl, List.take_prefix held bytes⟩
  | idle => exact ⟨[], by rw [List.append_nil], rfl⟩
  | accepted => exact ⟨[], by rw [List.append_nil], rfl⟩
  | sourceWait call => exact ⟨[], by rw [List.append_nil], rfl⟩

/-! ### Runs -/

/-- A command leaves the schedule alone. -/
theorem runCommand_keeps_schedule (s : State) :
    ∃ t, runCommand s = .next t ∧ t.schedule = s.schedule := by
  rcases runCommand_cases s with ⟨i, -, e⟩ | ⟨_, -, e⟩
  · obtain ⟨t, ht, -⟩ := exec_cases i s
    obtain ⟨-, -, -, -, -, -, -, hsched, -⟩ := commandsKeepHostOnlyRegisters i s t ht
    exact ⟨t, e.trans ht, hsched⟩
  · exact ⟨_, e, rfl⟩

/-- A host's move leaves the schedule alone. -/
theorem hostMove_keeps_schedule {s t : State}
    (h : (∃ a, hostAccess a s = .next t) ∨ hostTurn s = .next t) : t.schedule = s.schedule := by
  rcases hostMove_frame s t h with ⟨b, f, p, rfl⟩ | ⟨r, v, p, rfl⟩
  · rfl
  · obtain ⟨-, -, -, -, -, hsched, -⟩ := hostWrite_frame s r v
    exact hsched

theorem hostAccess_next_of_admitted {a : Access} (s : State) (h : a.target.isSome = true) :
    ∃ t, hostAccess a s = .next t := by
  rcases hostAccess_cases a s with
    ⟨hnone, -⟩ | ⟨r, -, ⟨_, _, -, e⟩ | ⟨_, _, _, -, -, e⟩ | ⟨_, -, e⟩⟩
  · rw [hnone] at h
    cases h
  all_goals exact ⟨_, e⟩

/-- An admitted event does not stop the run, and leaves the rest of the schedule alone. -/
theorem event_next_of_admitted {e : Event} (s : State) (h : e.admitted = true) :
    ∃ t, event e s = .next t ∧ t.schedule = s.schedule := by
  cases e with
  | access a =>
    obtain ⟨t, ht⟩ := hostAccess_next_of_admitted s h
    exact ⟨t, ht, hostMove_keeps_schedule (.inl ⟨a, ht⟩)⟩
  | host =>
    obtain ⟨t, ht⟩ := hostTurn_next s
    exact ⟨t, ht, hostMove_keeps_schedule (.inr ht)⟩
  | engine => exact ⟨s, rfl, rfl⟩
  | sinkReply r =>
    refine ⟨_, rfl, ?_⟩
    rcases sinkAnswers_cases r s with ⟨call, bytes, -, e⟩ | ⟨-, e⟩
    · obtain ⟨_, _, _, _, e', -⟩ := sinkReturn_frame call bytes r s
      rw [e, e']
    · rw [e]; rfl
  | sourceReply r =>
    refine ⟨_, rfl, ?_⟩
    rcases sourceAnswers_cases r s with ⟨call, hp, -⟩ | ⟨-, e⟩
    · rcases sourceAnswers_endsOrWaits hp r with ⟨_, _, _, _, _, _, e, -⟩ | ⟨-, _, _, _, e, -⟩ <;> rw [e]
    · rw [e]; rfl
  | reset held => exact ⟨_, rfl, rfl⟩

/-- A step of a safe state answers a next state, and that one is safe: its schedule is what is left. -/
theorem step_next_of_safe {s : State} (h : s.safeSchedule) :
    ∃ t, step s = .next t ∧ t.safeSchedule := by
  rcases step_cases s with ⟨-, -, e⟩ | ⟨-, rest, hs, e⟩ | ⟨-, -, e⟩ | ⟨ev, rest, hs, -, e⟩
  · obtain ⟨t, ht, hsched⟩ := runCommand_keeps_schedule s
    exact ⟨t, e.trans ht, fun ev hev => h ev (hsched ▸ hev)⟩
  · obtain ⟨t, ht, hsched⟩ := runCommand_keeps_schedule { s with schedule := rest }
    refine ⟨t, e.trans ht, fun ev hev => h ev ?_⟩
    rw [hsched] at hev
    exact hs ▸ List.mem_cons_of_mem _ hev
  · obtain ⟨t, ht⟩ := hostTurn_next s
    have hsched := hostMove_keeps_schedule (.inr ht)
    exact ⟨t, e.trans ht, fun ev hev => h ev (hsched ▸ hev)⟩
  · have hadm : ev.admitted = true := h ev (hs ▸ List.mem_cons_self)
    obtain ⟨t, ht, hsched⟩ := event_next_of_admitted { s with schedule := rest } hadm
    refine ⟨t, e.trans ht, fun ev' hev => h ev' ?_⟩
    rw [hsched] at hev
    exact hs ▸ List.mem_cons_of_mem _ hev

/-- Settles O59, by induction on the number of steps. -/
theorem safeRunsGoOn : Obligations.SafeRunsGoOn := by
  intro s hs k
  induction k generalizing s with
  | zero => exact ⟨s, rfl⟩
  | succ k ih =>
    obtain ⟨t, ht, hsafe⟩ := step_next_of_safe hs
    obtain ⟨u, hu⟩ := ih t hsafe
    refine ⟨u, Eq.trans ?_ hu⟩
    have hstep : core.step s = .next t := ht
    simp only [Host.Core.run, hstep]

/-! ### The ports -/

/-- Settles O42: the answer fails the call the engine waits on. -/
theorem sinkFailureBreaksTheWriter : Obligations.SinkFailureBreaksTheWriter := by
  intro s call bytes r rest hp hs hfail
  have hr : r.succeeds bytes = false := by
    rw [← Bool.not_eq_true, succeeds_iff]
    rcases hfail with herr | hshort
    · simp [herr]
    · omega
  refine ⟨bytes.take r.held, List.take_prefix _ _, ?_⟩
  rw [step_event s (.sinkReply r) rest hs (.inl nofun)]
  rcases sinkAnswers_cases r { s with schedule := rest } with ⟨call', bytes', hp', e⟩ | ⟨hno, -⟩
  · cases hp.symm.trans hp'
    exact congrArg _ (e.trans (sinkReturn_of_fails _ call hr))
  · exact absurd hp (hno call bytes)

theorem answer_of_ended {k : Source} (n : Nat) (r : SourceReply) (h : k.ended = true) :
    k.answer n r = (.eof [], k) := by
  unfold Source.answer
  rw [if_pos h]

theorem answer_deliver {k : Source} {n : Nat} (h : k.ended = false) (hn : n ≤ k.bytes.length) :
    k.answer n .deliver = (.ok (k.bytes.take n), { k with bytes := k.bytes.drop n }) := by
  simp only [Source.answer, h, Bool.false_eq_true, if_false, if_pos hn]

theorem answer_deliver_short {k : Source} {n : Nat} (h : k.ended = false) (hn : k.bytes.length < n) :
    k.answer n .deliver = (.eof k.bytes, { k with bytes := [], ended := true }) := by
  simp only [Source.answer, h, Bool.false_eq_true, if_false, if_neg (Nat.not_le.mpr hn)]

theorem answer_fail {k : Source} (n lost : Nat) (h : k.ended = false) :
    k.answer n (.fail lost) = (.err, { k with bytes := k.bytes.drop (min lost n) }) := by
  simp only [Source.answer, h, Bool.false_eq_true, if_false]

/-- Settles O44, from the four answers. -/
theorem sourceAnswersAsAgreed : Obligations.SourceAnswersAsAgreed := by
  intro k n r
  refine ⟨answer_of_ended n r, fun h hn => ?_, answer_deliver_short, fun h lost => ?_⟩
  · exact ⟨k.bytes.take n, k.bytes.drop n, (List.take_append_drop n k.bytes).symm,
      List.length_take_of_le hn, answer_deliver h hn⟩
  · rw [answer_fail n lost h]

/-! ### Waits -/

/-- While a command waits for a port, a step that is no reset and no answer of that port leaves it waiting. -/
theorem step_keeps_wait {s t : State} (h : step s = .next t) (hwait : ¬Resting s.phase)
    (hreset : ∀ held, s.schedule.head? ≠ some (.reset held))
    (hsink : ∀ r, s.schedule.head? = some (.sinkReply r) → ∀ call bytes, s.phase ≠ .sinkWait call bytes)
    (hsource : ∀ r, s.schedule.head? = some (.sourceReply r) → ∀ call, s.phase ≠ .sourceWait call) :
    t.phase = s.phase := by
  have host : ∀ u : State, u.phase = s.phase →
      ((∃ a, hostAccess a u = .next t) ∨ hostTurn u = .next t) → t.phase = s.phase := by
    intro u hu hmove
    obtain ⟨-, -, -, -, -, ⟨hp, -, -⟩ | ⟨hrest, -⟩⟩ := quiet_of_hostMove hmove
    · exact hp.trans hu
    · exact absurd (hu ▸ hrest) hwait
  rcases step_cases s with ⟨hp, -, -⟩ | ⟨hp, -⟩ | ⟨-, -, e⟩ | ⟨ev, rest, hs, -, e⟩
  · exact absurd (.inr hp) hwait
  · exact absurd (.inr hp) hwait
  · exact host s rfl (.inr (e.symm.trans h))
  · rw [e] at h
    cases ev with
    | access a => exact host { s with schedule := rest } rfl (.inl ⟨a, h⟩)
    | host => exact host { s with schedule := rest } rfl (.inr h)
    | engine => cases h; rfl
    | reset held => exact absurd (by rw [hs]; rfl) (hreset held)
    | sinkReply r =>
      cases h
      rcases sinkAnswers_cases r { s with schedule := rest } with ⟨call, bytes, hp, -⟩ | ⟨-, e⟩
      · exact absurd hp (hsink r (by rw [hs]; rfl) call bytes)
      · rw [e]; rfl
    | sourceReply r =>
      cases h
      rcases sourceAnswers_cases r { s with schedule := rest } with ⟨call, hp, -⟩ | ⟨-, e⟩
      · exact absurd hp (hsource r (by rw [hs]; rfl) call)
      · rw [e]; rfl

/-- With nothing scheduled, no program and no command to run, the machine stands still. -/
theorem step_of_nothing {t : State} (hs : t.schedule = []) (hprog : t.host.program = [])
    (hp : t.phase ≠ .accepted) : step t = .next t := by
  simp only [step, nextMove, hs, if_neg hp, hostTurn, hprog]

/-- The sink has this one answer ready. -/
def withSinkReply (s : State) (r : SinkReply) : State := s.putSink { s.sink with replies := [r] }

/-- The source has this one answer ready. -/
def withSourceReply (s : State) (r : SourceReply) : State := s.putSource { s.source with replies := [r] }

theorem putSink_none {s : State} (h : s.sink.replies = []) :
    s.putSink { s.sink with replies := [] } = s := by
  rw [← h]
  rfl

theorem source_none {k : Source} (h : k.replies = []) : { k with replies := [] } = k := by
  rw [← h]

theorem sinkReturn_hold (call : SinkCall) (bytes : List Byte) (r : SinkReply) (s : State) (p : Phase) :
    sinkReturn call bytes r (s.hold p) = sinkReturn call bytes r s := by
  cases hr : r.succeeds bytes with
  | false => rw [sinkReturn_of_fails _ call hr, sinkReturn_of_fails _ call hr]; rfl
  | true =>
    cases call with
    | wbatch n => rw [sinkReturn_wbatch _ n hr, sinkReturn_wbatch _ n hr]; rfl
    | wflush => rw [sinkReturn_wflush _ hr, sinkReturn_wflush _ hr]; rfl

/-- A page's answer does the same whether it stood ready or comes to the wait. -/
theorem sinkWrite_late (call : SinkCall) (bytes : List Byte) (r : SinkReply) {s : State}
    (h : s.sink.replies = []) :
    sinkWrite call bytes (sinkReturn call bytes) (withSinkReply s r) =
      sinkAnswers r (sinkWrite call bytes (sinkReturn call bytes) s) := by
  have hlate : sinkWrite call bytes (sinkReturn call bytes) s = s.hold (.sinkWait call bytes) := by
    simp only [sinkWrite, h]
  calc sinkWrite call bytes (sinkReturn call bytes) (withSinkReply s r)
      = sinkReturn call bytes r (s.putSink { s.sink with replies := [] }) := rfl
    _ = sinkReturn call bytes r (s.hold (.sinkWait call bytes)) := by
        rw [putSink_none h, sinkReturn_hold]
    _ = sinkAnswers r (sinkWrite call bytes (sinkReturn call bytes) s) := by rw [hlate]; rfl

/-- What WBATCH or WFLUSH does with a ready answer, when without one it waits. -/
theorem exec_writer_late {i : Instr} (hi : i = .wbatch ∨ i = .wflush) {s t : State}
    (h : exec i s = .next t) (hwait : t.phase ≠ .idle) (hnone : s.sink.replies = []) (r : SinkReply) :
    exec i (withSinkReply s r) = .next (sinkAnswers r t) := by
  rcases hi with rfl | rfl
  · by_cases hf : s.writer.state = .filling
    · by_cases hslot : s.writer.slot = 8
      · rw [exec_wbatch_emit s hf hslot] at h
        cases h
        rw [exec_wbatch_emit (withSinkReply s r) hf hslot]
        exact congrArg _ (sinkWrite_late _ (fullPage s) r (s := s.putWriter (fullWriter s)) hnone)
      · rw [exec_wbatch_append s hf hslot] at h
        cases h
        exact absurd rfl hwait
    · rw [exec_wbatch_of_not_filling s hf] at h
      cases h
      exact absurd rfl hwait
  · by_cases hf : s.writer.state = .filling
    · rcases Nat.lt_or_ge 63 s.count.toNat with hc | hc
      · rw [exec_wflush_of_count_gt s hf hc] at h
        cases h
        exact absurd rfl hwait
      · by_cases hempty : s.writer.slot = 0 ∧ s.count = 0
        · rw [exec_wflush_empty s hf hempty.1 hempty.2] at h
          cases h
          exact absurd rfl hwait
        · rw [exec_wflush_emit s hf hc hempty] at h
          cases h
          rw [exec_wflush_emit (withSinkReply s r) hf hc hempty]
          exact congrArg _ (sinkWrite_late .wflush (lastPage s) r hnone)
    · rw [exec_wflush_of_not_filling s hf] at h
      cases h
      exact absurd rfl hwait

theorem blockAnswer_hold (n slot : Nat) (a : SourceAnswer) (s : State) (p : Phase) :
    blockAnswer n slot a (s.hold p) = blockAnswer n slot a s := by
  cases a <;> rfl

theorem tailAnswer_hold (count : Nat) (a : SourceAnswer) (s : State) (p : Phase) :
    tailAnswer count a (s.hold p) = tailAnswer count a s := by
  cases a <;> rfl

theorem srcRead_hold {go : SourceAnswer → State → State}
    (hgo : ∀ a u p, go a (State.hold u p) = go a u) (call : SourceCall) (s : State) (p : Phase) :
    srcRead call go (s.hold p) = srcRead call go s := by
  rcases srcRead_cases call go s with ⟨hnone, e⟩ | ⟨r, rest, hready, e⟩
  · rw [e]
    simp only [srcRead, hold_source, hnone]
    rfl
  · rw [e]
    simp only [srcRead, hold_source, hready]
    exact hgo _ (s.putSource _) p

theorem readSlot_hold (s : State) (p : Phase) : readSlot (s.hold p) = readSlot s := by
  cases hc : classify s.reader.hdr s.reader.slot.toNat with
  | invalid => rw [readSlot_of_invalid s hc, readSlot_of_invalid (s.hold p) hc]; rfl
  | terminal r =>
    rcases Nat.eq_zero_or_pos r with rfl | hpos
    · rw [readSlot_of_tail_zero s hc, readSlot_of_tail_zero (s.hold p) hc]; rfl
    · rw [readSlot_of_tail s hc hpos, readSlot_of_tail (s.hold p) hc hpos]
      exact srcRead_hold (tailAnswer_hold r) _ s p
  | block n =>
    rcases Nat.lt_or_ge (elemBits s.reader.ew) n with hn | hn
    · rw [readSlot_of_width_gt s hc hn, readSlot_of_width_gt (s.hold p) hc hn]; rfl
    · rcases Nat.eq_zero_or_pos n with rfl | hpos
      · rw [readSlot_of_block_zero s hc, readSlot_of_block_zero (s.hold p) hc]; rfl
      · rw [readSlot_of_block s hc hn hpos, readSlot_of_block (s.hold p) hc hn hpos]
        exact srcRead_hold (blockAnswer_hold n _) _ s p

theorem headerAnswer_hold (a : SourceAnswer) (s : State) (p : Phase) :
    headerAnswer a (s.hold p) = headerAnswer a s := by
  cases a with
  | err => rfl
  | eof b => cases b <;> rfl
  | ok b => exact readSlot_hold (s.putReader { s.reader with hdr := deser s.byteOrder b, slot := 0 }) p

/-- A source's answer does the same whether it stood ready or comes to the wait. -/
theorem srcRead_late (call : SourceCall) (r : SourceReply) {s : State}
    (hgo : ∀ a u p, sourceReturn call a (State.hold u p) = sourceReturn call a u)
    (h : s.source.replies = []) :
    srcRead call (sourceReturn call) (withSourceReply s r) =
      sourceAnswers r (srcRead call (sourceReturn call) s) := by
  have hlate : srcRead call (sourceReturn call) s = s.hold (.sourceWait call) := by
    simp only [srcRead, h]
  have hready : srcRead call (sourceReturn call) (withSourceReply s r) =
      sourceReturn call (s.source.answer call.request r).1
        (s.putSource (s.source.answer call.request r).2) := by
    have hk : { s.source with replies := [] } = s.source := source_none h
    calc srcRead call (sourceReturn call) (withSourceReply s r)
        = sourceReturn call (Source.answer { s.source with replies := [] } call.request r).1
            (s.putSource (Source.answer { s.source with replies := [] } call.request r).2) := rfl
      _ = _ := by rw [hk]
  rw [hready, hlate, sourceAnswers_of_wait rfl]
  exact (hgo _ (s.putSource _) _).symm

/-- What RBATCH does with a ready answer, when without one it waits. -/
theorem exec_rbatch_late {s t : State} (h : exec .rbatch s = .next t) (hwait : t.phase ≠ .idle)
    (hnone : s.source.replies = []) (r : SourceReply) :
    exec .rbatch (withSourceReply s r) = .next (sourceAnswers r t) := by
  cases hst : s.reader.state with
  | done => rw [exec_rbatch_of_done s hst] at h; cases h; exact absurd rfl hwait
  | failed => rw [exec_rbatch_of_failed s hst] at h; cases h; exact absurd rfl hwait
  | active =>
    by_cases hslot : s.reader.slot = 9
    · rw [exec_rbatch_header s hst hslot] at h
      cases h
      rw [exec_rbatch_header (withSourceReply s r) hst hslot]
      exact congrArg _ (srcRead_late .header r headerAnswer_hold hnone)
    · rw [exec_rbatch_slot s hst hslot] at h
      cases h
      rw [exec_rbatch_slot (withSourceReply s r) hst hslot]
      cases hc : classify s.reader.hdr s.reader.slot.toNat with
      | invalid => rw [readSlot_of_invalid s hc] at hwait; exact absurd rfl hwait
      | terminal n =>
        rcases Nat.eq_zero_or_pos n with rfl | hpos
        · rw [readSlot_of_tail_zero s hc] at hwait; exact absurd rfl hwait
        · rw [readSlot_of_tail s hc hpos, readSlot_of_tail (withSourceReply s r) hc hpos]
          exact congrArg _ (srcRead_late (.tail n) r (tailAnswer_hold n) hnone)
      | block n =>
        rcases Nat.lt_or_ge (elemBits s.reader.ew) n with hn | hn
        · rw [readSlot_of_width_gt s hc hn] at hwait; exact absurd rfl hwait
        · rcases Nat.eq_zero_or_pos n with rfl | hpos
          · rw [readSlot_of_block_zero s hc] at hwait; exact absurd rfl hwait
          · rw [readSlot_of_block s hc hn hpos, readSlot_of_block (withSourceReply s r) hc hn hpos]
            exact congrArg _ (srcRead_late (.block n _) r (blockAnswer_hold n _) hnone)

/-- Settles O49: a wait is left by nothing else, and what a command does with an answer does not depend on the
phase it finds. -/
theorem lateAnswerActsAsReadyOne : Obligations.LateAnswerActsAsReadyOne := by
  refine ⟨fun s t h hreset => ⟨fun call bytes hp hno => ?_, fun call hp hno => ?_⟩,
    fun s t i h hwait => ⟨step_of_nothing, fun hi hnone r => ?_, fun hi hnone r => ?_⟩⟩
  · exact step_keeps_wait h (fun hrest => resting_ne_sinkWait hrest call bytes hp) hreset
      (fun r hr => absurd hr (hno r)) (fun r _ call' hp' => by rw [hp] at hp'; cases hp')
  · exact step_keeps_wait h (fun hrest => resting_ne_sourceWait hrest call hp) hreset
      (fun r _ call' bytes' hp' => by rw [hp] at hp'; cases hp') (fun r hr => absurd hr (hno r))
  · exact exec_writer_late hi h hwait hnone r
  · subst hi
    exact exec_rbatch_late h hwait hnone r

end Sys2Proof.Machine
end

section
/-! The batch codec's round trip and its steady batches (42_width_codec.md R607): unpacking undoes packing when
every value fits, and the selected width is one in which every value does. -/

namespace Sys2Proof.Machine

/-! ### The round trip -/

/-- UNPACK_N of PACK_N gives the values back when they fit in N bits (41_packer.md R504). -/
theorem unpackWords_packWords (n : Nat) (vs : List Word) (hn : n ≤ 64) (hl : vs.length = 64)
    (hfit : ∀ v ∈ vs, v.toNat < 2 ^ n) : unpackWords n (packWords n vs) = vs := by
  apply List.ext_getElem (by rw [unpackWords_length, hl])
  intro i hi hi'
  have h64 : i < 64 := hl ▸ hi'
  rw [← List.getD_eq_getElem _ 0 hi]
  apply BitVec.eq_of_getLsbD_eq
  intro b hb
  rw [unpackWords_bit n _ i b hn (packWords_length n vs) h64]
  by_cases hbn : b < n
  · rw [if_pos hbn, packWords_bit n vs i b hl h64 hbn, List.getD_eq_getElem vs 0 hi']
  · rw [if_neg hbn]
    exact (getLsbD_of_toNat_lt (hfit _ (List.getElem_mem hi')) (Nat.le_of_not_lt hbn)).symm

/-- BDEC_E of BENC_E gives the elements back (42_width_codec.md R607). -/
theorem decodeBatch_encodeBatch (ew : BitVec 2) (off : BitVec (elemBits ew))
    (vs : List (BitVec (elemBits ew))) (hl : vs.length = 64) :
    decodeBatch off (encodeBatch off vs).1 (encodeBatch off vs).2 = vs := by
  have hfit : ∀ v ∈ (encodeDeltas off vs).map zext64, v.toNat < 2 ^ minWidth (encodeDeltas off vs) := by
    intro v hv
    obtain ⟨z, hz, rfl⟩ := List.mem_map.mp hv
    rw [zext64_toNat]
    exact (minWidth_le _ _).mp le_rfl z hz
  have hround : (unpackWords (encodeBatch off vs).1 (encodeBatch off vs).2).map (lowElem ew) =
      encodeDeltas off vs := by
    rw [encodeBatch, unpackWords_packWords _ _ ((minWidth_le_elem _).trans (elemBits_le ew))
      (by simpa using hl) hfit, map_lowElem_map_zext64]
  calc decodeBatch off (encodeBatch off vs).1 (encodeBatch off vs).2
      = decodeDeltas off
          ((unpackWords (encodeBatch off vs).1 (encodeBatch off vs).2).map (lowElem ew)) := rfl
    _ = vs := by rw [hround, deltaRoundTrip]

/-- The first Words of a buffer just written are those written. -/
theorem firstEntries_overwrite {n : Nat} (buf : Vector Word n) (ws : List Word) (fits : ws.length ≤ n) :
    firstEntries (overwrite buf ws) ws.length = ws := by
  rw [firstEntries, overwrite, overwriteAt_toList, List.take_take, Nat.min_eq_left fits]
  simp

theorem batchDeltas_width_toNat (s : State) :
    (bencResult s).width.toNat = minWidth (batchDeltas s) := minWidth_ofNat_toNat _

/-- The Words BENC leaves in PBUF[0..WIDTH-1] are the packed zig-zag values. -/
theorem firstEntries_bencResult (s : State) :
    firstEntries (bencResult s).pbuf (bencResult s).width.toNat =
      packWords (minWidth (batchDeltas s)) ((batchDeltas s).map zext64) := by
  have hfits : (packWords (minWidth (batchDeltas s)) ((batchDeltas s).map zext64)).length ≤ 64 := by
    rw [packWords_length]
    exact (minWidth_le_elem _).trans (elemBits_le s.cfgEW)
  have hfirst := firstEntries_overwrite s.pbuf _ hfits
  rw [batchDeltas_width_toNat, bencResult_pbuf]
  rwa [packWords_length] at hfirst

/-- BDEC gives back the elements whose encoding WIDTH and PBUF hold. -/
theorem vbufAt_bdecResult_of_encoded {u : State} {vs : List (BitVec (elemBits u.cfgEW))}
    (hl : vs.length = 64)
    (hw : u.width.toNat = (encodeBatch (lowElem u.cfgEW u.offset) vs).1)
    (hp : packedWords u u.width.toNat = (encodeBatch (lowElem u.cfgEW u.offset) vs).2)
    {i : Nat} (hi : i < 64) :
    vbufAt (bdecResult u) i = extend64 u.cfgSX (vs[i]'(by omega)) := by
  have hdecoded : decodeBatch (lowElem u.cfgEW u.offset) u.width.toNat
      (packedWords u u.width.toNat) = vs := by
    rw [hp, hw, decodeBatch_encodeBatch u.cfgEW _ vs hl]
  have hlane := vbufAt_putVbuf_map_lt u (decodeBatch (lowElem u.cfgEW u.offset) u.width.toNat
    (packedWords u u.width.toNat)) (extend64 u.cfgSX) (decodeBatch_length _ _ _) i hi
  refine hlane.trans (congrArg _ ?_)
  exact List.getElem_of_eq hdecoded _

/-- Settles O30: BDEC reads BENC's width and Words, so it decodes the batch that BENC encoded. -/
theorem batchCodecRoundTrip : Obligations.BatchCodecRoundTrip := by
  intro s
  have hbenc := exec_benc_eq_bencResult s
  have hwidth := batchDeltas_width_toNat s
  have hwords := firstEntries_bencResult s
  rw [bencResult_frame] at hbenc
  generalize (bencResult s).width = w at hbenc hwidth hwords
  generalize (bencResult s).pbuf = pb at hbenc hwords
  refine ⟨_, hbenc, fun v => ?_⟩
  have hle : w.toNat ≤ elemBits s.cfgEW := hwidth.trans_le (minWidth_le_elem _)
  refine ⟨_, exec_bdec_eq_bdecResult _ hle, rfl, fun i hi => ?_⟩
  rw [← batchElems_getElem s.cfgEW s i hi]
  exact vbufAt_bdecResult_of_encoded
    (u := { s with vbuf := v, width := w, pbuf := pb, result := .ok, phase := .idle })
    (batchElems_length s.cfgEW s) hwidth hwords hi

/-! ### Steady batches -/

/-- A batch with the same delta at every lane. -/
theorem batchDeltas_of_steady (s : State) (d : BitVec (elemBits s.cfgEW))
    (h : ∀ i < 64, lowElem s.cfgEW (if i = 0 then s.offset else vbufAt s (i - 1))
      - lowElem s.cfgEW (vbufAt s i) = d) :
    batchDeltas s = List.replicate 64 (zigzag d) := by
  apply List.ext_getElem (by simp)
  intro i hi _
  have h64 : i < 64 := by simpa using hi
  rw [List.getElem_replicate, ← h i h64]
  exact encodeDeltas_batchElems_getElem s i h64

/-- The deltas of a batch whose lanes follow the offset as `f` says, `f 0` being the offset. -/
theorem batchDeltas_of_lanes (s : State) (d : BitVec (elemBits s.cfgEW))
    (f : Nat → BitVec (elemBits s.cfgEW)) (h0 : f 0 = lowElem s.cfgEW s.offset)
    (hstep : ∀ i, f i - f (i + 1) = d)
    (h : ∀ i < 64, lowElem s.cfgEW (vbufAt s i) = f (i + 1)) :
    batchDeltas s = List.replicate 64 (zigzag d) := by
  refine batchDeltas_of_steady s d fun i hi => ?_
  have hprev : lowElem s.cfgEW (if i = 0 then s.offset else vbufAt s (i - 1)) = f i := by
    cases i with
    | zero => exact h0.symm
    | succ i => exact h i (by omega)
  rw [hprev, h i hi, hstep]

/-- 64 values 0 need no bit, 64 values 1 one bit each, 64 values 2 two bits, at every element width. -/
theorem minWidth_steady : ∀ ew : BitVec 2,
    minWidth (List.replicate 64 (zigzag (0 : BitVec (elemBits ew)))) = 0 ∧
      minWidth (List.replicate 64 (zigzag (-1 : BitVec (elemBits ew)))) = 1 ∧
      minWidth (List.replicate 64 (zigzag (1 : BitVec (elemBits ew)))) = 2 := by
  decide

theorem zext64_zigzag_steady : ∀ ew : BitVec 2,
    zext64 (zigzag (-1 : BitVec (elemBits ew))) = 1 ∧ zext64 (zigzag (1 : BitVec (elemBits ew))) = 2 := by
  decide

theorem packWords_ones : packWords 1 (List.replicate 64 1) = [0xFFFFFFFFFFFFFFFF] := by decide

theorem packWords_twos :
    packWords 2 (List.replicate 64 2) = [0xAAAAAAAAAAAAAAAA, 0xAAAAAAAAAAAAAAAA] := by decide

/-- BENC's outputs from the batch's deltas, when they are known. -/
theorem bencResult_of_deltas {s : State} {zs : List (BitVec (elemBits s.cfgEW))} {n : Nat}
    {ws : List Word} (hz : batchDeltas s = zs) (hn : minWidth zs = n)
    (hw : packWords n (zs.map zext64) = ws) :
    (bencResult s).width = BitVec.ofNat 64 n ∧ (bencResult s).pbuf = overwrite s.pbuf ws := by
  subst hz hn hw
  exact ⟨bencResult_width s, bencResult_pbuf s⟩

theorem pbufAt_overwrite {t : State} {buf : Vector Word 64} {ws : List Word}
    (h : t.pbuf = overwrite buf ws) (fits : ws.length ≤ 64) (j : Nat) (hj : j < ws.length) :
    pbufAt t j = ws.getD j 0 := by
  rw [pbufAt, h, overwrite, overwriteAt_getD _ 0 _ _ (by simpa using fits),
    if_pos ⟨Nat.zero_le j, by simpa using hj⟩,
    Nat.sub_zero]

theorem overwrite_nil {n : Nat} (buf : Vector Word n) : overwrite buf [] = buf := by
  apply vector_ext_getD
  intro i _
  rw [overwrite, overwriteAt_getD _ 0 _ _ (by simp), if_neg (by simp)]

/-- Settles O31: the three batches have the deltas 0, -1 and 1 at every lane. -/
theorem steadyBatchesEncodeAsStated : Obligations.SteadyBatchesEncodeAsStated := by
  intro s t ht
  cases (exec_benc_eq_bencResult s).symm.trans ht
  obtain ⟨hw0, hw1, hw2⟩ := minWidth_steady s.cfgEW
  obtain ⟨hz1, hz2⟩ := zext64_zigzag_steady s.cfgEW
  refine ⟨fun h => ?_, fun h => ?_, fun h => ?_⟩
  · have hdeltas := batchDeltas_of_lanes s 0 (fun _ => lowElem s.cfgEW s.offset) rfl
      (fun _ => sub_self _) h
    obtain ⟨hwidth, hpbuf⟩ := bencResult_of_deltas hdeltas hw0 (ws := []) rfl
    exact ⟨hwidth, hpbuf.trans (overwrite_nil s.pbuf)⟩
  · have hdeltas := batchDeltas_of_lanes s (-1)
      (fun i => lowElem s.cfgEW s.offset + BitVec.ofNat (elemBits s.cfgEW) i) (by simp)
      (fun i => (add_sub_add_left_eq_sub _ _ _).trans
        (by rw [BitVec.ofNat_add]; exact sub_add_cancel_left _ _)) h
    obtain ⟨hwidth, hpbuf⟩ := bencResult_of_deltas hdeltas hw1
      (by rw [List.map_replicate, hz1, packWords_ones])
    exact ⟨hwidth, pbufAt_overwrite hpbuf (by simp) 0 (by simp)⟩
  · have hdeltas := batchDeltas_of_lanes s 1
      (fun i => lowElem s.cfgEW s.offset - BitVec.ofNat (elemBits s.cfgEW) i) (by simp)
      (fun i => (sub_sub_sub_cancel_left _ _ _).trans
        (by rw [BitVec.ofNat_add]; exact add_sub_cancel_left _ _)) h
    obtain ⟨hwidth, hpbuf⟩ := bencResult_of_deltas hdeltas hw2
      (by rw [List.map_replicate, hz2, packWords_twos])
    exact ⟨hwidth, pbufAt_overwrite hpbuf (by simp) 0 (by simp), pbufAt_overwrite hpbuf (by simp) 1 (by simp)⟩

end Sys2Proof.Machine
end

section
/-! WBATCH and WFLUSH (44_writer.md): the block BENC makes goes to the page, the page goes to the sink. -/

namespace Sys2Proof.Machine

/-- Settles O38, from the commands' cases. -/
theorem writerChecksAndEmptyFlush : Obligations.WriterChecksAndEmptyFlush := fun s =>
  ⟨fun h => ⟨exec_wbatch_of_not_filling s h, exec_wflush_of_not_filling s h⟩,
    exec_wflush_of_count_gt s, fun h hc hslot => exec_wflush_empty s h hslot hc⟩

/-! ### The block -/

/-- What BENC leaves with the writer's width and last value in place of CFG.EW and OFFSET. -/
def writerBenc (s : State) : State :=
  { s with
    cfgEW := s.writer.ew
    offset := s.writer.last
    width := BitVec.ofNat 64 (writerBlock s).1
    pbuf := overwrite s.pbuf (writerBlock s).2
    result := .ok
    phase := .idle }

theorem exec_benc_writer (s : State) :
    exec .benc { s with cfgEW := s.writer.ew, offset := s.writer.last } = .next (writerBenc s) := rfl

theorem writerBlock_length (s : State) : (writerBlock s).2.length = (writerBlock s).1 :=
  encodeBatch_length _ _

theorem writerBlock_width_le_64 (s : State) : (writerBlock s).1 ≤ 64 :=
  (writerBlock_width_le s).trans (elemBits_le _)

/-- BENC's WIDTH is the block's width. -/
theorem writerBenc_width (s : State) : (writerBenc s).width.toNat = (writerBlock s).1 := by
  have hn := writerBlock_width_le_64 s
  show (BitVec.ofNat 64 (writerBlock s).1).toNat = _
  rw [BitVec.toNat_ofNat, Nat.mod_eq_of_lt (by omega)]

/-- BENC's PBUF holds the block's Words. -/
theorem pbufAt_writerBenc (s : State) (j : Nat) (hj : j < (writerBlock s).1) :
    pbufAt (writerBenc s) j = (writerBlock s).2.getD j 0 := by
  refine pbufAt_overwrite (t := writerBenc s) rfl ?_ j ?_ <;> rw [writerBlock_length]
  · exact writerBlock_width_le_64 s
  · exact hj

/-! ### The page -/

theorem vbufAt_63 (s : State) : s.vbuf[63] = vbufAt s 63 := readReg_vbuf s 63

/-- W_LAST is the batch's last element (44_writer.md R802). -/
theorem appendedWriter_last (s : State) :
    (appendedWriter s).last.toNat = elemValue s.writer.ew (vbufAt s 63) := by
  show (zext64 (lowElem s.writer.ew s.vbuf[63])).toNat = _
  rw [zext64_toNat, lowElem_toNat, vbufAt_63]

/-- PAGEBUF with the block appended: the Words BENC leaves in PBUF, from W_LEN on. -/
theorem pageAt_appendedWriter (s : State) (hlen : s.writer.len.toNat ≤ 512) (j : Nat) :
    pageAt (appendedWriter s) j =
      if s.writer.len.toNat ≤ j ∧ j < s.writer.len.toNat + (writerBlock s).1
      then pbufAt (writerBenc s) (j - s.writer.len.toNat) else pageAt s.writer j := by
  have hn := writerBlock_width_le_64 s
  have hl := writerBlock_length s
  have hfits : s.writer.len.toNat + (writerBlock s).2.length ≤ 576 := by omega
  have hread := overwriteAt_getD s.writer.pageBuf s.writer.len.toNat (writerBlock s).2 j hfits
  rw [hl] at hread
  refine hread.trans ?_
  by_cases hj : s.writer.len.toNat ≤ j ∧ j < s.writer.len.toNat + (writerBlock s).1
  · rw [if_pos hj, if_pos hj, pbufAt_writerBenc s _ (by omega)]
  · rw [if_neg hj, if_neg hj]
    rfl

/-- The page's Words by number. -/
theorem blocks_eq_map_pageAt (w : Writer) (h : w.len.toNat ≤ 576) :
    w.blocks = (List.range w.len.toNat).map (pageAt w) := by
  have hlen : w.blocks.length = w.len.toNat := firstEntries_length w.pageBuf _ h
  apply List.ext_getElem (by simp [hlen])
  intro j hj hj'
  have hjl : j < w.len.toNat := hlen ▸ hj
  rw [← List.getD_eq_getElem _ 0 hj, List.getElem_map, List.getElem_range]
  exact firstEntries_getD w.pageBuf _ j hjl

/-- The page's Words after a block is appended: the old ones, then the block (44_writer.md R802). -/
theorem blocks_appendedWriter (s : State) (hlen : s.writer.len.toNat ≤ 512) :
    (appendedWriter s).blocks =
      (List.range s.writer.len.toNat).map (pageAt s.writer) ++
        (List.range (writerBlock s).1).map (pbufAt (writerBenc s)) := by
  have hn := writerBlock_width_le_64 s
  have hnew : (appendedWriter s).len.toNat = s.writer.len.toNat + (writerBlock s).1 :=
    append_len_toNat _ _ hlen hn
  rw [blocks_eq_map_pageAt _ (by omega), hnew, List.range_add, List.map_append, List.map_map]
  congr 1 <;> refine List.map_congr_left fun j hj => ?_ <;> rw [List.mem_range] at hj
  · rw [pageAt_appendedWriter s hlen, if_neg (by omega)]
  · rw [Function.comp_apply, pageAt_appendedWriter s hlen, if_pos (by omega), Nat.add_sub_cancel_left]

/-- Settles O39: the appended block is the one BENC makes from the writer's width and last value. -/
theorem wbatchAppendsTheBlock : Obligations.WbatchAppendsTheBlock := by
  intro s hf hslot hlen
  have hn := writerBlock_width_le_64 s
  have hslot8 : s.writer.slot ≠ 8 := by bv_omega
  refine ⟨writerBenc s, _, exec_benc_writer s, exec_wbatch_append s hf hslot8, rfl, ?_, ?_,
    appendedWriter_last s, ?_, ?_, ?_⟩
  · exact append_slot_toNat _ _ (Nat.le_of_lt hslot)
  · rw [writerBenc_width]
    exact append_len_toNat _ _ hlen hn
  · rw [writerBenc_width]
    exact append_slotValue _ _ (Nat.le_of_lt hslot) hn
  · exact setField_flag _ _ _ (Nat.le_of_lt hslot)
  · rw [writerBenc_width]
    exact pageAt_appendedWriter s hlen

/-! ### Pages on the sink -/

theorem sinkWrite_of_ready {call : SinkCall} {bytes : List Byte} {go : SinkReply → State → State}
    {s : State} {r : SinkReply} {more : List SinkReply} (h : s.sink.replies = r :: more) :
    sinkWrite call bytes go s = go r (s.putSink { s.sink with replies := more }) := by
  simp only [sinkWrite, h]

/-- The full page: its header, the page's Words, the new block (44_writer.md R803). -/
theorem fullPage_eq (s : State) (hlen : s.writer.len.toNat ≤ 512) :
    fullPage s = serWords s.byteOrder ((fullWriter s).hdr ::
      ((List.range s.writer.len.toNat).map (pageAt s.writer) ++
        (List.range (writerBlock s).1).map (pbufAt (writerBenc s)))) := by
  rw [← blocks_appendedWriter s hlen]
  rfl

theorem fullWriter_slotValue (s : State) (hslot : s.writer.slot = 8) (k : Nat) (hk : k ≤ 8) :
    slotValue (fullWriter s).hdr k = if k = 8 then (writerBlock s).1 else slotValue s.writer.hdr k := by
  have hslot8 : s.writer.slot.toNat = 8 := by rw [hslot]; rfl
  have happend := append_slotValue (w := s.writer) (writerBlock s).2
    (zext64 (lowElem s.writer.ew s.vbuf[63])) hslot8.le (writerBlock_width_le_64 s) k hk
  rw [hslot8] at happend
  exact (fullFlag_slotValue _ k hk).trans happend

/-- Settles O40: the sink takes the page, so WBATCH ends with the page emptied. -/
theorem wbatchEmitsTheFullPage : Obligations.WbatchEmitsTheFullPage := by
  intro s r more hf hslot hlen hready herr
  refine ⟨writerBenc s, exec_benc_writer s, fun hall => ?_⟩
  have hpage := fullPage_eq s hlen
  have hsucc : r.succeeds (fullPage s) = true := by
    rw [succeeds_iff, hpage, serWords_length]
    refine ⟨herr, ?_⟩
    rw [writerBenc_width] at hall
    simp only [List.length_cons, List.length_append, List.length_map, List.length_range]
    omega
  have hexec := exec_wbatch_emit s hf hslot
  rw [sinkWrite_of_ready (s := s.putWriter (fullWriter s)) hready, sinkReturn_wbatch _ _ hsucc] at hexec
  refine ⟨_, (fullWriter s).hdr, hexec, ?_, appendedWriter_last s, ?_, ?_, ?_⟩
  · rw [writerBenc_width, ← hpage]
    rfl
  · intro k hk
    rw [fullWriter_slotValue s hslot k hk.le, if_neg (by omega)]
  · rw [fullWriter_slotValue s hslot 8 le_rfl, if_pos rfl, writerBenc_width]
  · show ((appendedWriter s).hdr ||| fullFlag).getLsbD 63 = true
    rw [or_fullFlag_getLsbD]
    simp

/-- The raw Words of a terminal page (44_writer.md R804; 20_memory.md R211). -/
theorem rawWords_eq (s : State) (n : Nat) (hn : n ≤ 128) :
    ((firstEntries s.vbuf n).map fun v => zext64 (lowElem s.writer.ew v)) =
      (List.range n).map fun i => BitVec.ofNat 64 (elemValue s.writer.ew (vbufAt s i)) := by
  have hlen := firstEntries_length s.vbuf n hn
  apply List.ext_getElem (by simp [hlen])
  intro i hi hi'
  have hin : i < n := by simpa using hi'
  have hentry : (firstEntries s.vbuf n)[i]'(by omega) = vbufAt s i := by
    rw [← List.getD_eq_getElem _ 0]
    exact firstEntries_getD s.vbuf n i hin
  rw [List.getElem_map, List.getElem_map, List.getElem_range, zext64_lowElem, hentry]

/-- The terminal page: the finished header, the page's Words, the raw elements (44_writer.md R804). -/
theorem lastPage_eq (s : State) (hlen : s.writer.len.toNat ≤ 512) (hc : s.count.toNat ≤ 63) :
    lastPage s = serWords s.byteOrder
      (finishPartial s.writer.hdr s.writer.slot.toNat (BitVec.ofNat 8 s.count.toNat) ::
        ((List.range s.writer.len.toNat).map (pageAt s.writer) ++
          (List.range s.count.toNat).map fun i =>
            BitVec.ofNat 64 (elemValue s.writer.ew (vbufAt s i)))) := by
  rw [← blocks_eq_map_pageAt s.writer (by omega), ← rawWords_eq s _ (by omega)]
  rfl

/-- WFLUSH when the sink takes the page (44_writer.md R804). -/
theorem exec_wflush_of_ready {s : State} {r : SinkReply} {more : List SinkReply}
    (hf : s.writer.state = .filling) (hc : s.count.toNat ≤ 63)
    (hsome : ¬(s.writer.slot = 0 ∧ s.count = 0)) (hready : s.sink.replies = r :: more)
    (hsucc : r.succeeds (lastPage s) = true) :
    exec .wflush s = .next
      { s with
        writer := { s.writer with state := .closed, slot := 0, len := 0, hdr := 0 }
        sink := { accepted := s.sink.accepted ++ lastPage s, replies := more }
        result := .ok
        phase := .idle } := by
  rw [exec_wflush_emit s hf hc hsome, sinkWrite_of_ready hready, sinkReturn_wflush _ hsucc]
  rfl

/-- Settles O41: COUNT is at most 63, so it fits the 8 bits of the header's count. -/
theorem wflushEmitsTheTerminalPage : Obligations.WflushEmitsTheTerminalPage := by
  intro s r more hf hslot hlen hc hsome hready herr hall
  have hpage := lastPage_eq s hlen hc
  have hsucc : r.succeeds (lastPage s) = true := by
    rw [succeeds_iff, hpage, serWords_length]
    refine ⟨herr, ?_⟩
    simp only [List.length_cons, List.length_append, List.length_map, List.length_range]
    omega
  refine ⟨finishPartial s.writer.hdr s.writer.slot.toNat (BitVec.ofNat 8 s.count.toNat), ?_, ?_, ?_, ?_⟩
  · rw [exec_wflush_of_ready hf hc hsome hready hsucc, hpage]
  · intro k hk hk7
    rw [finishPartial_slotValue _ _ _ _ hk7, if_neg (by omega)]
  · intro k hk hk7
    rw [finishPartial_slotValue _ _ _ _ hk7, if_pos hk]
  · rw [← tailCount_eq, finishPartial_tailCount, BitVec.toNat_ofNat]
    omega

end Sys2Proof.Machine
end

section
/-! RBATCH (45_reader.md R902 to R905): the header, the block, the raw tail and the ends, the source's answer
standing ready; and the stream of one batch (45_reader.md R907). -/

namespace Sys2Proof.Machine

variable {s : State} {r : SourceReply} {more : List SourceReply}

/-! ### A ready answer -/

theorem srcRead_of_ready {call : SourceCall} {go : SourceAnswer → State → State}
    (h : s.source.replies = r :: more) :
    srcRead call go s =
      go (Source.answer { s.source with replies := more } call.request r).1
        (s.putSource (Source.answer { s.source with replies := more } call.request r).2) := by
  simp only [srcRead, h]

section open_source
variable {call : SourceCall} {go : SourceAnswer → State → State} (hopen : s.source.ended = false)
include hopen

/-- The source delivers all the bytes asked for. -/
theorem srcRead_deliver (h : s.source.replies = .deliver :: more)
    (hn : call.request ≤ s.source.bytes.length) :
    srcRead call go s = go (.ok (s.source.bytes.take call.request))
      (s.putSource { s.source with bytes := s.source.bytes.drop call.request, replies := more }) := by
  have hanswer : Source.answer { s.source with replies := more } call.request .deliver =
      (.ok (s.source.bytes.take call.request),
        { s.source with bytes := s.source.bytes.drop call.request, replies := more }) :=
    answer_deliver hopen hn
  rw [srcRead_of_ready h, hanswer]

/-- The source's stream is shorter than what is asked for. -/
theorem srcRead_short (h : s.source.replies = .deliver :: more)
    (hn : s.source.bytes.length < call.request) :
    srcRead call go s = go (.eof s.source.bytes)
      (s.putSource { bytes := [], ended := true, replies := more }) := by
  have hanswer : Source.answer { s.source with replies := more } call.request .deliver =
      (.eof s.source.bytes, { bytes := [], ended := true, replies := more }) :=
    answer_deliver_short hopen hn
  rw [srcRead_of_ready h, hanswer]

/-- The source fails, having consumed some of what is asked for. -/
theorem srcRead_fail {lost : Nat} (h : s.source.replies = .fail lost :: more) :
    srcRead call go s = go .err (s.putSource
      { s.source with bytes := s.source.bytes.drop (min lost call.request), replies := more }) := by
  have hanswer : Source.answer { s.source with replies := more } call.request (.fail lost) =
      (.err, { s.source with
        bytes := s.source.bytes.drop (min lost call.request), replies := more }) :=
    answer_fail call.request lost hopen
  rw [srcRead_of_ready h, hanswer]

end open_source

/-- The source has ended before. -/
theorem srcRead_ended {call : SourceCall} {go : SourceAnswer → State → State}
    (hended : s.source.ended = true) (h : s.source.replies = r :: more) :
    srcRead call go s = go (.eof []) (s.putSource { s.source with replies := more }) := by
  have hanswer : Source.answer { s.source with replies := more } call.request r =
      (.eof [], { s.source with replies := more }) := answer_of_ended _ _ hended
  rw [srcRead_of_ready h, hanswer]

theorem slot_ne_nine (h : s.reader.slot.toNat ≤ 8) : s.reader.slot ≠ 9 := by bv_omega

/-! ### The header -/

/-- RBATCH with 8 bytes for the header is RBATCH with the header loaded (45_reader.md R903). -/
theorem exec_rbatch_load (hact : s.reader.state = .active) (hslot : s.reader.slot = 9)
    (hready : s.source.replies = .deliver :: more) (hopen : s.source.ended = false)
    (hlen : 8 ≤ s.source.bytes.length) : exec .rbatch s = exec .rbatch
      { s with
        reader := { s.reader with hdr := deser s.byteOrder (s.source.bytes.take 8), slot := 0 }
        source := { s.source with bytes := s.source.bytes.drop 8, replies := more } } := by
  rw [exec_rbatch_header s hact hslot, srcRead_deliver (call := .header) hopen hready hlen]
  have hzero : (0 : BitVec 4) ≠ 9 := by decide
  symm
  exact exec_rbatch_slot _ hact hzero

/-- Settles O45, by the source's answer. -/
theorem rbatchLoadsTheHeader : Obligations.RbatchLoadsTheHeader := by
  intro s r more hact hslot hready
  have hexec := exec_rbatch_header s hact hslot
  refine ⟨fun hended => ?_, fun hopen lost hr => ?_, fun hopen hr hnone => ?_,
    fun hopen hr hsome hshort => ?_, fun hopen hr hlen => ?_⟩
  · rw [hexec, srcRead_ended hended hready]
    rfl
  · subst hr
    rw [hexec, srcRead_fail hopen hready]
    rfl
  · subst hr
    have hlt : s.source.bytes.length < SourceCall.header.request := by rw [hnone]; decide
    rw [hexec, srcRead_short hopen hready hlt, hnone]
    rfl
  · subst hr
    obtain ⟨x, xs, hbytes⟩ := List.exists_cons_of_ne_nil hsome
    rw [hexec, srcRead_short (call := .header) hopen hready hshort, hbytes]
    rfl
  · subst hr
    exact exec_rbatch_load hact hslot hready hopen hlen

/-! ### Ends and errors -/

/-- The answer to the read of a block or a tail that is too short, or that failed. -/
theorem exec_rbatch_read {call : SourceCall} {go : SourceAnswer → State → State} {n : Nat}
    (hact : s.reader.state = .active) (hslot : s.reader.slot.toNat ≤ 8)
    (hread : readSlot s = srcRead call go s) (hrequest : call.request = 8 * n)
    (heof : ∀ b u, go (.eof b) u = readerFails .truncated u)
    (herr : ∀ u, go .err u = readerFails .ioError u)
    (hopen : s.source.ended = false) (hready : s.source.replies = r :: more) :
    (r = .deliver → s.source.bytes.length < 8 * n → exec .rbatch s = .next
      { s with
        reader := { s.reader with state := .failed }
        source := { bytes := [], ended := true, replies := more }
        result := .truncated
        phase := .idle }) ∧
    (∀ lost, r = .fail lost → exec .rbatch s = .next
      { s with
        reader := { s.reader with state := .failed }
        source := { s.source with bytes := s.source.bytes.drop (min lost (8 * n)), replies := more }
        result := .ioError
        phase := .idle }) := by
  rw [exec_rbatch_slot s hact (slot_ne_nine hslot), hread]
  refine ⟨fun hr hshort => ?_, fun lost hr => ?_⟩
  · subst hr
    rw [srcRead_short hopen hready (hrequest ▸ hshort), heof]
    rfl
  · subst hr
    rw [srcRead_fail hopen hready, herr, hrequest]
    rfl

/-- Settles O48, by the reader's state and what the slot says. -/
theorem rbatchEndsAndErrors : Obligations.RbatchEndsAndErrors := by
  intro s
  refine ⟨exec_rbatch_of_done s, exec_rbatch_of_failed s, fun hact hslot hbad => ?_,
    fun n r more hact hslot hpos hc hopen hready => ?_⟩
  · rw [exec_rbatch_slot s hact (slot_ne_nine hslot)]
    rcases hbad with hinv | ⟨n, hc, hn⟩
    · rw [readSlot_of_invalid s hinv]
      rfl
    · rw [readSlot_of_width_gt s hc hn]
      rfl
  · rcases hc with hc | ⟨hc, hn⟩
    · exact exec_rbatch_read hact hslot (readSlot_of_tail s hc hpos) rfl (fun _ _ => rfl)
        (fun _ => rfl) hopen hready
    · exact exec_rbatch_read hact hslot (readSlot_of_block s hc hn hpos) rfl (fun _ _ => rfl)
        (fun _ => rfl) hopen hready

/-! ### Deliveries -/

/-- A read whose bytes are those of `ws`: the rest of the stream is left. -/
theorem srcRead_words {call : SourceCall} {go : SourceAnswer → State → State} {ws : List Word}
    {left : List Byte} (hopen : s.source.ended = false) (hready : s.source.replies = .deliver :: more)
    (hrequest : call.request = 8 * ws.length)
    (hbytes : s.source.bytes = serWords s.byteOrder ws ++ left) :
    srcRead call go s = go (.ok (serWords s.byteOrder ws))
      (s.putSource { s.source with bytes := left, replies := more }) := by
  have hlen : call.request = (serWords s.byteOrder ws).length := by rw [hrequest, serWords_length]
  have hfits : call.request ≤ s.source.bytes.length := by rw [hbytes, List.length_append]; omega
  rw [srcRead_deliver hopen hready hfits, hbytes, hlen, List.take_left, List.drop_left]

/-- RBATCH at a block slot, the source delivering the Words `ws` (45_reader.md R905). -/
theorem exec_rbatch_block {n : Nat} {ws : List Word} {left : List Byte}
    (hact : s.reader.state = .active) (hslot : s.reader.slot.toNat ≤ 8)
    (hc : classify s.reader.hdr s.reader.slot.toNat = .block n) (hn : n ≤ elemBits s.reader.ew)
    (hopen : s.source.ended = false) (hws : ws.length = n)
    (hready : s.source.replies = if n = 0 then more else .deliver :: more)
    (hbytes : s.source.bytes = serWords s.byteOrder ws ++ left) :
    exec .rbatch s = .next (deliverBlock n s.reader.slot.toNat ws
      (s.putSource { s.source with bytes := left, replies := more })) := by
  rw [exec_rbatch_slot s hact (slot_ne_nine hslot)]
  rcases Nat.eq_zero_or_pos n with rfl | hpos
  · obtain rfl := List.length_eq_zero_iff.mp hws
    have hsource : s.putSource { s.source with bytes := left, replies := more } = s := by
      rw [if_pos rfl] at hready
      rw [show left = s.source.bytes from hbytes.symm, ← hready]
      rfl
    rw [readSlot_of_block_zero s hc, hsource]
  · rw [if_neg (Nat.ne_of_gt hpos)] at hready
    have hrequest : (SourceCall.block n s.reader.slot.toNat).request = 8 * ws.length := by
      rw [hws]; rfl
    rw [readSlot_of_block s hc hn hpos, srcRead_words hopen hready hrequest hbytes]
    show Host.Outcome.next (deliverBlock n s.reader.slot.toNat
      (deserWords s.byteOrder n (serWords s.byteOrder ws)) _) = _
    rw [deserWords_serWords s.byteOrder ws hws]

/-- RBATCH at a terminal slot, the source delivering the raw Words `ws` (45_reader.md R904). -/
theorem exec_rbatch_tail {n : Nat} {ws : List Word} {left : List Byte}
    (hact : s.reader.state = .active) (hslot : s.reader.slot.toNat ≤ 8)
    (hc : classify s.reader.hdr s.reader.slot.toNat = .terminal n)
    (hopen : s.source.ended = false) (hws : ws.length = n)
    (hready : s.source.replies = if n = 0 then more else .deliver :: more)
    (hbytes : s.source.bytes = serWords s.byteOrder ws ++ left) :
    exec .rbatch s = .next (deliverTail n ws
      (s.putSource { s.source with bytes := left, replies := more })) := by
  rw [exec_rbatch_slot s hact (slot_ne_nine hslot)]
  rcases Nat.eq_zero_or_pos n with rfl | hpos
  · obtain rfl := List.length_eq_zero_iff.mp hws
    have hsource : s.putSource { s.source with bytes := left, replies := more } = s := by
      rw [if_pos rfl] at hready
      rw [show left = s.source.bytes from hbytes.symm, ← hready]
      rfl
    rw [readSlot_of_tail_zero s hc, hsource]
  · rw [if_neg (Nat.ne_of_gt hpos)] at hready
    have hrequest : (SourceCall.tail n).request = 8 * ws.length := by rw [hws]; rfl
    rw [readSlot_of_tail s hc hpos, srcRead_words hopen hready hrequest hbytes]
    show Host.Outcome.next (deliverTail n (deserWords s.byteOrder n (serWords s.byteOrder ws)) _) = _
    rw [deserWords_serWords s.byteOrder ws hws]

/-- The Words of a width N are not more than 127, so N is a 64-bit value. -/
theorem ofNat_toNat_of_le {n : Nat} (h : n ≤ 127) : (BitVec.ofNat 64 n).toNat = n := by
  rw [BitVec.toNat_ofNat, Nat.mod_eq_of_lt (by omega)]

/-- The state BDEC decodes a reader's block in: the reader's width, extension and last value stand in CFG and
OFFSET, the block in WIDTH and PBUF. -/
def readerBlockState (s : State) (n : Nat) (ws : List Word) : State :=
  { s with
    cfgEW := s.reader.ew, cfgSX := s.reader.sx, offset := s.reader.last
    width := BitVec.ofNat 64 n, pbuf := overwrite s.pbuf ws }

/-- BDEC's VBUF is the one the delivered block leaves. -/
theorem exec_bdec_readerBlock {n : Nat} {ws : List Word} (hn : n ≤ elemBits s.reader.ew)
    (hws : ws.length = n) :
    ∃ d, exec .bdec (readerBlockState s n ws) = .next d ∧
      d.vbuf = overwrite s.vbuf
        ((decodeBatch (lowElem s.reader.ew s.reader.last) n ws).map (extend64 s.reader.sx)) := by
  have h64 : n ≤ 64 := hn.trans (elemBits_le _)
  have hwidth : (readerBlockState s n ws).width.toNat = n := ofNat_toNat_of_le (by omega)
  have hwords : packedWords (readerBlockState s n ws) n = ws := by
    rw [← hws]
    exact firstEntries_overwrite s.pbuf ws (show ws.length ≤ 64 by omega)
  refine ⟨_, exec_bdec_eq_bdecResult _ (hwidth.trans_le hn), ?_⟩
  rw [bdecResult, hwidth, hwords]
  rfl

/-- An entry of VBUF that a batch has been delivered to. -/
theorem vbufAt_of_overwrite_map {E : Nat} {f : BitVec E → Word} {t : State} {buf : Vector Word 128}
    {vs : List (BitVec E)} (hl : vs.length = 64) (h : t.vbuf = overwrite buf (vs.map f)) {i : Nat}
    (hi : i < 64) : vbufAt t i = f (vs[i]'(by omega)) := by
  have hfits : 0 + (vs.map f).length ≤ 128 := by simp [hl]
  rw [vbufAt, h, overwrite, overwriteAt_getD _ 0 _ _ hfits, if_pos (by simp [hl, hi]), Nat.sub_zero,
    getD_map_lt _ _ _ (by omega)]

/-- The last of 64 elements, from the entry of VBUF it is delivered to. -/
theorem elemValue_last (ew : BitVec 2) (sx : Bool) {t : State} {buf : Vector Word 128}
    {vs : List (BitVec (elemBits ew))} (hl : vs.length = 64)
    (h : t.vbuf = overwrite buf (vs.map (extend64 sx))) :
    (zext64 (vs.getLastD 0)).toNat = elemValue ew (vbufAt t 63) := by
  have hlast : vs.getLastD 0 = vs[63]'(by omega) := by
    simp [List.getLastD_eq_getLast?, List.getLast?_eq_getElem?, hl]
  rw [vbufAt_of_overwrite_map hl h (by decide), ← lowElem_toNat, lowElem_extend64, zext64_toNat, hlast]

/-- Settles O46: the block's Words are those BDEC would find in PBUF. -/
theorem rbatchDeliversTheBlock : Obligations.RbatchDeliversTheBlock := by
  intro s n ws left more hact hslot hc hn hopen hws hready hbytes
  obtain ⟨d, hd, hvbuf⟩ := exec_bdec_readerBlock hn hws
  refine ⟨d, _, hd, exec_rbatch_block hact hslot hc hn hopen hws hready hbytes, ?_, ?_, ?_⟩
  · rw [deliverBlock_eq, hvbuf]
    rfl
  · rw [deliverBlock_eq]
    show (BitVec.ofNat 4 (s.reader.slot.toNat + 1)).toNat = _
    rw [BitVec.toNat_ofNat]
    omega
  · rw [deliverBlock_eq]
    exact elemValue_last s.reader.ew s.reader.sx (decodeBatch_length _ _ _) hvbuf

/-- The entries of VBUF after a raw tail (45_reader.md R904). -/
theorem vbufAt_deliverTail (s : State) (n : Nat) (ws : List Word) (hl : ws.length ≤ 128) (i : Nat) :
    vbufAt (deliverTail n ws s) i =
      if i < ws.length then extend64 s.reader.sx (lowElem s.reader.ew (ws.getD i 0)) else vbufAt s i := by
  have hput := vbufAt_putVbuf s (ws.map fun w => extend64 s.reader.sx (lowElem s.reader.ew w)) i
    (by simpa using hl)
  rw [List.length_map] at hput
  refine hput.trans ?_
  by_cases hi : i < ws.length
  · rw [if_pos hi, if_pos hi, getD_map_lt _ _ _ hi, List.getD_eq_getElem _ _ hi]
  · rw [if_neg hi, if_neg hi]

/-- Settles O47: a terminal slot's count is at most 127, so the tail fits in VBUF. -/
theorem rbatchDeliversTheRawTail : Obligations.RbatchDeliversTheRawTail := by
  intro s r ws left more hact hslot hc hopen hws hready hbytes
  have hl : ws.length ≤ 128 := by
    have := classify_terminal_le _ _ _ hc
    omega
  have hentry := vbufAt_deliverTail (s.putSource { s.source with bytes := left, replies := more }) r ws hl
  rw [hws] at hentry
  refine ⟨_, exec_rbatch_tail hact hslot hc hopen hws hready hbytes, ?_, fun i hi => ?_, fun i hi => ?_⟩
  · rw [deliverTail_eq]
    rfl
  · rw [hentry, if_pos hi]
    rfl
  · rw [hentry, if_neg (by omega)]
    rfl

end Sys2Proof.Machine
end

section
/-! The stream of one batch and a raw tail (45_reader.md R907): the page the writer makes of it, and what a reader
of the same width, offset and byte order makes of that page. -/

namespace Sys2Proof.Machine

/-! ### The page of the stream -/

/-- The block of the stream's batch against the initial offset (44_writer.md R801, R802). -/
def streamBlock (s : State) (batch : Vector Word 128) : Nat × List Word :=
  encodeBatch (lowElem s.cfgEW s.initOffset) ((firstEntries batch 64).map (lowElem s.cfgEW))

/-- The raw Words of the stream's tail (44_writer.md R804). -/
def streamTail (s : State) (raw : Vector Word 128) (n : Nat) : List Word :=
  (firstEntries raw n).map fun v => zext64 (lowElem s.cfgEW v)

theorem streamBlock_length (s : State) (batch : Vector Word 128) :
    (streamBlock s batch).2.length = (streamBlock s batch).1 := encodeBatch_length _ _

theorem streamBlock_width_le (s : State) (batch : Vector Word 128) :
    (streamBlock s batch).1 ≤ elemBits s.cfgEW := encodeBatch_width_le _ _

theorem streamTail_length (s : State) (raw : Vector Word 128) {n : Nat} (hn : n ≤ 128) :
    (streamTail s raw n).length = n := by
  rw [streamTail, List.length_map, firstEntries_length raw n hn]

/-- The element of an initial offset held as a number is the offset's. -/
theorem lowElem_elemValue (ew : BitVec 2) (v : Word) :
    lowElem ew (BitVec.ofNat 64 (elemValue ew v)) = lowElem ew v := by
  rw [← zext64_lowElem]
  exact lowElem_extend64 ew false (lowElem ew v)

/-- A state whose writer has just been started, its batch in VBUF. -/
def startedWith (s : State) (batch : Vector Word 128) : State :=
  { s with writer := startedWriter s, vbuf := batch, result := .ok, phase := .idle }

theorem writerBlock_startedWith (s : State) (batch : Vector Word 128) :
    writerBlock (startedWith s batch) = streamBlock s batch := by
  show encodeBatch (lowElem s.cfgEW (BitVec.ofNat 64 (elemValue s.cfgEW s.initOffset))) _ = _
  rw [lowElem_elemValue]
  rfl

/-- The page holds the block alone. -/
theorem blocks_startedWith (s : State) (batch : Vector Word 128) :
    (appendedWriter (startedWith s batch)).blocks = (streamBlock s batch).2 := by
  have hn := writerBlock_width_le_64 (startedWith s batch)
  have hfits : (writerBlock (startedWith s batch)).2.length ≤ 576 := by
    rw [writerBlock_length]; omega
  have hlen : (appendedWriter (startedWith s batch)).len.toNat =
      (writerBlock (startedWith s batch)).2.length := by
    rw [writerBlock_length]
    exact (append_len_toNat _ _ (by decide : (0 : BitVec 10).toNat ≤ 512) hn).trans (Nat.zero_add _)
  rw [Writer.blocks, hlen, ← writerBlock_startedWith]
  exact firstEntries_overwrite s.writer.pageBuf _ hfits

/-- The header of the stream's one page (44_writer.md R804). -/
def streamHeader (s : State) (batch : Vector Word 128) (r : Word) : Word :=
  finishPartial (appendedWriter (startedWith s batch)).hdr 1 (BitVec.ofNat 8 r.toNat)

section header
variable (s : State) (batch : Vector Word 128) {r : Word} (hr : r.toNat ≤ 63)

include hr in
theorem streamHeader_flag : (streamHeader s batch r).getLsbD 63 = false := by
  rw [streamHeader, finishPartial_flag, BitVec.getLsbD_ofNat, Nat.testBit_lt_two_pow (by omega),
    Bool.and_false]

/-- Slot 0 is the block. -/
theorem classify_streamHeader_zero :
    classify (streamHeader s batch r) 0 = .block (streamBlock s batch).1 := by
  have hn := writerBlock_width_le_64 (startedWith s batch)
  have hslot : slotValue (streamHeader s batch r) 0 = (streamBlock s batch).1 := by
    rw [streamHeader, finishPartial_slotValue _ _ _ _ (by omega), if_neg (by omega)]
    rw [← writerBlock_startedWith]
    exact (append_slotValue (w := startedWriter s) _ _ (by decide : (0 : BitVec 4).toNat ≤ 8) hn 0
      (by omega)).trans (if_pos rfl)
  rw [writerBlock_startedWith] at hn
  rw [classify_eq, hslot, if_neg (by omega), if_pos hn]

include hr in
/-- Slot 1 is terminal, with the tail's count. -/
theorem classify_streamHeader_one : classify (streamHeader s batch r) 1 = .terminal r.toNat := by
  have hslot : slotValue (streamHeader s batch r) 1 = 127 := by
    rw [streamHeader, finishPartial_slotValue _ _ _ _ (by omega), if_pos le_rfl]
  have hcount : (streamHeader s batch r).toNat / 2 ^ 56 = r.toNat := by
    rw [← tailCount_eq, streamHeader, finishPartial_tailCount, BitVec.toNat_ofNat]
    omega
  rw [classify_eq, if_pos ⟨streamHeader_flag s batch hr, .inr hslot⟩, hcount]

end header

/-- The state after WBATCH (44_writer.md R802). -/
def batchWritten (s : State) (batch : Vector Word 128) : State :=
  { startedWith s batch with
    writer := appendedWriter (startedWith s batch)
    width := BitVec.ofNat 64 (writerBlock (startedWith s batch)).1
    result := .ok
    phase := .idle }

theorem exec_wbatch_startedWith (s : State) (batch : Vector Word 128) :
    exec .wbatch (startedWith s batch) = .next (batchWritten s batch) :=
  exec_wbatch_append (startedWith s batch) rfl (by decide : (0 : BitVec 4) ≠ 8)

/-- The state WFLUSH finds: the raw values in VBUF, their number in COUNT. -/
def tailLoaded (s : State) (batch raw : Vector Word 128) (r : Word) : State :=
  { batchWritten s batch with vbuf := raw, count := r }

theorem lastPage_tailLoaded (s : State) (batch raw : Vector Word 128) (r : Word) :
    lastPage (tailLoaded s batch raw r) = serWords s.byteOrder
      (streamHeader s batch r :: ((streamBlock s batch).2 ++ streamTail s raw r.toNat)) := by
  rw [← blocks_startedWith s batch]
  rfl

/-- A sink that takes 576 Words takes the page. -/
theorem lastPage_succeeds (s : State) (batch raw : Vector Word 128) {r : Word} (hr : r.toNat ≤ 63) :
    SinkReply.succeeds ⟨8 * 576, false, 0⟩ (lastPage (tailLoaded s batch raw r)) = true := by
  have hn := (streamBlock_width_le s batch).trans (elemBits_le _)
  have hraw := streamTail_length s raw (show r.toNat ≤ 128 by omega)
  rw [succeeds_iff, lastPage_tailLoaded, serWords_length]
  simp only [List.length_cons, List.length_append, streamBlock_length, hraw, true_and]
  omega

/-- WFLUSH puts the page on the empty sink (44_writer.md R804). -/
theorem exec_wflush_tailLoaded (s : State) (batch raw : Vector Word 128) {r : Word} (hr : r.toNat ≤ 63)
    (hsink : s.sink = { accepted := [], replies := [⟨8 * 576, false, 0⟩] }) :
    ∃ c, exec .wflush (tailLoaded s batch raw r) = .next c ∧ c.result = .ok ∧
      c.cfgEW = s.cfgEW ∧ c.cfgSX = s.cfgSX ∧ c.initOffset = s.initOffset ∧
      c.sink.accepted = serWords c.byteOrder
        (streamHeader s batch r :: ((streamBlock s batch).2 ++ streamTail s raw r.toNat)) := by
  have hsome : ¬((tailLoaded s batch raw r).writer.slot = 0 ∧ (tailLoaded s batch raw r).count = 0) :=
    fun h => absurd h.1 (by decide : (0 : BitVec 4) + 1 ≠ 0)
  have hready : (tailLoaded s batch raw r).sink.replies = [⟨8 * 576, false, 0⟩] :=
    congrArg Sink.replies hsink
  have hempty : (tailLoaded s batch raw r).sink.accepted = [] := congrArg Sink.accepted hsink
  refine ⟨_, exec_wflush_of_ready rfl hr hsome hready (lastPage_succeeds s batch raw hr), rfl, rfl, rfl,
    rfl, ?_⟩
  rw [hempty, List.nil_append]
  exact lastPage_tailLoaded s batch raw r

/-! ### The page read back -/

/-- The header's 8 bytes are the next Word of the stream. -/
theorem exec_rbatch_load_word {s : State} {more : List SourceReply} {h : Word} {rest : List Byte}
    (hact : s.reader.state = .active) (hslot : s.reader.slot = 9)
    (hsource : s.source = ⟨ser s.byteOrder h ++ rest, false, .deliver :: more⟩) :
    exec .rbatch s = exec .rbatch
      { s with reader := { s.reader with hdr := h, slot := 0 }, source := ⟨rest, false, more⟩ } := by
  have hlen := ser_length s.byteOrder h
  have htake : s.source.bytes.take 8 = ser s.byteOrder h := by
    rw [hsource, ← hlen]; exact List.take_left
  have hdrop : s.source.bytes.drop 8 = rest := by
    rw [hsource, ← hlen]; exact List.drop_left
  have hfits : 8 ≤ s.source.bytes.length := by
    rw [hsource]; simp [hlen]
  rw [exec_rbatch_load hact hslot (congrArg Source.replies hsource) (congrArg Source.ended hsource) hfits,
    htake, hdrop, deser_ser, hsource]

/-- A reader at a slot of a page, the rest of the page in the source: the source's answers are as many as
the reads to come. -/
def ReadsPage (s : State) (slot : BitVec 4) (h : Word) (ew : BitVec 2) (sx : Bool) (ws : List Word)
    (answers : Nat) : Prop :=
  s.reader.state = .active ∧ s.reader.slot = slot ∧ s.reader.hdr = h ∧ s.reader.ew = ew ∧
    s.reader.sx = sx ∧ s.source = ⟨serWords s.byteOrder ws, false, List.replicate answers .deliver⟩

/-- RBATCH on the page's block: the decoded batch, and the reader at the next slot with the rest of the page. -/
theorem exec_rbatch_page_block {s : State} {h : Word} {ew : BitVec 2} {sx : Bool} {ws raws : List Word}
    {n : Nat} (hpage : ReadsPage s 0 h ew sx (ws ++ raws) 3) (hc : classify h 0 = .block n)
    (hn : n ≤ elemBits ew) (hws : ws.length = n) :
    ∃ e, exec .rbatch s = .next e ∧ e.result = .ok ∧
      e.vbuf = overwrite s.vbuf ((decodeBatch (lowElem ew s.reader.last) n ws).map (extend64 sx)) ∧
      ReadsPage e 1 h ew sx raws (if n = 0 then 3 else 2) := by
  obtain ⟨hact, hslot, rfl, rfl, rfl, hsource⟩ := hpage
  have hzero : s.reader.slot.toNat = 0 := by rw [hslot]; rfl
  have hready : s.source.replies =
      if n = 0 then List.replicate (if n = 0 then 3 else 2) .deliver
      else .deliver :: List.replicate (if n = 0 then 3 else 2) .deliver := by
    rw [hsource]
    by_cases h0 : n = 0 <;> simp only [h0, if_true, if_false, List.replicate_succ]
  have hbytes : s.source.bytes = serWords s.byteOrder ws ++ serWords s.byteOrder raws := by
    rw [hsource, ← serWords_append]
  have hopen : s.source.ended = false := by rw [hsource]
  have hexec := exec_rbatch_block hact (hzero.trans_le (by omega)) (hzero ▸ hc) hn hopen hws hready hbytes
  rw [deliverBlock_eq, hzero] at hexec
  refine ⟨_, hexec, rfl, rfl, hact, rfl, rfl, rfl, rfl, ?_⟩
  show Source.mk _ s.source.ended _ = _
  rw [hopen]
  rfl

/-- RBATCH on the page's tail: the raw elements, and the reader DONE with nothing left in the source. -/
theorem exec_rbatch_page_tail {s : State} {h : Word} {ew : BitVec 2} {sx : Bool} {raws : List Word}
    {k answers : Nat} (hpage : ReadsPage s 1 h ew sx raws answers)
    (hready : 0 < answers) (hc : classify h 1 = .terminal k)
    (hraws : raws.length = k) :
    ∃ f, exec .rbatch s = .next f ∧ f.result = .tail ∧ f.count = BitVec.ofNat 64 k ∧
      (∀ i < k, vbufAt f i = extend64 sx (lowElem ew (raws.getD i 0))) ∧
      f.reader.state = .done ∧ f.source.bytes = [] := by
  obtain ⟨hact, hslot, rfl, rfl, rfl, hsource⟩ := hpage
  have hone : s.reader.slot.toNat = 1 := by rw [hslot]; rfl
  obtain ⟨m, rfl⟩ := Nat.exists_eq_add_one.mpr hready
  have hready : s.source.replies =
      if k = 0 then List.replicate (if k = 0 then m + 1 else m) .deliver
      else .deliver :: List.replicate (if k = 0 then m + 1 else m) .deliver := by
    rw [hsource]
    by_cases h0 : k = 0 <;> simp only [h0, if_true, if_false, List.replicate_succ]
  have hbytes : s.source.bytes = serWords s.byteOrder raws ++ [] := by rw [hsource, List.append_nil]
  have hopen : s.source.ended = false := by rw [hsource]
  have hl : raws.length ≤ 128 := by
    have := classify_terminal_le _ _ _ hc
    omega
  refine ⟨_, exec_rbatch_tail hact (hone.trans_le (by omega)) (hone ▸ hc) hopen hraws hready hbytes,
    rfl, rfl, fun i hi => ?_, rfl, rfl⟩
  rw [vbufAt_deliverTail _ k raws hl, if_pos (hraws ▸ hi)]
  rfl

/-- RINIT on a page in the source: RBATCH loads its header first (45_reader.md R901, R903). -/
theorem exec_rbatch_page_header {c : State} {h : Word} {ew : BitVec 2} {sx : Bool} {ws : List Word}
    (hew : c.cfgEW = ew) (hsx : c.cfgSX = sx)
    (hsource : c.source = ⟨serWords c.byteOrder (h :: ws), false, List.replicate 4 .deliver⟩) :
    ∃ d d', exec .rinit c = .next d ∧ exec .rbatch d = exec .rbatch d' ∧ ReadsPage d' 0 h ew sx ws 3 ∧
      lowElem ew d'.reader.last = lowElem ew c.initOffset := by
  subst hew hsx
  have hload := exec_rbatch_load_word (s := conclude .ok (c.putReader (startedReader c)))
    (more := List.replicate 3 .deliver) (rest := serWords c.byteOrder ws) rfl rfl hsource
  exact ⟨_, _, exec_rinit c, hload, ⟨rfl, rfl, rfl, rfl, rfl, rfl⟩,
    lowElem_elemValue c.cfgEW c.initOffset⟩

/-- The elements of the batch, as the stream's reader delivers them. -/
theorem vbufAt_of_streamBlock {s e : State} {batch buf : Vector Word 128}
    (h : e.vbuf = overwrite buf ((decodeBatch (lowElem s.cfgEW s.initOffset) (streamBlock s batch).1
      (streamBlock s batch).2).map (extend64 s.cfgSX))) {i : Nat} (hi : i < 64) :
    vbufAt e i = extend64 s.cfgSX (lowElem s.cfgEW (batch.toList.getD i 0)) := by
  have hfirst := firstEntries_length batch 64 (by decide)
  have hl : ((firstEntries batch 64).map (lowElem s.cfgEW)).length = 64 := by
    rw [List.length_map, hfirst]
  rw [streamBlock, decodeBatch_encodeBatch s.cfgEW _ _ hl] at h
  rw [vbufAt_of_overwrite_map hl h hi, List.getElem_map, ← firstEntries_getD batch 64 i hi,
    List.getD_eq_getElem _ 0 (hfirst.symm ▸ hi)]

/-- The elements of the tail, as the stream's page holds them. -/
theorem lowElem_streamTail_getD (s : State) (raw : Vector Word 128) {n i : Nat} (hn : n ≤ 128)
    (hi : i < n) :
    lowElem s.cfgEW ((streamTail s raw n).getD i 0) = lowElem s.cfgEW (raw.toList.getD i 0) := by
  have hl : i < (firstEntries raw n).length := by rwa [firstEntries_length raw n hn]
  rw [streamTail, getD_map_lt _ _ _ hl, ← List.getD_eq_getElem _ 0 hl, firstEntries_getD raw n i hi]
  exact lowElem_extend64 s.cfgEW false _

/-- Settles O60: the decoded block is the batch the block was made of, and the raw Words hold the tail's
elements. -/
theorem oneBatchStreamRoundTrip : Obligations.OneBatchStreamRoundTrip := by
  intro s batch raw r replies hr hsink hreplies
  subst hreplies
  have hr128 : r.toNat ≤ 128 := by omega
  obtain ⟨c, hflush, hok, hew, hsx, hoff, hpage⟩ := exec_wflush_tailLoaded s batch raw hr hsink
  refine ⟨_, _, c, exec_winit s, exec_wbatch_startedWith s batch, hflush, hok, ?_⟩
  obtain ⟨d, d', hinit, hload, hread, hlast⟩ := exec_rbatch_page_header
    (c := { c with source := ⟨c.sink.accepted, false, List.replicate 4 .deliver⟩ }) hew hsx (by rw [hpage])
  obtain ⟨e, he, heok, hevbuf, heread⟩ := exec_rbatch_page_block hread
    (classify_streamHeader_zero s batch) (streamBlock_width_le s batch) (streamBlock_length s batch)
  obtain ⟨f, hf, hftail, hfcount, hfvbuf, hfdone, hfnone⟩ := exec_rbatch_page_tail heread
    (by split <;> decide) (classify_streamHeader_one s batch hr) (streamTail_length s raw hr128)
  have hinitOffset : lowElem s.cfgEW d'.reader.last = lowElem s.cfgEW s.initOffset :=
    hlast.trans (congrArg _ hoff)
  rw [hinitOffset] at hevbuf
  refine ⟨d, e, f, _, hinit, hload.trans he, heok, fun i hi => vbufAt_of_streamBlock hevbuf hi, hf, hftail,
    ?_, fun i hi => ?_, exec_rbatch_of_done f hfdone, rfl, hfnone⟩
  · rw [hfcount, BitVec.ofNat_toNat, BitVec.setWidth_eq]
  · rw [hfvbuf i hi, lowElem_streamTail_getD s raw hr128 hi]

end Sys2Proof.Machine
end
